-- ==== Sys2Proof/Word.lean ====
section
/-! DEFINITION. The word types of the TLCS-900/L1 and the three operand sizes (00_scope.md R7, section 6.1). -/

namespace Sys2Proof

/-- 8 bits. -/
abbrev Byte := BitVec 8

/-- 16 bits: "Word register name (16 bits)" (30_encoding.md R81). -/
abbrev Half := BitVec 16

/-- 32 bits: the width of a general-purpose register, of PC and of the ALU (R7). A value of a narrower size travels
zero-extended in one of these. -/
abbrev Word := BitVec 32

/-- Operand size: 8, 16 or 32 bits (R7, R64). -/
inductive Size where
  | b8
  | w16
  | l32
deriving DecidableEq, Repr

/-- Size in bytes. -/
def Size.bytes : Size → Nat
  | .b8 => 1
  | .w16 => 2
  | .l32 => 4

/-- Size in bits. -/
def Size.bits : Size → Nat
  | .b8 => 8
  | .w16 => 16
  | .l32 => 32

/-- The low `bits` bits set. -/
def Size.mask : Size → Word
  | .b8 => 0x000000FF#32
  | .w16 => 0x0000FFFF#32
  | .l32 => 0xFFFFFFFF#32

end Sys2Proof
end

