-- ==== Sys2Proof/Config.lean ====
section
/-! DEFINITION. What the product fixes (00_scope.md R8 to R10, 92_eei_decisions.md's table of parameters) and the bits
the manual leaves undefined. The product State.reset has is Config.product, in Machine/Product.lean. -/

namespace Sys2Proof

/-- An address of the linear space, already cut to ADDR_BITS bits (20_memory.md R61). -/
abbrev Addr := Nat

/-- What stands at an address (R10, R66, 92 D4). An address in no region holds nothing. -/
inductive RegionKind where
  | rom
  | ram
  | io
deriving DecidableEq, Repr

/-- One entry of MEM_MAP: `size` bytes from `base` upward. -/
structure Region where
  base : Addr
  size : Nat
  kind : RegionKind
deriving DecidableEq, Repr

/-- The control registers (10_state.md R52): source, destination, count and mode of a micro DMA channel, and the
interrupt nesting counter. -/
inductive CtrlReg where
  | dmas (ch : Nat)
  | dmad (ch : Nat)
  | dmac (ch : Nat)
  | dmam (ch : Nat)
  | intnest
deriving DecidableEq, Repr

/-- One row of CR_MAP (R52, 92 D26): an LDC number, the control register it names and that register's width. -/
structure CrEntry where
  number : Byte
  reg : CtrlReg
  size : Size
deriving DecidableEq, Repr

/-- The arguments of DAA_FN (42_arithmetic.md R126): the value, and N, H and C before. It "depends on its four arguments
alone". -/
structure DaaArgs where
  a : Byte
  n : Bool
  h : Bool
  c : Bool
deriving DecidableEq, Repr

/-- What DAA_FN answers that R126 leaves open: the result, and H and C after. S, Z and P are the result's (R126). -/
structure DaaResult where
  r : Byte
  h : Bool
  c : Bool
deriving DecidableEq, Repr

/-- The value of DAA_FN at one argument. -/
structure DaaRow where
  args : DaaArgs
  out : DaaResult
deriving DecidableEq, Repr

/-- The parameters of the product and of the model (R8, R9, R10, R52, 92_eei_decisions.md's table), data in State
(log 5), so that a statement about every state is about every choice of them. -/
structure Product where
  /-- ADDR_BITS, the number of address pins (R8). -/
  addrBits : Nat
  /-- MEM_MAP, its first region that holds an address deciding (R66). -/
  memMap : List Region
  /-- VECTOR_BASE (R9). -/
  vectorBase : Word
  /-- The number of micro DMA channels (R10, R52). -/
  channels : Nat
  /-- CR_MAP, its first row of a number deciding (R52, 92 D26). -/
  crMap : List CrEntry
  /-- DAA_FN (42_arithmetic.md R126, 92 D25) wherever it differs from the candidate of G22, its first row of an argument
  deciding: the rows give every function of the arguments (log 11). -/
  daaRows : List DaaRow
  /-- END_PC, the address at which a run is observed to end, if there is one (60_exceptions.md R178, 92 D21). -/
  endPc : Option Addr
deriving DecidableEq, Repr

/-- What a byte of memory reads as that nothing has written (DESIGN CHOICE, log 2). -/
abbrev Config.blank : Byte := 0xFF#8

/-- `draw(1)`: the n-th bit the manual leaves undefined (10_state.md R39, R42; log 10). No body: nothing can be proved
of its value. -/
opaque Config.freeBit : Nat → Bool

end Sys2Proof
end

