-- ==== Sys2Proof/Syntax.lean ====
section
/-! DEFINITION. Instructions and their operands (30_encoding.md R86 to R93). One constructor per mnemonic of
spec/opcode_table.json; the rows of one mnemonic differ in operand size and prefix kind, which are its operands. -/

namespace Sys2Proof

/-- A 3-bit register code (R88): a register of the current view at the instruction's size. -/
abbrev RegCode := BitVec 3

/-- Which sixteen bytes an 8-bit register code names (R90): the absolute bank n (00H + 10H*n), the previous bank (D0H),
the current bank (E0H), the registers outside the banks (F0H). -/
inductive RegFile where
  | abs (bank : BitVec 2)
  | prev
  | cur
  | outside
deriving DecidableEq, Repr

/-- An 8-bit register code that names something (R90): the file, the register within it (XWA XBC XDE XHL, or XIX XIY
XIZ XSP) and the byte of that register. -/
structure LongReg where
  file : RegFile
  reg : BitVec 2
  lane : BitVec 2
deriving DecidableEq, Repr

/-- The operand a register prefix names (R89): short, one byte, a 3-bit code; or long, two bytes, any register. -/
inductive RegOp where
  | short (r : RegCode)
  | long (c : LongReg)
deriving DecidableEq, Repr

/-- A constant with the size of its register (R84, R92). -/
inductive Imm where
  | n8 (n : Byte)
  | n16 (n : Half)
  | n32 (n : Word)
deriving DecidableEq, Repr

def Imm.size : Imm → Size
  | .n8 _ => .b8
  | .n16 _ => .w16
  | .n32 _ => .l32

/-- The constant, unsigned (R92). -/
def Imm.value : Imm → Word
  | .n8 n => n.setWidth 32
  | .n16 n => n.setWidth 32
  | .n32 n => n

/-- The step of pre-decrement and post-increment (R91): 1, 2 or 4 bytes. -/
inductive StepSize where
  | one
  | two
  | four
deriving DecidableEq, Repr

/-- The memory operand of each memory addressing mode (R83 modes 3 to 9, R85, R91). Only `indirect` with a 3-bit code
has rows in the opcode table; the decoder names the others and refuses them (92 D12). -/
inductive MemMode where
  | indirect (base : RegOp)
  | preDec (base : LongReg) (step : StepSize)
  | postInc (base : LongReg) (step : StepSize)
  | index8 (base : RegCode) (d : Byte)
  | index16 (base : LongReg) (d : Half)
  | regIndex8 (base disp : LongReg)
  | regIndex16 (base disp : LongReg)
  | abs8 (n : Byte)
  | abs16 (n : Half)
  | abs24 (n : BitVec 24)
  | rel8 (d : Byte)
  | rel16 (d : Half)
deriving DecidableEq, Repr

/-- The instructions. `R` is the register of the operation byte, `r` the operand of the register prefix, `a` the
32-bit register in parentheses. -/
inductive Instr where
  -- IMP
  | pushSr
  | popSr
  | reti
  | incf
  | decf
  | ret
  | pushA
  | popA
  | exFF
  | pushF
  | popF
  -- IMM3
  | ei (n : BitVec 3)
  | ldf (n : BitVec 3)
  -- ABS
  | call16 (n : Half)
  | call24 (n : BitVec 24)
  -- RI
  | ldRn8 (R : RegCode) (n : Byte)
  | ldRn16 (R : RegCode) (n : Half)
  | ldRn32 (R : RegCode) (n : Word)
  /-- `PUSH R`, one byte, 16 or 32 bits. -/
  | pushShort (sz : Size) (R : RegCode)
  /-- `POP R`, one byte, 16 or 32 bits. -/
  | popShort (sz : Size) (R : RegCode)
  -- REG
  | ldrn (r : RegOp) (n : Imm)
  | pushReg (sz : Size) (r : RegOp)
  | popReg (sz : Size) (r : RegOp)
  | daa (r : RegOp)
  /-- `LDC cr,r`; `cr` is the control register's number. -/
  | ldcCrR (sz : Size) (r : RegOp) (cr : Byte)
  /-- `LDC r,cr`. -/
  | ldcRCr (sz : Size) (r : RegOp) (cr : Byte)
  | addRr (sz : Size) (R : RegCode) (r : RegOp)
  | ldRr (sz : Size) (R : RegCode) (r : RegOp)
  | ldrR (sz : Size) (r : RegOp) (R : RegCode)
  | subRr (sz : Size) (R : RegCode) (r : RegOp)
  /-- `LD r,#3`. -/
  | ldr3 (sz : Size) (r : RegOp) (k : BitVec 3)
  | exRr (sz : Size) (R : RegCode) (r : RegOp)
  | addrn (r : RegOp) (n : Imm)
  | subrn (r : RegOp) (n : Imm)
  -- SRC
  | ldRm (sz : Size) (R : RegCode) (a : RegCode)
  | addRm (sz : Size) (R : RegCode) (a : RegCode)
  | addmR (sz : Size) (a : RegCode) (R : RegCode)
  | subRm (sz : Size) (R : RegCode) (a : RegCode)
  | submR (sz : Size) (a : RegCode) (R : RegCode)
  -- DST
  | ldmR (sz : Size) (a : RegCode) (R : RegCode)
deriving DecidableEq, Repr

/-- Bytes of a register prefix (R89). -/
def RegOp.prefixLength : RegOp → Nat
  | .short _ => 1
  | .long _ => 2

/-- Bytes of the instruction (R86, R94). -/
def Instr.length : Instr → Nat
  | .pushSr | .popSr | .reti | .incf | .decf | .ret | .pushA | .popA | .exFF | .pushF | .popF => 1
  | .pushShort _ _ | .popShort _ _ => 1
  | .ei _ | .ldf _ => 2
  | .call16 _ => 3
  | .call24 _ => 4
  | .ldRn8 _ _ => 2
  | .ldRn16 _ _ => 3
  | .ldRn32 _ _ => 5
  | .ldrn r n | .addrn r n | .subrn r n => r.prefixLength + 1 + n.size.bytes
  | .pushReg _ r | .popReg _ r | .daa r => r.prefixLength + 1
  | .ldcCrR _ r _ | .ldcRCr _ r _ => r.prefixLength + 2
  | .addRr _ _ r | .ldRr _ _ r | .ldrR _ r _ | .subRr _ _ r | .ldr3 _ r _ | .exRr _ _ r => r.prefixLength + 1
  | .ldRm _ _ _ | .addRm _ _ _ | .addmR _ _ _ | .subRm _ _ _ | .submR _ _ _ | .ldmR _ _ _ => 2

end Sys2Proof
end

