-- ==== Sys2Proof/WellFormed.lean ====
section
/-! DEFINITION. Which terms of Instr are instructions of the opcode table: the forms 30_encoding.md R95 refuses are not. -/

namespace Sys2Proof

/-- Two checks. `PUSH R` and `POP R` have 16 and 32 bits only (R93); `EX R,r` has 8 and 16 bits only (R95, R104). Every
other operand is well-formed by its type; an LDC number outside CR_MAP is a word of the table that its meaning refuses
(43_load.md R142). -/
def Instr.wellFormed : Instr → Bool
  | .pushShort sz _ | .popShort sz _ => sz != .b8
  | .exRr sz _ _ => sz != .l32
  | .pushSr | .popSr | .reti | .incf | .decf | .ret | .pushA | .popA | .exFF | .pushF | .popF => true
  | .ei _ | .ldf _ | .call16 _ | .call24 _ | .ldRn8 _ _ | .ldRn16 _ _ | .ldRn32 _ _ => true
  | .ldrn _ _ | .pushReg _ _ | .popReg _ _ | .daa _ | .ldcCrR _ _ _ | .ldcRCr _ _ _ | .addRr _ _ _ => true
  | .ldRr _ _ _ | .ldrR _ _ _ | .subRr _ _ _ | .ldr3 _ _ _ | .addrn _ _ | .subrn _ _ => true
  | .ldRm _ _ _ | .addRm _ _ _ | .addmR _ _ _ | .subRm _ _ _ | .submR _ _ _ | .ldmR _ _ _ => true

end Sys2Proof
end

