-- ==== Sys2Proof/Decode.lean ====
section
/-! DEFINITION. The decoder, total on any bytes and rejecting by name, and the encoder (30_encoding.md R86 to R95).
The encodings are the spec's from general knowledge (PRESUMED, G11 to G13, log 13). -/

namespace Sys2Proof

/-- Why bytes are no instruction of the opcode table (R95). -/
inductive DecodeError where
  /-- The bytes end before the instruction does. -/
  | truncated
  /-- No row begins with this byte. -/
  | noSuchFirstByte (b : Byte)
  /-- A register prefix with zz = 11 (R95). -/
  | reservedSize (b : Byte)
  /-- The second byte of EI or LDF has one of bits 7 to 3 set (R95). -/
  | reservedBits (b : Byte)
  /-- A register code that names nothing: 40H to CFH (R90, R95), or in a mode byte one with bits 1, 0 not zero. -/
  | noSuchRegister (code : Byte)
  /-- No row has this operation byte after this kind of prefix. -/
  | noSuchOperation (op : Byte)
  /-- The operation exists, not at this size: EX R,r at 32 bits, DAA at 16 and 32 bits (R95). -/
  | sizeNotAdmitted (op : Byte) (sz : Size)
  /-- A memory addressing mode the spec names and admits in no row (R91, 92 D12), and the bytes its prefix takes. -/
  | modeNotAdmitted (mode : MemMode) (prefixLength : Nat)
  /-- A memory prefix whose second byte is no mode byte of R91. -/
  | noSuchMode (b : Byte)
deriving DecidableEq, Repr

/-! ## Fields -/

/-- Two bytes, least significant first (R92). -/
def le16 (b0 b1 : Byte) : Half := b1 ++ b0

/-- Three bytes, least significant first (R92). -/
def le24 (b0 b1 b2 : Byte) : BitVec 24 := b2 ++ b1 ++ b0

/-- Four bytes, least significant first (R92). -/
def le32 (b0 b1 b2 b3 : Byte) : Word := b3 ++ b2 ++ b1 ++ b0

/-- The k-th byte of a value, byte 0 the least significant. -/
def byteOf {w : Nat} (k : Nat) (v : BitVec w) : Byte := v.extractLsb' (8 * k) 8

/-- The register an 8-bit register code names (R90); 40H to CFH name nothing. -/
def LongReg.ofCode (c : Byte) : Option LongReg :=
  let at' (f : RegFile) : Option LongReg := some ⟨f, c.extractLsb' 2 2, c.extractLsb' 0 2⟩
  match c.toNat / 16 with
  | 0 => at' (.abs 0#2)
  | 1 => at' (.abs 1#2)
  | 2 => at' (.abs 2#2)
  | 3 => at' (.abs 3#2)
  | 0xD => at' .prev
  | 0xE => at' .cur
  | 0xF => at' .outside
  | _ => none

/-- The upper hexadecimal digit of a register code (R90). -/
def RegFile.code : RegFile → BitVec 4
  | .abs bank => 0#2 ++ bank
  | .prev => 0xD#4
  | .cur => 0xE#4
  | .outside => 0xF#4

/-- The 8-bit register code (R90). -/
def LongReg.code (r : LongReg) : Byte := r.file.code ++ r.reg ++ r.lane

/-- The field zz (R87). -/
def Size.zz : Size → BitVec 2
  | .b8 => 0#2
  | .w16 => 1#2
  | .l32 => 2#2

/-! ## Decoder -/

/-- The second byte of EI and LDF: 00000nnn (R93, R95). -/
def decodeImm3 (mk : BitVec 3 → Instr) : List Byte → Except DecodeError Instr
  | n :: _ => if n.extractLsb' 3 5 = 0#5 then .ok (mk (n.setWidth 3)) else .error (.reservedBits n)
  | [] => .error .truncated

/-- A 16-bit constant in the instruction. -/
def decodeImm16 (mk : Half → Instr) : List Byte → Except DecodeError Instr
  | b0 :: b1 :: _ => .ok (mk (le16 b0 b1))
  | _ => .error .truncated

/-- A 32-bit constant in the instruction. -/
def decodeImm32 (mk : Word → Instr) : List Byte → Except DecodeError Instr
  | b0 :: b1 :: b2 :: b3 :: _ => .ok (mk (le32 b0 b1 b2 b3))
  | _ => .error .truncated

/-- A constant of the operand size (R94). -/
def decodeImm (sz : Size) (mk : Imm → Instr) (bs : List Byte) : Except DecodeError Instr :=
  match sz with
  | .b8 =>
    match bs with
    | n :: _ => .ok (mk (.n8 n))
    | [] => .error .truncated
  | .w16 => decodeImm16 (fun n => mk (.n16 n)) bs
  | .l32 => decodeImm32 (fun n => mk (.n32 n)) bs

/-- The control register number of LDC. Whether it is in CR_MAP at the prefix size is the meaning's to say (R142). -/
def decodeCr (mk : Byte → Instr) : List Byte → Except DecodeError Instr
  | x :: _ => .ok (mk x)
  | [] => .error .truncated

/-- The operation byte after a register prefix, and what follows it: the `REG` rows of R93. -/
def decodeRegOp (sz : Size) (r : RegOp) : List Byte → Except DecodeError Instr
  | [] => .error .truncated
  | op :: bs =>
    let R : RegCode := op.setWidth 3
    match op.toNat with
    | 0x03 => decodeImm sz (.ldrn r) bs
    | 0x04 => .ok (.pushReg sz r)
    | 0x05 => .ok (.popReg sz r)
    | 0x10 => if sz = .b8 then .ok (.daa r) else .error (.sizeNotAdmitted op sz)
    | 0x2E => decodeCr (.ldcCrR sz r) bs
    | 0x2F => decodeCr (.ldcRCr sz r) bs
    | 0xC8 => decodeImm sz (.addrn r) bs
    | 0xCA => decodeImm sz (.subrn r) bs
    | n =>
      match n / 8 with
      | 0x10 => .ok (.addRr sz R r)
      | 0x11 => .ok (.ldRr sz R r)
      | 0x13 => .ok (.ldrR sz r R)
      | 0x14 => .ok (.subRr sz R r)
      | 0x15 => .ok (.ldr3 sz r R)
      | 0x17 => if sz = .l32 then .error (.sizeNotAdmitted op sz) else .ok (.exRr sz R r)
      | _ => .error (.noSuchOperation op)

/-- The register code after a long register prefix (R89, R90). -/
def decodeLong (sz : Size) : List Byte → Except DecodeError Instr
  | [] => .error .truncated
  | c :: bs =>
    match LongReg.ofCode c with
    | some r => decodeRegOp sz (.long r) bs
    | none => .error (.noSuchRegister c)

/-- The operation byte after a memory source prefix: the `SRC` rows of R93. -/
def decodeSrc (sz : Size) (a : RegCode) : List Byte → Except DecodeError Instr
  | [] => .error .truncated
  | op :: _ =>
    let R : RegCode := op.setWidth 3
    match op.toNat / 8 with
    | 0x04 => .ok (.ldRm sz R a)
    | 0x10 => .ok (.addRm sz R a)
    | 0x11 => .ok (.addmR sz a R)
    | 0x14 => .ok (.subRm sz R a)
    | 0x15 => .ok (.submR sz a R)
    | _ => .error (.noSuchOperation op)

/-- The operation byte after a memory destination prefix: the `DST` rows of R93. -/
def decodeDst (a : RegCode) : List Byte → Except DecodeError Instr
  | [] => .error .truncated
  | op :: _ =>
    let R : RegCode := op.setWidth 3
    match op.toNat / 8 with
    | 0x08 => .ok (.ldmR .b8 a R)
    | 0x0A => .ok (.ldmR .w16 a R)
    | 0x0C => .ok (.ldmR .l32 a R)
    | _ => .error (.noSuchOperation op)

/-- A 32-bit address register named by a byte `cccccc..` whose low two bits say something else (R91). -/
def decodeBase (b : Byte) : Option LongReg := LongReg.ofCode (b &&& 0xFC#8)

/-- The two register codes of the register index modes (R91). -/
def decodeRegIndex (mk : LongReg → LongReg → MemMode) : List Byte → Except DecodeError Instr
  | c :: d :: _ =>
    match LongReg.ofCode c, LongReg.ofCode d with
    | some base, some disp => .error (.modeNotAdmitted (mk base disp) 4)
    | none, _ => .error (.noSuchRegister c)
    | some _, none => .error (.noSuchRegister d)
  | _ => .error .truncated

/-- The mode byte after `11zz0011` (R91). -/
def decodeModeByte : List Byte → Except DecodeError Instr
  | [] => .error .truncated
  | m :: bs =>
    match m.toNat with
    | 0x03 => decodeRegIndex .regIndex8 bs
    | 0x07 => decodeRegIndex .regIndex16 bs
    | 0x13 =>
      match bs with
      | b0 :: b1 :: _ => .error (.modeNotAdmitted (.rel16 (le16 b0 b1)) 4)
      | _ => .error .truncated
    | n =>
      match n % 4, decodeBase m with
      | 0, some r => .error (.modeNotAdmitted (.indirect (.long r)) 2)
      | 1, some r =>
        match bs with
        | b0 :: b1 :: _ => .error (.modeNotAdmitted (.index16 r (le16 b0 b1)) 4)
        | _ => .error .truncated
      | 0, none => .error (.noSuchRegister m)
      | 1, none => .error (.noSuchRegister m)
      | _, _ => .error (.noSuchMode m)

/-- The byte `ccccccss` of pre-decrement and post-increment (R91). -/
def decodeStep (mk : LongReg → StepSize → MemMode) : List Byte → Except DecodeError Instr
  | [] => .error .truncated
  | m :: _ =>
    match decodeBase m, m.toNat % 4 with
    | some r, 0 => .error (.modeNotAdmitted (mk r .one) 2)
    | some r, 1 => .error (.modeNotAdmitted (mk r .two) 2)
    | some r, 2 => .error (.modeNotAdmitted (mk r .four) 2)
    | some _, _ => .error (.noSuchMode m)
    | none, _ => .error (.noSuchRegister m)

/-- The memory modes no row admits, by their first byte `11zz0mmm` (R91): named, then refused. -/
def decodeRefusedMode (b : Byte) (bs : List Byte) : Except DecodeError Instr :=
  match b.toNat % 8 with
  | 0 =>
    match bs with
    | n :: _ => .error (.modeNotAdmitted (.abs8 n) 2)
    | [] => .error .truncated
  | 1 =>
    match bs with
    | b0 :: b1 :: _ => .error (.modeNotAdmitted (.abs16 (le16 b0 b1)) 3)
    | _ => .error .truncated
  | 2 =>
    match bs with
    | b0 :: b1 :: b2 :: _ => .error (.modeNotAdmitted (.abs24 (le24 b0 b1 b2)) 4)
    | _ => .error .truncated
  | 3 => decodeModeByte bs
  | 4 => decodeStep .preDec bs
  | 5 => decodeStep .postInc bs
  | _ => .error (.noSuchFirstByte b)

/-- The index mode `10zz1rrr d8`, which no row admits (R91). -/
def decodeIndex8 (a : RegCode) : List Byte → Except DecodeError Instr
  | d :: _ => .error (.modeNotAdmitted (.index8 a d) 2)
  | [] => .error .truncated

/-- The instruction that begins these bytes (R86, R93). Its length is `Instr.length`; bytes after it are not looked at. -/
def decode : List Byte → Except DecodeError Instr
  | [] => .error .truncated
  | b :: bs =>
    let R : RegCode := b.setWidth 3
    match b.toNat with
    | 0x02 => .ok .pushSr
    | 0x03 => .ok .popSr
    | 0x06 => decodeImm3 .ei bs
    | 0x07 => .ok .reti
    | 0x0C => .ok .incf
    | 0x0D => .ok .decf
    | 0x0E => .ok .ret
    | 0x14 => .ok .pushA
    | 0x15 => .ok .popA
    | 0x16 => .ok .exFF
    | 0x17 => decodeImm3 .ldf bs
    | 0x18 => .ok .pushF
    | 0x19 => .ok .popF
    | 0x1C => decodeImm16 .call16 bs
    | 0x1D =>
      match bs with
      | b0 :: b1 :: b2 :: _ => .ok (.call24 (le24 b0 b1 b2))
      | _ => .error .truncated
    | 0xC7 => decodeLong .b8 bs
    | 0xD7 => decodeLong .w16 bs
    | 0xE7 => decodeLong .l32 bs
    | 0xF7 => .error (.reservedSize b)
    | n =>
      match n / 8 with
      | 0x04 =>
        match bs with
        | n :: _ => .ok (.ldRn8 R n)
        | [] => .error .truncated
      | 0x05 => .ok (.pushShort .w16 R)
      | 0x06 => decodeImm16 (.ldRn16 R) bs
      | 0x07 => .ok (.pushShort .l32 R)
      | 0x08 => decodeImm32 (.ldRn32 R) bs
      | 0x09 => .ok (.popShort .w16 R)
      | 0x0B => .ok (.popShort .l32 R)
      | 0x10 => decodeSrc .b8 R bs
      | 0x12 => decodeSrc .w16 R bs
      | 0x14 => decodeSrc .l32 R bs
      | 0x16 => decodeDst R bs
      | 0x11 | 0x13 | 0x15 | 0x17 => decodeIndex8 R bs
      | 0x19 => decodeRegOp .b8 (.short R) bs
      | 0x1B => decodeRegOp .w16 (.short R) bs
      | 0x1D => decodeRegOp .l32 (.short R) bs
      | 0x1F => .error (.reservedSize b)
      | 0x18 | 0x1A | 0x1C | 0x1E => decodeRefusedMode b bs
      | _ => .error (.noSuchFirstByte b)

/-! ## Encoder -/

/-- A byte whose high five bits are `hi` and whose low three are a register code or 3-bit constant. -/
def opByte (hi : BitVec 5) (R : BitVec 3) : Byte := hi ++ R

/-- The register prefix (R89): `11zz1rrr`, or `11zz0111` and a register code. -/
def encodePrefix (sz : Size) : RegOp → List Byte
  | .short r => [3#2 ++ sz.zz ++ 1#1 ++ r]
  | .long c => [3#2 ++ sz.zz ++ 7#4, c.code]

/-- A constant, least significant byte first (R92). -/
def encodeImm : Imm → List Byte
  | .n8 n => [n]
  | .n16 n => [byteOf 0 n, byteOf 1 n]
  | .n32 n => [byteOf 0 n, byteOf 1 n, byteOf 2 n, byteOf 3 n]

/-- The memory source prefix `10zz0rrr` (R91). -/
def encodeSrc (sz : Size) (a : RegCode) : Byte := 2#2 ++ sz.zz ++ 0#1 ++ a

/-- The memory destination prefix `10110rrr` (R91). -/
def encodeDst (a : RegCode) : Byte := opByte 0x16#5 a

/-- The bytes of an instruction, in memory order (R93). -/
def encode : Instr → List Byte
  | .pushSr => [0x02#8]
  | .popSr => [0x03#8]
  | .reti => [0x07#8]
  | .incf => [0x0C#8]
  | .decf => [0x0D#8]
  | .ret => [0x0E#8]
  | .pushA => [0x14#8]
  | .popA => [0x15#8]
  | .exFF => [0x16#8]
  | .pushF => [0x18#8]
  | .popF => [0x19#8]
  | .ei n => [0x06#8, opByte 0#5 n]
  | .ldf n => [0x17#8, opByte 0#5 n]
  | .call16 n => [0x1C#8, byteOf 0 n, byteOf 1 n]
  | .call24 n => [0x1D#8, byteOf 0 n, byteOf 1 n, byteOf 2 n]
  | .ldRn8 R n => opByte 0x04#5 R :: encodeImm (.n8 n)
  | .ldRn16 R n => opByte 0x06#5 R :: encodeImm (.n16 n)
  | .ldRn32 R n => opByte 0x08#5 R :: encodeImm (.n32 n)
  | .pushShort sz R => [opByte (if sz = .l32 then 0x07#5 else 0x05#5) R]
  | .popShort sz R => [opByte (if sz = .l32 then 0x0B#5 else 0x09#5) R]
  | .ldrn r n => encodePrefix n.size r ++ 0x03#8 :: encodeImm n
  | .pushReg sz r => encodePrefix sz r ++ [0x04#8]
  | .popReg sz r => encodePrefix sz r ++ [0x05#8]
  | .daa r => encodePrefix .b8 r ++ [0x10#8]
  | .ldcCrR sz r cr => encodePrefix sz r ++ [0x2E#8, cr]
  | .ldcRCr sz r cr => encodePrefix sz r ++ [0x2F#8, cr]
  | .addRr sz R r => encodePrefix sz r ++ [opByte 0x10#5 R]
  | .ldRr sz R r => encodePrefix sz r ++ [opByte 0x11#5 R]
  | .ldrR sz r R => encodePrefix sz r ++ [opByte 0x13#5 R]
  | .subRr sz R r => encodePrefix sz r ++ [opByte 0x14#5 R]
  | .ldr3 sz r k => encodePrefix sz r ++ [opByte 0x15#5 k]
  | .exRr sz R r => encodePrefix sz r ++ [opByte 0x17#5 R]
  | .addrn r n => encodePrefix n.size r ++ 0xC8#8 :: encodeImm n
  | .subrn r n => encodePrefix n.size r ++ 0xCA#8 :: encodeImm n
  | .ldRm sz R a => [encodeSrc sz a, opByte 0x04#5 R]
  | .addRm sz R a => [encodeSrc sz a, opByte 0x10#5 R]
  | .addmR sz a R => [encodeSrc sz a, opByte 0x11#5 R]
  | .subRm sz R a => [encodeSrc sz a, opByte 0x14#5 R]
  | .submR sz a R => [encodeSrc sz a, opByte 0x15#5 R]
  | .ldmR .b8 a R => [encodeDst a, opByte 0x08#5 R]
  | .ldmR .w16 a R => [encodeDst a, opByte 0x0A#5 R]
  | .ldmR .l32 a R => [encodeDst a, opByte 0x0C#5 R]

/-! ## Words of the opcode table -/

/-- The longest instruction (R86). -/
abbrev maxLength : Nat := 7

/-- Byte `k` of a number, byte 0 the least significant. -/
def natByte (w k : Nat) : Byte := BitVec.ofNat 8 (w / 256 ^ k)

/-- The `n` bytes of `w`, byte 0 at the front. -/
def bytesUp (n w : Nat) : List Byte := (List.range n).map (natByte w)

/-- `bs` is exactly one instruction. -/
def exactlyOne (bs : List Byte) : Bool :=
  match decode bs with
  | .ok i => i.length == bs.length
  | .error _ => false

/-- The bytes, in memory order, of a table word of `nbits` bits (log 28). The table's `fixed` and `fields` read a row's
bytes as one number with the FIRST byte the most significant (98_reader.md), so that order is tried first; a number that
is an instruction only with the first byte the least significant is read so. -/
def tableBytes (nbits w : Nat) : List Byte :=
  let up := bytesUp (nbits / 8) w
  if exactlyOne up.reverse then up.reverse else if exactlyOne up then up else up.reverse

/-- The same, with bytes of zeros up to the longest instruction. -/
def tableWindow (nbits w : Nat) : List Byte := tableBytes nbits w ++ List.replicate (maxLength - nbits / 8) 0#8

/-- The instruction the decoder reads from a word of the opcode table. -/
def decodeTableWord (nbits w : Nat) : Option Instr :=
  match decode (tableWindow nbits w) with
  | .ok i => some i
  | .error _ => none

end Sys2Proof
end

