-- ==== Sys2Proof/Machine/Product.lean ====
section
/-! DEFINITION. What follows from the product's parameters (00_scope.md R8 to R10): addresses, the memory map, the control
registers; and the product State.reset has. -/

namespace Sys2Proof

/-! ## Addresses -/

/-- A 32-bit value used as an address is cut to its low ADDR_BITS bits: `EA mod 2^ADDR_BITS` (20_memory.md R61). -/
def cut (bits : Nat) (ea : Word) : Addr := ea.toNat % 2 ^ bits

/-- ADDR_BITS is a number of pins the model is meant for (log 6): no more than the 32 bits an address is computed in, and
enough that the six bytes of an interrupt frame are six addresses. -/
abbrev Product.legal (p : Product) : Prop := 3 ≤ p.addrBits ∧ p.addrBits ≤ 32

/-! ## The memory map -/

/-- The region covers the address. -/
def Region.holds (r : Region) (a : Addr) : Bool := r.base ≤ a && a < r.base + r.size

/-- What stands at an address: the first region that holds it (R66). -/
def Product.kindAt (p : Product) (a : Addr) : Option RegionKind :=
  (p.memMap.find? (fun r => r.holds a)).map Region.kind

/-! ## Control registers -/

/-- The product has this control register at this width: a micro DMA register of one of its channels (R10), or the
nesting counter at 16 bits, the width 60_exceptions.md R167 counts in. -/
def CtrlReg.existsIn (p : Product) (sz : Size) : CtrlReg → Bool
  | .dmas ch | .dmad ch | .dmac ch | .dmam ch => ch < p.channels
  | .intnest => sz = .w16

/-- The control register LDC reaches with this number at this size, if there is one: the one CR_MAP names, at its own
width (10_state.md R52, 92 D26, 43_load.md R142). -/
def Product.ctrlReg (p : Product) (sz : Size) (n : Byte) : Option CtrlReg :=
  match p.crMap.find? (fun e => e.number = n) with
  | some e => if e.size = sz && e.reg.existsIn p sz then some e.reg else none
  | none => none

/-! ## The product of State.reset -/

/-- CR_MAP by default, the table of 10_state.md R52 (PRESUMED, G8, log 12). -/
def Config.crMap : List CrEntry :=
  [⟨0x00#8, .dmas 0, .l32⟩, ⟨0x04#8, .dmas 1, .l32⟩, ⟨0x08#8, .dmas 2, .l32⟩, ⟨0x0C#8, .dmas 3, .l32⟩,
   ⟨0x10#8, .dmad 0, .l32⟩, ⟨0x14#8, .dmad 1, .l32⟩, ⟨0x18#8, .dmad 2, .l32⟩, ⟨0x1C#8, .dmad 3, .l32⟩,
   ⟨0x20#8, .dmac 0, .w16⟩, ⟨0x24#8, .dmac 1, .w16⟩, ⟨0x28#8, .dmac 2, .w16⟩, ⟨0x2C#8, .dmac 3, .w16⟩,
   ⟨0x22#8, .dmam 0, .b8⟩, ⟨0x26#8, .dmam 1, .b8⟩, ⟨0x2A#8, .dmam 2, .b8⟩, ⟨0x2E#8, .dmam 3, .b8⟩,
   ⟨0x3C#8, .intnest, .w16⟩]

/-- The product `State.reset` has: 24 address pins (the case R8 works and takes as the default, log 6), all of the space
RAM (DESIGN CHOICE, log 4), the vector table at FFFF00H (PRESUMED, G7, log 3), four micro DMA channels and the CR_MAP of
R52 (PRESUMED, G8, log 12), the candidate of G22 as DAA_FN (PRESUMED, log 11), no END_PC (92 D21 gives no default). -/
def Config.product : Product where
  addrBits := 24
  memMap := [⟨0, 2 ^ 24, .ram⟩]
  vectorBase := 0x00FFFF00#32
  channels := 4
  crMap := Config.crMap
  daaRows := []
  endPc := none

end Sys2Proof
end

