-- ==== Sys2Proof/Machine/Memory.lean ====
section
/-! DEFINITION. Memory as plain data: a sorted list of the bytes that differ from the blank byte (20_memory.md R60). -/

namespace Sys2Proof.Machine

/-- The listed bytes, addresses rising; an unlisted address reads as `Config.blank` (log 2). -/
abbrev Memory := List Host.Cell

/-- The canonical form: addresses strictly rising, no entry equal to the blank byte. -/
abbrev Memory.wf (m : Memory) : Prop := m.Pairwise (fun c d => c.1 < d.1) ∧ ∀ c ∈ m, c.2 ≠ Config.blank

/-- Every listed address lies inside a space of `bits` address bits (R60, R66). -/
abbrev Memory.inside (bits : Nat) (m : Memory) : Prop := ∀ c ∈ m, c.1 < 2 ^ bits

/-- One byte. -/
def Memory.read : Memory → Nat → Byte
  | [], _ => Config.blank
  | c :: m, a => if a = c.1 then c.2 else Memory.read m a

/-- One byte written, keeping the canonical form: writing the blank byte removes the entry. -/
def Memory.write : Memory → Nat → Byte → Memory
  | [], a, b => if b = Config.blank then [] else [(a, b)]
  | c :: m, a, b =>
    if a < c.1 then (if b = Config.blank then c :: m else (a, b) :: c :: m)
    else if a = c.1 then (if b = Config.blank then m else (a, b) :: m)
    else c :: Memory.write m a b

/-- The `n` bytes from `ea` upward as one number, least significant byte first, each address cut to `bits` bits
(20_memory.md R61 to R63; PRESUMED little-endian and unaligned, log 14, log 15). -/
def Memory.load (m : Memory) (bits : Nat) : Nat → Word → Nat
  | 0, _ => 0
  | n + 1, ea => (m.read (cut bits ea)).toNat + 256 * m.load bits n (ea + 1#32)

/-- The low `n` bytes of `v` written from `ea` upward, least significant first (R62), in ascending order (R65). -/
def Memory.store (m : Memory) (bits : Nat) : Nat → Word → Nat → Memory
  | 0, _, _ => m
  | n + 1, ea, v => (m.write (cut bits ea) (BitVec.ofNat 8 v)).store bits n (ea + 1#32) (v / 256)

/-- A list of bytes written from `ea` upward. -/
def Memory.place (m : Memory) (bits : Nat) : Word → List Byte → Memory
  | _, [] => m
  | ea, b :: bs => (m.write (cut bits ea) b).place bits (ea + 1#32) bs

/-- A set of addresses as a list, strictly rising. -/
abbrev AddrSet := List Nat

abbrev AddrSet.wf (l : AddrSet) : Prop := l.Pairwise (· < ·)

def AddrSet.insert : AddrSet → Nat → AddrSet
  | [], a => [a]
  | x :: l, a => if a < x then a :: x :: l else if a = x then x :: l else x :: AddrSet.insert l a

/-- The addresses of the `n` bytes from `ea` upward put into the set. -/
def AddrSet.insertRange (l : AddrSet) (bits : Nat) : Nat → Word → AddrSet
  | 0, _ => l
  | n + 1, ea => (l.insert (cut bits ea)).insertRange bits n (ea + 1#32)

/-- The addresses of the `n` bytes from `ea` upward taken out of the set. -/
def AddrSet.eraseRange (l : AddrSet) (bits : Nat) : Nat → Word → AddrSet
  | 0, _ => l
  | n + 1, ea => AddrSet.eraseRange (l.filter (· ≠ cut bits ea)) bits n (ea + 1#32)

/-- The address a slot of the vector table holds: 24 bits, least significant byte first, in the slot's first three
bytes (20_memory.md R67, 70_reset_and_hazards.md R191). -/
def Memory.vector (m : Memory) (bits : Nat) (slot : Word) : Word := BitVec.ofNat 32 (m.load bits 3 slot)

end Sys2Proof.Machine
end

