-- ==== Sys2Proof/Machine/State.lean ====
section
/-! DEFINITION. All the state the spec gives the machine (00_scope.md R5, 10_state.md, 20_memory.md), the reasons a step
stops, and the state after reset. Plain data. -/

namespace Sys2Proof.Machine

/-- Why the machine stops with a fault. Each is SAFE: the model stops where the chip may go on. -/
inductive Fault where
  /-- RETI or POP SR would load 0 into SR.MAX (10_state.md R37, 92 D11). Raised by `loadSr`. -/
  | maxCleared
  /-- An access to an address the memory map does not hold (20_memory.md R66, 92 D4). Raised by `access`. -/
  | unmapped (a : Addr)
  /-- A store to an address the memory map marks ROM (log 7). Raised by `access`. -/
  | romStore (a : Addr)
deriving DecidableEq, Repr

/-- Why the model gives no meaning. Each is SAFE: nothing can be proved of a step that is refused. -/
inductive Refusal where
  /-- An instruction without a meaning, raised by `exec` alone. -/
  | notModelled (mnemonic : String)
  /-- The bytes at this address are no row of the opcode table (30_encoding.md R95). Raised by `fetch`. -/
  | undecodable (a : Addr) (why : DecodeError)
  /-- An access to built-in I/O, whose behaviour no source gives (20_memory.md R65, 92 D4). Raised by `access`. -/
  | ioAccess (a : Addr)
  /-- An instruction byte at this address was stored by the program (20_memory.md R70, 92 D6). Raised by `fetch`. -/
  | storedText (a : Addr)
  /-- A term of Instr that is no instruction: an operand size it does not have (30_encoding.md R95). Raised by the
  meanings of PUSH R, POP R and EX R,r; no decoded instruction is one. -/
  | sizeNotAdmitted (sz : Size)
  /-- LDC with a number that is not in CR_MAP at this width, or names a micro DMA channel the product does not have
  (30_encoding.md R95, 43_load.md R142). Raised by the meanings of LDC. -/
  | noSuchControlRegister (number : Byte) (sz : Size)
deriving DecidableEq, Repr

/-- Four like things, numbered 0 to 3. -/
structure Quad (α : Type) where
  c0 : α
  c1 : α
  c2 : α
  c3 : α
deriving DecidableEq, Repr

/-- One register bank (10_state.md R20). -/
structure Bank where
  xwa : Word
  xbc : Word
  xde : Word
  xhl : Word
deriving DecidableEq, Repr

/-- The control registers of one micro DMA channel (10_state.md R52). CR_MAP gives each its width: a register narrower
than 32 bits is held zero-extended, and LDC moves only its width. -/
structure DmaChannel where
  dmas : Word
  dmad : Word
  dmac : Word
  dmam : Word
deriving DecidableEq, Repr

/-- The control registers (10_state.md R51, R52): one entry of `dma` for each micro DMA channel of the product. -/
structure CtrlRegs where
  dma : List DmaChannel
  intnest : Half
deriving DecidableEq, Repr

/-- An interrupt level (60_exceptions.md R161). -/
inductive Level where
  | l1
  | l2
  | l3
  | l4
  | l5
  | l6
  | l7
deriving DecidableEq, Repr

/-- A pending request (60_exceptions.md R162): its level and its vector value, `V = 4 * slot` in 0..FCH (92 D22). -/
structure Request where
  level : Level
  slot : BitVec 6
deriving DecidableEq, Repr

/-- What the environment does at one instruction boundary (60_exceptions.md R162, 70_reset_and_hazards.md R190, 92 D27):
it presents a set of pending requests, those of one level in the order it would have them taken (R166), or resets. -/
inductive EnvEvent where
  | present (requests : List Request)
  | reset
deriving DecidableEq, Repr

structure State where
  /-- The register banks (R20). -/
  banks : Quad Bank
  xix : Word
  xiy : Word
  xiz : Word
  /-- The stack pointer (R27). -/
  xsp : Word
  /-- The program counter (R48). -/
  pc : Word
  /-- The status register: SYSM, IFF, MAX, RFP, F (R33, R34, R39). -/
  sr : Half
  /-- F', the second flag register (R46). -/
  fAlt : Byte
  cr : CtrlRegs
  mem : Memory
  /-- The model's own: the addresses that stores have touched (R70, log 9). -/
  stored : AddrSet
  /-- The model's own: how many undefined bits have been drawn (log 10). -/
  draws : Nat
  /-- What the environment will do, one event at each instruction boundary; none left, it does nothing (log 18). -/
  env : List EnvEvent
  /-- The parameters of the product (log 5). -/
  product : Product
deriving DecidableEq, Repr

def Quad.all {α : Type} (a : α) : Quad α := ⟨a, a, a, a⟩

def DmaChannel.zero : DmaChannel := ⟨0#32, 0#32, 0#32, 0#32⟩

/-- The control registers of a product with `channels` micro DMA channels, as R57 leaves them (DESIGN CHOICE, log 1). -/
def CtrlRegs.reset (channels : Nat) : CtrlRegs := ⟨List.replicate channels .zero, 0#16⟩

/-- Reset (10_state.md R56, 70_reset_and_hazards.md R190 to R192): XSP = 100H, MAX = 1, IFF = 111, RFP = 000, SYSM reads
1, PC from the reset vector. Every register R57 gives no value is 0 (DESIGN CHOICE, log 1). -/
def State.reset : State where
  banks := Quad.all ⟨0#32, 0#32, 0#32, 0#32⟩
  xix := 0#32
  xiy := 0#32
  xiz := 0#32
  xsp := 0x00000100#32
  pc := Memory.vector [] Config.product.addrBits Config.product.vectorBase
  sr := 0xF800#16
  fAlt := 0#8
  cr := CtrlRegs.reset Config.product.channels
  mem := []
  stored := []
  draws := 0
  env := []
  product := Config.product

end Sys2Proof.Machine
end

