-- ==== Sys2Proof/Machine/Ops.lean ====
section
/-! DEFINITION. The operations every meaning is built from: registers, the status register, memory, the stack, taking an
interrupt and returning from it, reset as an action. -/

namespace Sys2Proof.Machine

/-- The outcome of a part of a step: a value, or the reason the step stops. -/
abbrev Res (α : Type) := Host.Outcome α Fault Refusal

/-- Go on with the value, or stop for the same reason. -/
def Res.andThen {α β : Type} : Res α → (α → Res β) → Res β
  | .next a, f => f a
  | .fault r, _ => .fault r
  | .refused r, _ => .refused r

/-! ## General-purpose registers (10_state.md R20 to R31) -/

def Quad.get {α : Type} (q : Quad α) (i : BitVec 2) : α :=
  match i.toNat with
  | 0 => q.c0
  | 1 => q.c1
  | 2 => q.c2
  | _ => q.c3

def Quad.set {α : Type} (q : Quad α) (i : BitVec 2) (a : α) : Quad α :=
  match i.toNat with
  | 0 => { q with c0 := a }
  | 1 => { q with c1 := a }
  | 2 => { q with c2 := a }
  | _ => { q with c3 := a }

/-- The four registers of a bank. -/
inductive BankReg where
  | xwa
  | xbc
  | xde
  | xhl
deriving DecidableEq, Repr

/-- The one home of each 32-bit general-purpose register (R20, R24): the current, previous and absolute names of R28 are
names of the same banked registers. -/
inductive Home where
  | banked (bank : BitVec 2) (r : BankReg)
  | xix
  | xiy
  | xiz
  | xsp
deriving DecidableEq, Repr

def Bank.get (b : Bank) : BankReg → Word
  | .xwa => b.xwa
  | .xbc => b.xbc
  | .xde => b.xde
  | .xhl => b.xhl

def Bank.set (b : Bank) (r : BankReg) (v : Word) : Bank :=
  match r with
  | .xwa => { b with xwa := v }
  | .xbc => { b with xbc := v }
  | .xde => { b with xde := v }
  | .xhl => { b with xhl := v }

def State.getReg (s : State) : Home → Word
  | .banked bank r => (s.banks.get bank).get r
  | .xix => s.xix
  | .xiy => s.xiy
  | .xiz => s.xiz
  | .xsp => s.xsp

def State.setReg (s : State) (h : Home) (v : Word) : State :=
  match h with
  | .banked bank r => { s with banks := s.banks.set bank ((s.banks.get bank).set r v) }
  | .xix => { s with xix := v }
  | .xiy => { s with xiy := v }
  | .xiz => { s with xiz := v }
  | .xsp => { s with xsp := v }

/-- A named part of a register: `size` bytes of it from byte `lane` upward (R21 to R25). -/
structure Part where
  home : Home
  lane : BitVec 2
  size : Size
deriving DecidableEq, Repr

/-- `x[r]`: the part, zero-extended (00_scope.md section 6.2). -/
def State.readPart (s : State) (p : Part) : Word :=
  (s.getReg p.home >>> (8 * p.lane.toNat)) &&& p.size.mask

/-- A word with the part replaced and every bit outside it as it was. -/
def Part.put (p : Part) (old v : Word) : Word :=
  (old &&& ~~~(p.size.mask <<< (8 * p.lane.toNat))) ||| ((v &&& p.size.mask) <<< (8 * p.lane.toNat))

/-- `x[r] <- v`: every bit outside the part stays (10_state.md R21). -/
def State.writePart (s : State) (p : Part) (v : Word) : State :=
  s.setReg p.home (p.put (s.getReg p.home) v)

/-! ## Status register (10_state.md R33 to R39) -/

/-- F, the lower byte of SR (R33). -/
def State.f (s : State) : Byte := s.sr.setWidth 8

/-- IFF2 to IFF0, bits 14 to 12 (R34, R36). -/
def State.iff (s : State) : BitVec 3 := s.sr.extractLsb' 12 3

/-- RFP2 to RFP0, bits 10 to 8 (R34, R38). -/
def State.rfp (s : State) : BitVec 3 := s.sr.extractLsb' 8 3

/-- The current bank, RFP[1:0] (R29). -/
def State.curBank (s : State) : BitVec 2 := s.sr.extractLsb' 8 2

/-- The previous bank, RFP - 1 mod 4 (R30; DEDUCED for bank 0, log 26). -/
def State.prevBank (s : State) : BitVec 2 := s.curBank - 1#2

/-- SR as an instruction that pushes it sees it: SYSM reads 1 (R35, 92 D10). -/
def State.srImage (s : State) : Half := s.sr ||| 0x8000#16

def State.setF (s : State) (f : Byte) : State :=
  { s with sr := (s.sr &&& 0xFF00#16) ||| f.setWidth 16 }

def State.setIff (s : State) (level : BitVec 3) : State :=
  { s with sr := (s.sr &&& 0x8FFF#16) ||| (level.setWidth 16 <<< 12) }

/-- RFP[1:0] written, RFP2 kept at 0 (R38). -/
def State.setBank (s : State) (bank : BitVec 2) : State :=
  { s with sr := (s.sr &&& 0xF8FF#16) ||| (bank.setWidth 16 <<< 8) }

/-- What SR holds after an image is written to it whole (41_interrupt_control.md R111): IFF, RFP[1:0] and F are taken,
SYSM and MAX are 1, RFP2 is 0. -/
def srLoaded (image : Half) : Half := (image &&& 0x73FF#16) ||| 0x8800#16

/-- A write of the whole SR (R111, 43_load.md R145): an image with MAX = 0 faults (10_state.md R37; log 17). -/
def loadSr (image : Half) (s : State) : Res State :=
  if image.getLsbD 11 then .next { s with sr := srLoaded image } else .fault .maxCleared

/-! ## Control registers (10_state.md R51 to R53) -/

/-- The registers of a micro DMA channel. -/
def State.dmaChannel (s : State) (ch : Nat) : DmaChannel := s.cr.dma[ch]?.getD .zero

def State.getCr (s : State) : CtrlReg → Word
  | .dmas ch => (s.dmaChannel ch).dmas
  | .dmad ch => (s.dmaChannel ch).dmad
  | .dmac ch => (s.dmaChannel ch).dmac
  | .dmam ch => (s.dmaChannel ch).dmam
  | .intnest => s.cr.intnest.setWidth 32

/-- One register of one micro DMA channel written. -/
def State.setDma (s : State) (ch : Nat) (f : DmaChannel → DmaChannel) : State :=
  { s with cr := { s.cr with dma := s.cr.dma.modify ch f } }

/-- Writing a micro DMA parameter has no further effect (43_load.md R142). -/
def State.setCr (s : State) (c : CtrlReg) (v : Word) : State :=
  match c with
  | .dmas ch => s.setDma ch fun d => { d with dmas := v }
  | .dmad ch => s.setDma ch fun d => { d with dmad := v }
  | .dmac ch => s.setDma ch fun d => { d with dmac := v }
  | .dmam ch => s.setDma ch fun d => { d with dmam := v }
  | .intnest => { s with cr := { s.cr with intnest := v.setWidth 16 } }

def State.setIntnest (s : State) (v : Half) : State := { s with cr := { s.cr with intnest := v } }

/-! ## Memory (20_memory.md) -/

/-- Why an address is touched. -/
inductive Access where
  | fetch
  | read
  | store
deriving DecidableEq, Repr

/-- Whether an address can be touched: an unmapped one and a store to ROM fault, I/O is refused (R65, R66, 92 D4). -/
def access (k : Access) (a : Addr) (s : State) : Res Unit :=
  match s.product.kindAt a with
  | none => .fault (.unmapped a)
  | some .io => .refused (.ioAccess a)
  | some .rom => if k = .store then .fault (.romStore a) else .next ()
  | some .ram => .next ()

/-- The address a 32-bit value names on this product (R61). -/
def State.addr (s : State) (ea : Word) : Addr := cut s.product.addrBits ea

/-- The same for the `n` bytes from `ea` upward, in ascending order (R65), each address cut by itself (R63). -/
def accessRange (k : Access) : Nat → Word → State → Res Unit
  | 0, _, _ => .next ()
  | n + 1, ea, s => (access k (s.addr ea) s).andThen fun _ => accessRange k n (ea + 1#32) s

/-- MemRead(ea, n) (00_scope.md section 6.3; R61 to R64). -/
def memRead (sz : Size) (ea : Word) (s : State) : Res Word :=
  (accessRange .read sz.bytes ea s).andThen fun _ =>
    .next (BitVec.ofNat 32 (s.mem.load s.product.addrBits sz.bytes ea))

/-- The bytes of a value put into memory and recorded as stored. -/
def State.storeBytes (s : State) (n : Nat) (ea : Word) (v : Word) : State :=
  { s with
    mem := s.mem.store s.product.addrBits n ea v.toNat
    stored := s.stored.insertRange s.product.addrBits n ea }

/-- MemWrite(ea, n, v) (00_scope.md section 6.3; R61 to R64). -/
def memWrite (sz : Size) (ea : Word) (v : Word) (s : State) : Res State :=
  (accessRange .store sz.bytes ea s).andThen fun _ => .next (s.storeBytes sz.bytes ea v)

/-! ## Stack (43_load.md R146) -/

/-- Push(n, v): XSP <- XSP - n; MemWrite(XSP, n, v). -/
def push (sz : Size) (v : Word) (s : State) : Res State :=
  let s' := { s with xsp := s.xsp - BitVec.ofNat 32 sz.bytes }
  memWrite sz s'.xsp v s'

/-- Pop(n): v <- MemRead(XSP, n); XSP <- XSP + n. -/
def pop (sz : Size) (s : State) : Res (Word × State) :=
  (memRead sz s.xsp s).andThen fun v => .next (v, { s with xsp := s.xsp + BitVec.ofNat 32 sz.bytes })

/-! ## Program counter (10_state.md R48, R49) -/

/-- PC <- PC + len, a 32-bit value mod 2^32 (92 D3). -/
def State.advance (s : State) (len : Nat) : State := { s with pc := s.pc + BitVec.ofNat 32 len }

/-! ## Interrupts (60_exceptions.md R161 to R169) -/

/-- The level as a number, 1 to 7. -/
def Level.number : Level → Nat
  | .l1 => 1
  | .l2 => 2
  | .l3 => 3
  | .l4 => 4
  | .l5 => 5
  | .l6 => 6
  | .l7 => 7

/-- A request of level L is let in when L >= IFF, and a request of level 7 always (R164; PRESUMED, log 19). -/
def State.letsIn (s : State) (r : Request) : Bool :=
  s.iff.toNat ≤ r.level.number || r.level = .l7

/-- The request taken: of those let in, one of the highest level, the first of its level (R166). -/
def State.accepted (s : State) : List Request → Option Request
  | [] => none
  | r :: rs =>
    match s.accepted rs with
    | none => if s.letsIn r then some r else none
    | some best => if s.letsIn r && best.level.number ≤ r.level.number then some r else some best

/-- The mask after entry: L + 1, and 7 for level 7 (R168). -/
def Level.maskAfter : Level → BitVec 3
  | .l1 => 2#3
  | .l2 => 3#3
  | .l3 => 4#3
  | .l4 => 5#3
  | .l5 => 6#3
  | .l6 => 7#3
  | .l7 => 7#3

/-- The vector slot of a request, VECTOR_BASE + V with V = 4 * slot (R67, R167). -/
def State.vectorSlot (s : State) (r : Request) : Word :=
  s.product.vectorBase + (r.slot.setWidth 32 <<< 2)

/-- Interrupt entry, in the order of R167: push PC (4 bytes), push SR (2 bytes), raise IFF, count INTNEST up, PC from the
first three bytes of the vector slot (PRESUMED, log 19). -/
def takeInterrupt (r : Request) (s : State) : Res State :=
  (push .l32 s.pc s).andThen fun s1 =>
  (push .w16 (s1.srImage.setWidth 32) s1).andThen fun s2 =>
  let s3 := (s2.setIff r.level.maskAfter).setIntnest (s2.cr.intnest + 1#16)
  (memRead .l32 (s3.vectorSlot r) s3).andThen fun v =>
  .next { s3 with pc := v &&& 0x00FFFFFF#32 }

/-- Return from an interrupt, in the order of 41_interrupt_control.md R111: pop SR (2 bytes) and PC (4 bytes), load SR,
count INTNEST down (PRESUMED, log 19). -/
def returnFromInterrupt (s : State) : Res State :=
  (memRead .w16 s.xsp s).andThen fun image =>
  (memRead .l32 (s.xsp + 2#32) s).andThen fun pcv =>
  (loadSr (image.setWidth 16) { s with xsp := s.xsp + 6#32 }).andThen fun s1 =>
  .next { s1.setIntnest (s1.cr.intnest - 1#16) with pc := pcv }

/-! ## Reset as an action of the environment (70_reset_and_hazards.md R190, R191) -/

/-- Reset of a running machine: PC from the reset vector, the slot at VECTOR_BASE; XSP, MAX, IFF, RFP as R56 says; the
registers R57 gives no value as `State.reset` has them (DESIGN CHOICE, log 22); memory and the product stay. -/
def resetAction (s : State) : Res State :=
  (accessRange .read 3 s.product.vectorBase s).andThen fun _ =>
  .next { State.reset with
    pc := s.mem.vector s.product.addrBits s.product.vectorBase, cr := CtrlRegs.reset s.product.channels,
    mem := s.mem, stored := s.stored, draws := s.draws, env := s.env, product := s.product }

end Sys2Proof.Machine
end

