-- ==== Sys2Proof/Machine/Operands.lean ====
section
/-! DEFINITION. Operands: what a register code names (30_encoding.md R88 to R90) and what a memory operand addresses
(R85). -/

namespace Sys2Proof

/-- The byte of the register an 8-bit code starts at (R90): bit 0 ignored at 16 bits, bits 1 and 0 at 32 bits. -/
def LongReg.laneAt (c : LongReg) : Size → BitVec 2
  | .b8 => c.lane
  | .w16 => c.lane &&& 2#2
  | .l32 => 0#2

/-- The step in bytes (R91). -/
def StepSize.amount : StepSize → Word
  | .one => 1#32
  | .two => 2#32
  | .four => 4#32

end Sys2Proof

namespace Sys2Proof.Machine

/-- The registers of a bank in the order of R90. -/
def BankReg.ofCode (k : BitVec 2) : BankReg :=
  match k.toNat with
  | 0 => .xwa
  | 1 => .xbc
  | 2 => .xde
  | _ => .xhl

/-- The registers outside the banks in the order of R90. -/
def Home.outsideOfCode (k : BitVec 2) : Home :=
  match k.toNat with
  | 0 => .xix
  | 1 => .xiy
  | 2 => .xiz
  | _ => .xsp

/-- A 3-bit code as a 32-bit register of the current view (R88): XWA XBC XDE XHL XIX XIY XIZ XSP. -/
def State.codeHome (s : State) (R : RegCode) : Home :=
  if R.getLsbD 2 then Home.outsideOfCode (R.extractLsb' 0 2)
  else .banked s.curBank (BankReg.ofCode (R.extractLsb' 0 2))

/-- A 3-bit code at a size (R88). At 8 bits: W A B C D E H L, the first of each pair the upper byte (10_state.md R22).
At 16 bits: the lower halves (R21, R25). -/
def State.codePart (s : State) (sz : Size) (R : RegCode) : Part :=
  match sz with
  | .b8 => ⟨.banked s.curBank (BankReg.ofCode (R.extractLsb' 1 2)), if R.getLsbD 0 then 0#2 else 1#2, .b8⟩
  | .w16 => ⟨s.codeHome R, 0#2, .w16⟩
  | .l32 => ⟨s.codeHome R, 0#2, .l32⟩

/-- An 8-bit code as a 32-bit register (R90). -/
def State.longHome (s : State) (c : LongReg) : Home :=
  match c.file with
  | .abs bank => .banked bank (BankReg.ofCode c.reg)
  | .prev => .banked s.prevBank (BankReg.ofCode c.reg)
  | .cur => .banked s.curBank (BankReg.ofCode c.reg)
  | .outside => Home.outsideOfCode c.reg

/-- The operand of a register prefix at a size (R89). -/
def State.opPart (s : State) (sz : Size) : RegOp → Part
  | .short r => s.codePart sz r
  | .long c => ⟨s.longHome c, c.laneAt sz, sz⟩

/-- `A` of the current bank. -/
def State.partA (s : State) : Part := s.codePart .b8 1#3

/-- The register that holds an address: 32 bits (R84). -/
def State.readBase (s : State) (base : RegOp) : Word := s.readPart (s.opPart .l32 base)

end Sys2Proof.Machine

namespace Sys2Proof

open Machine

/-- A memory operand that changes its base register (R85 modes 4 and 5): (-reg) before the access, (reg+) after it. -/
def MemMode.stepBase (m : MemMode) (s : State) : State :=
  match m with
  | .preDec base k =>
    let p := s.opPart .l32 (.long base)
    s.writePart p (s.readPart p - k.amount)
  | .postInc base k =>
    let p := s.opPart .l32 (.long base)
    s.writePart p (s.readPart p + k.amount)
  | _ => s

/-- The effective address (R85); `next` is the address of the following instruction. Displacements are sign-extended,
absolute addresses zero-extended. Only `indirect` is the operand of an instruction of the opcode table. -/
def MemMode.ea (m : MemMode) (next : Word) (s : State) : Word :=
  match m with
  | .indirect base => s.readBase base
  | .preDec base k => s.readBase (.long base) - k.amount
  | .postInc base _ => s.readBase (.long base)
  | .index8 base d => s.readBase (.short base) + d.signExtend 32
  | .index16 base d => s.readBase (.long base) + d.signExtend 32
  | .regIndex8 base disp =>
    s.readBase (.long base) + ((s.readPart (s.opPart .b8 (.long disp))).setWidth 8).signExtend 32
  | .regIndex16 base disp =>
    s.readBase (.long base) + ((s.readPart (s.opPart .w16 (.long disp))).setWidth 16).signExtend 32
  | .abs8 n => n.setWidth 32
  | .abs16 n => n.setWidth 32
  | .abs24 n => n.setWidth 32
  | .rel8 d => next + d.signExtend 32
  | .rel16 d => next + d.signExtend 32

end Sys2Proof

namespace Sys2Proof.Machine

/-- The address in a memory operand `(reg)` (R85 mode 3). -/
def State.indirect (s : State) (a : RegCode) : Word := (MemMode.indirect (.short a)).ea s.pc s

end Sys2Proof.Machine
end

