-- ==== Sys2Proof/Machine/Flags.lean ====
section
/-! DEFINITION. Arithmetic and the flag laws (10_state.md R39 to R45, 42_arithmetic.md R120 to R122, R126). -/

namespace Sys2Proof.Machine

/-- The six flags (10_state.md R39). -/
structure Flags where
  s : Bool
  z : Bool
  h : Bool
  v : Bool
  n : Bool
  c : Bool
deriving DecidableEq, Repr

/-- F from its flags and the two bits that hold none (R39): S Z b5 H b3 V N C from bit 7 down. -/
def Flags.pack (fl : Flags) (b5 b3 : Bool) : Byte :=
  BitVec.ofBool fl.s ++ BitVec.ofBool fl.z ++ BitVec.ofBool b5 ++ BitVec.ofBool fl.h ++
    BitVec.ofBool b3 ++ BitVec.ofBool fl.v ++ BitVec.ofBool fl.n ++ BitVec.ofBool fl.c

/-- The flags a byte of F holds (R39). -/
def Flags.ofByte (f : Byte) : Flags where
  s := f.getLsbD 7
  z := f.getLsbD 6
  h := f.getLsbD 4
  v := f.getLsbD 2
  n := f.getLsbD 1
  c := f.getLsbD 0

/-- The flags as they stand. -/
def State.flags (s : State) : Flags := Flags.ofByte s.f

/-- The sign bit of an `sz` value. -/
def topBit (sz : Size) (n : Nat) : Bool := n.testBit (sz.bits - 1)

/-- P: 1 when the number of 1 bits is even (R43). -/
def evenParity (b : Byte) : Bool := b.cpop.toNat % 2 == 0

/-- H of a sum or difference (R42): carry or borrow between bits 3 and 4 at 8 and 16 bits, undefined at 32 bits. -/
def halfFlag (sz : Size) (carry undefined : Bool) : Bool :=
  match sz with
  | .b8 | .w16 => carry
  | .l32 => undefined

/-- Addition of `sz` values (R120, R121): computed exactly, then narrowed. `undef` is what H gets at 32 bits. -/
def addAlu (sz : Size) (a b : Nat) (undef : Bool) : Nat × Flags :=
  let sum := a + b
  let r := sum % 2 ^ sz.bits
  (r, { s := topBit sz r
        z := r == 0
        h := halfFlag sz (a % 16 + b % 16 > 15) undef
        v := topBit sz a == topBit sz b && topBit sz r != topBit sz a
        n := false
        c := 2 ^ sz.bits ≤ sum })

/-- Subtraction of `sz` values (R120, R122). -/
def subAlu (sz : Size) (a b : Nat) (undef : Bool) : Nat × Flags :=
  let r := (a + 2 ^ sz.bits - b) % 2 ^ sz.bits
  (r, { s := topBit sz r
        z := r == 0
        h := halfFlag sz (a % 16 < b % 16) undef
        v := topBit sz a != topBit sz b && topBit sz r != topBit sz a
        n := true
        c := a < b })

/-- What DAA_FN answers (R126). -/
structure DaaOut where
  r : Byte
  s : Bool
  z : Bool
  h : Bool
  p : Bool
  c : Bool
deriving DecidableEq, Repr

/-- The candidate for DAA_FN of 93_implementation_defined.md G22, the default the spec offers for the parameter (R126,
92 D25; PRESUMED, log 11). -/
def daaCandidate (x : DaaArgs) : DaaResult :=
  let adjLow : Byte := if x.h || x.a.toNat % 16 > 9 then 0x06#8 else 0x00#8
  let high := x.c || x.a.toNat > 0x99
  let adj : Byte := adjLow ||| (if high then 0x60#8 else 0x00#8)
  { r := if x.n then x.a - adj else x.a + adj
    h := if x.n then decide (x.a.toNat % 16 < adj.toNat % 16) else decide (x.a.toNat % 16 + adj.toNat % 16 > 15)
    c := high }

/-- The open part of the product's DAA_FN: its row for the argument, else the candidate (92 D25). -/
def daaResult (p : Product) (x : DaaArgs) : DaaResult :=
  match p.daaRows.find? (fun row => row.args = x) with
  | some row => row.out
  | none => daaCandidate x

/-- What the spec asks of DAA_FN: `s = r[7]`, `z = (r == 0)`, `p = 1` when `r` has an even number of 1 bits (R126, 10_state.md
R40, R41, R43). -/
def daaComplete (o : DaaResult) : DaaOut :=
  { r := o.r, s := o.r.msb, z := o.r == 0#8, h := o.h, p := evenParity o.r, c := o.c }

/-- DAA_FN(a, N, H, C) of the product (R126, 92 D25). -/
def daaFn (p : Product) (a : Byte) (n h c : Bool) : DaaOut := daaComplete (daaResult p ⟨a, n, h, c⟩)

/-- Three undefined bits (log 10): bit 5 of F, bit 3 of F, H at 32 bits. -/
structure Drawn where
  b5 : Bool
  b3 : Bool
  h : Bool
deriving DecidableEq, Repr

def State.drawn (s : State) : Drawn :=
  ⟨Config.freeBit s.draws, Config.freeBit (s.draws + 1), Config.freeBit (s.draws + 2)⟩

/-- F written by an instruction that computes flags (R39): the flags, and an undefined bit in each of bits 5 and 3. The
bits drawn are used up. -/
def State.setFlags (s : State) (fl : Flags) : State :=
  { s.setF (fl.pack s.drawn.b5 s.drawn.b3) with draws := s.draws + 3 }

/-- ADD or SUB. -/
inductive AluOp where
  | add
  | sub
deriving DecidableEq, Repr

/-- The result and flags of ADD or SUB on two values of a size (R121, R122). -/
def AluOp.run (op : AluOp) (sz : Size) (a b : Word) (undef : Bool) : Word × Flags :=
  let out := match op with
    | .add => addAlu sz a.toNat b.toNat undef
    | .sub => subAlu sz a.toNat b.toNat undef
  (BitVec.ofNat 32 out.1, out.2)

/-- `dst <- dst op src` on a register (42_arithmetic.md R123, R124). -/
def aluToPart (op : AluOp) (dst : Part) (src : Word) (s : State) : State :=
  let out := op.run dst.size (s.readPart dst) src s.drawn.h
  (s.writePart dst out.1).setFlags out.2

/-- `dst <- dst op src` in memory: read, compute, then write (42_arithmetic.md R123, R124). -/
def aluToMem (op : AluOp) (sz : Size) (ea : Word) (src : Word) (s : State) : Res State :=
  (memRead sz ea s).andThen fun a =>
  let out := op.run sz a src s.drawn.h
  (memWrite sz ea out.1 s).andThen fun s1 => .next (s1.setFlags out.2)

end Sys2Proof.Machine
end

