-- ==== Sys2Proof/Machine/Arith.lean ====
section
/-! DEFINITION. ADD, SUB, DAA (42_arithmetic.md). -/

namespace Sys2Proof.Machine

/-- ADD R,r (R123). -/
def execAddRr (sz : Size) (R : RegCode) (r : RegOp) (s : State) : Res State :=
  .next ((aluToPart .add (s.codePart sz R) (s.readPart (s.opPart sz r)) s).advance (Instr.addRr sz R r).length)

/-- SUB R,r (R124). -/
def execSubRr (sz : Size) (R : RegCode) (r : RegOp) (s : State) : Res State :=
  .next ((aluToPart .sub (s.codePart sz R) (s.readPart (s.opPart sz r)) s).advance (Instr.subRr sz R r).length)

/-- ADD r,n (R123). -/
def execAddrn (r : RegOp) (n : Imm) (s : State) : Res State :=
  .next ((aluToPart .add (s.opPart n.size r) n.value s).advance (Instr.addrn r n).length)

/-- SUB r,n (R124). -/
def execSubrn (r : RegOp) (n : Imm) (s : State) : Res State :=
  .next ((aluToPart .sub (s.opPart n.size r) n.value s).advance (Instr.subrn r n).length)

/-- ADD R,(reg) (R123): the address is read before R is written. -/
def execAddRm (sz : Size) (R a : RegCode) (s : State) : Res State :=
  (memRead sz (s.indirect a) s).andThen fun b =>
  .next ((aluToPart .add (s.codePart sz R) b s).advance (Instr.addRm sz R a).length)

/-- SUB R,(reg) (R124). -/
def execSubRm (sz : Size) (R a : RegCode) (s : State) : Res State :=
  (memRead sz (s.indirect a) s).andThen fun b =>
  .next ((aluToPart .sub (s.codePart sz R) b s).advance (Instr.subRm sz R a).length)

/-- ADD (reg),R (R123). -/
def execAddmR (sz : Size) (a R : RegCode) (s : State) : Res State :=
  (aluToMem .add sz (s.indirect a) (s.readPart (s.codePart sz R)) s).andThen fun s1 =>
  .next (s1.advance (Instr.addmR sz a R).length)

/-- SUB (reg),R (R124). -/
def execSubmR (sz : Size) (a R : RegCode) (s : State) : Res State :=
  (aluToMem .sub sz (s.indirect a) (s.readPart (s.codePart sz R)) s).andThen fun s1 =>
  .next (s1.advance (Instr.submR sz a R).length)

/-- DAA r (R126): the register and S, Z, H, P/V, C from the product's DAA_FN, N unchanged; bits 5 and 3 undefined (10_state.md R39). -/
def execDaa (r : RegOp) (s : State) : Res State :=
  let p := s.opPart .b8 r
  let fl := s.flags
  let out := daaFn s.product ((s.readPart p).setWidth 8) fl.n fl.h fl.c
  .next (((s.writePart p (out.r.setWidth 32)).setFlags
    { s := out.s, z := out.z, h := out.h, v := out.p, n := fl.n, c := out.c }).advance (Instr.daa r).length)

end Sys2Proof.Machine
end

