-- ==== Sys2Proof/Machine/Bank.lean ====
section
/-! DEFINITION. Bank switching and exchange: LDF, INCF, DECF, EX (40_bank_switch.md). -/

namespace Sys2Proof.Machine

/-- LDF imm (R100): RFP[1:0] <- imm[1:0], RFP2 stays 0; an immediate 4 to 7 loses bit 2 (log 25). -/
def execLdf (n : BitVec 3) (s : State) : Res State :=
  .next ((s.setBank (n.setWidth 2)).advance (Instr.ldf n).length)

/-- INCF (R101): RFP rotates upward, the carry is ignored. -/
def execIncf (s : State) : Res State :=
  .next ((s.setBank (s.curBank + 1#2)).advance Instr.incf.length)

/-- DECF (R102): RFP rotates downward, the borrow is ignored. -/
def execDecf (s : State) : Res State :=
  .next ((s.setBank (s.curBank - 1#2)).advance Instr.decf.length)

/-- EX F,F' (R103): all 8 bits exchanged. -/
def execExFF (s : State) : Res State :=
  .next ({ s.setF s.fAlt with fAlt := s.f }.advance Instr.exFF.length)

/-- EX R,r (R104): the contents exchanged, RFP unchanged (log 24); not at 32 bits (30_encoding.md R95). -/
def execExRr (sz : Size) (R : RegCode) (r : RegOp) (s : State) : Res State :=
  if sz = .l32 then .refused (.sizeNotAdmitted sz)
  else
    let p := s.codePart sz R
    let q := s.opPart sz r
    let t := s.readPart p
    .next (((s.writePart p (s.readPart q)).writePart q t).advance (Instr.exRr sz R r).length)

end Sys2Proof.Machine
end

