-- ==== Sys2Proof/Machine/Control.lean ====
section
/-! DEFINITION. Interrupt mask, call and return: EI, RETI, CALL, RET (41_interrupt_control.md). -/

namespace Sys2Proof.Machine

/-- EI n (R110): IFF <- n. -/
def execEi (n : BitVec 3) (s : State) : Res State :=
  .next ((s.setIff n).advance (Instr.ei n).length)

/-- RETI (R111). -/
def execReti (s : State) : Res State := returnFromInterrupt s

/-- A subroutine call (R112): the address of the next instruction pushed whole, PC <- target (log 20). -/
def callTo (target : Word) (len : Nat) (s : State) : Res State :=
  (push .l32 (s.advance len).pc s).andThen fun s1 => .next { s1 with pc := target }

/-- CALL n16 (R112): absolute, zero-extended (30_encoding.md R85 mode 8). -/
def execCall16 (n : Half) (s : State) : Res State := callTo (n.setWidth 32) (Instr.call16 n).length s

/-- CALL n24 (R112). -/
def execCall24 (n : BitVec 24) (s : State) : Res State := callTo (n.setWidth 32) (Instr.call24 n).length s

/-- RET (R113): PC <- MemRead(XSP, 4); XSP <- XSP + 4. -/
def execRet (s : State) : Res State :=
  (pop .l32 s).andThen fun out => .next { out.2 with pc := out.1 }

end Sys2Proof.Machine
end

