-- ==== Sys2Proof/Machine/Load.lean ====
section
/-! DEFINITION. LD and LDC (43_load.md R135 to R143). -/

namespace Sys2Proof.Machine

/-- LD R,r (R135). -/
def execLdRr (sz : Size) (R : RegCode) (r : RegOp) (s : State) : Res State :=
  .next ((s.writePart (s.codePart sz R) (s.readPart (s.opPart sz r))).advance (Instr.ldRr sz R r).length)

/-- LD r,R (R135). -/
def execLdrR (sz : Size) (r : RegOp) (R : RegCode) (s : State) : Res State :=
  .next ((s.writePart (s.opPart sz r) (s.readPart (s.codePart sz R))).advance (Instr.ldrR sz r R).length)

/-- LD R,n at 8 bits (R136). -/
def execLdRn8 (R : RegCode) (n : Byte) (s : State) : Res State :=
  .next ((s.writePart (s.codePart .b8 R) (n.setWidth 32)).advance (Instr.ldRn8 R n).length)

/-- LD R,n at 16 bits (R136). -/
def execLdRn16 (R : RegCode) (n : Half) (s : State) : Res State :=
  .next ((s.writePart (s.codePart .w16 R) (n.setWidth 32)).advance (Instr.ldRn16 R n).length)

/-- LD R,n at 32 bits (R136). -/
def execLdRn32 (R : RegCode) (n : Word) (s : State) : Res State :=
  .next ((s.writePart (s.codePart .l32 R) n).advance (Instr.ldRn32 R n).length)

/-- LD r,n (R136). -/
def execLdrn (r : RegOp) (n : Imm) (s : State) : Res State :=
  .next ((s.writePart (s.opPart n.size r) n.value).advance (Instr.ldrn r n).length)

/-- LD r,#3 (R136): the 3-bit constant zero-extended. -/
def execLdr3 (sz : Size) (r : RegOp) (k : BitVec 3) (s : State) : Res State :=
  .next ((s.writePart (s.opPart sz r) (k.setWidth 32)).advance (Instr.ldr3 sz r k).length)

/-- LD R,(reg) (R137): the address is taken before R is written. -/
def execLdRm (sz : Size) (R a : RegCode) (s : State) : Res State :=
  (memRead sz (s.indirect a) s).andThen fun v =>
  .next ((s.writePart (s.codePart sz R) v).advance (Instr.ldRm sz R a).length)

/-- LD (reg),R (R138). -/
def execLdmR (sz : Size) (a R : RegCode) (s : State) : Res State :=
  (memWrite sz (s.indirect a) (s.readPart (s.codePart sz R)) s).andThen fun s1 =>
  .next (s1.advance (Instr.ldmR sz a R).length)

/-- LDC cr,r (R142): refused for a number that CR_MAP does not give a register of this width. -/
def execLdcCrR (sz : Size) (r : RegOp) (cr : Byte) (s : State) : Res State :=
  match s.product.ctrlReg sz cr with
  | some c => .next ((s.setCr c (s.readPart (s.opPart sz r))).advance (Instr.ldcCrR sz r cr).length)
  | none => .refused (.noSuchControlRegister cr sz)

/-- LDC r,cr (R143): refused as LDC cr,r is. -/
def execLdcRCr (sz : Size) (r : RegOp) (cr : Byte) (s : State) : Res State :=
  match s.product.ctrlReg sz cr with
  | some c => .next ((s.writePart (s.opPart sz r) (s.getCr c)).advance (Instr.ldcRCr sz r cr).length)
  | none => .refused (.noSuchControlRegister cr sz)

end Sys2Proof.Machine
end

