-- ==== Sys2Proof/Machine/Stack.lean ====
section
/-! DEFINITION. PUSH and POP (43_load.md R144 to R146). The value pushed is read before XSP is decremented, and XSP is
incremented before the destination is written (log 21). -/

namespace Sys2Proof.Machine

/-- PUSH of a register part. -/
def pushPart (p : Part) (len : Nat) (s : State) : Res State :=
  (push p.size (s.readPart p) s).andThen fun s1 => .next (s1.advance len)

/-- POP to a register part. -/
def popPart (p : Part) (len : Nat) (s : State) : Res State :=
  (pop p.size s).andThen fun out => .next ((out.2.writePart p out.1).advance len)

/-- PUSH A (R144). -/
def execPushA (s : State) : Res State := pushPart s.partA Instr.pushA.length s

/-- POP A (R145). -/
def execPopA (s : State) : Res State := popPart s.partA Instr.popA.length s

/-- PUSH F (R144): all 8 bits as they stand. -/
def execPushF (s : State) : Res State :=
  (push .b8 (s.f.setWidth 32) s).andThen fun s1 => .next (s1.advance Instr.pushF.length)

/-- POP F (R145). -/
def execPopF (s : State) : Res State :=
  (pop .b8 s).andThen fun out => .next ((out.2.setF (out.1.setWidth 8)).advance Instr.popF.length)

/-- PUSH SR (R144): SYSM is stored as 1. -/
def execPushSr (s : State) : Res State :=
  (push .w16 (s.srImage.setWidth 32) s).andThen fun s1 => .next (s1.advance Instr.pushSr.length)

/-- POP SR (R145): the field rules of RETI; INTNEST is not changed. -/
def execPopSr (s : State) : Res State :=
  (pop .w16 s).andThen fun out =>
  (loadSr (out.1.setWidth 16) out.2).andThen fun s1 => .next (s1.advance Instr.popSr.length)

/-- PUSH R, one byte (R144): 16 and 32 bits. -/
def execPushShort (sz : Size) (R : RegCode) (s : State) : Res State :=
  if sz = .b8 then .refused (.sizeNotAdmitted sz)
  else pushPart (s.codePart sz R) (Instr.pushShort sz R).length s

/-- POP R, one byte (R145): 16 and 32 bits. -/
def execPopShort (sz : Size) (R : RegCode) (s : State) : Res State :=
  if sz = .b8 then .refused (.sizeNotAdmitted sz)
  else popPart (s.codePart sz R) (Instr.popShort sz R).length s

/-- PUSH r (R144). -/
def execPushReg (sz : Size) (r : RegOp) (s : State) : Res State :=
  pushPart (s.opPart sz r) (Instr.pushReg sz r).length s

/-- POP r (R145). -/
def execPopReg (sz : Size) (r : RegOp) (s : State) : Res State :=
  popPart (s.opPart sz r) (Instr.popReg sz r).length s

end Sys2Proof.Machine
end

