-- ==== Sys2Proof/Machine/Dispatch.lean ====
section
/-! DEFINITION. One arm per instruction: each calls its meaning. -/

namespace Sys2Proof.Machine

def exec (i : Instr) (s : State) : Host.Outcome State Fault Refusal :=
  match i with
  | .pushSr => Sys2Proof.Machine.execPushSr s
  | .popSr => Sys2Proof.Machine.execPopSr s
  | .reti => Sys2Proof.Machine.execReti s
  | .incf => Sys2Proof.Machine.execIncf s
  | .decf => Sys2Proof.Machine.execDecf s
  | .ret => Sys2Proof.Machine.execRet s
  | .pushA => Sys2Proof.Machine.execPushA s
  | .popA => Sys2Proof.Machine.execPopA s
  | .exFF => Sys2Proof.Machine.execExFF s
  | .pushF => Sys2Proof.Machine.execPushF s
  | .popF => Sys2Proof.Machine.execPopF s
  | .ei n => Sys2Proof.Machine.execEi n s
  | .ldf n => Sys2Proof.Machine.execLdf n s
  | .call16 n => Sys2Proof.Machine.execCall16 n s
  | .call24 n => Sys2Proof.Machine.execCall24 n s
  | .ldRn8 R n => Sys2Proof.Machine.execLdRn8 R n s
  | .ldRn16 R n => Sys2Proof.Machine.execLdRn16 R n s
  | .ldRn32 R n => Sys2Proof.Machine.execLdRn32 R n s
  | .pushShort sz R => Sys2Proof.Machine.execPushShort sz R s
  | .popShort sz R => Sys2Proof.Machine.execPopShort sz R s
  | .ldrn r n => Sys2Proof.Machine.execLdrn r n s
  | .pushReg sz r => Sys2Proof.Machine.execPushReg sz r s
  | .popReg sz r => Sys2Proof.Machine.execPopReg sz r s
  | .daa r => Sys2Proof.Machine.execDaa r s
  | .ldcCrR sz r cr => Sys2Proof.Machine.execLdcCrR sz r cr s
  | .ldcRCr sz r cr => Sys2Proof.Machine.execLdcRCr sz r cr s
  | .addRr sz R r => Sys2Proof.Machine.execAddRr sz R r s
  | .ldRr sz R r => Sys2Proof.Machine.execLdRr sz R r s
  | .ldrR sz r R => Sys2Proof.Machine.execLdrR sz r R s
  | .subRr sz R r => Sys2Proof.Machine.execSubRr sz R r s
  | .ldr3 sz r k => Sys2Proof.Machine.execLdr3 sz r k s
  | .exRr sz R r => Sys2Proof.Machine.execExRr sz R r s
  | .addrn r n => Sys2Proof.Machine.execAddrn r n s
  | .subrn r n => Sys2Proof.Machine.execSubrn r n s
  | .ldRm sz R a => Sys2Proof.Machine.execLdRm sz R a s
  | .addRm sz R a => Sys2Proof.Machine.execAddRm sz R a s
  | .addmR sz a R => Sys2Proof.Machine.execAddmR sz a R s
  | .subRm sz R a => Sys2Proof.Machine.execSubRm sz R a s
  | .submR sz a R => Sys2Proof.Machine.execSubmR sz a R s
  | .ldmR sz a R => Sys2Proof.Machine.execLdmR sz a R s

end Sys2Proof.Machine
end

