-- ==== Sys2Proof/Machine/Fetch.lean ====
section
/-! DEFINITION. Fetching and decoding the instruction at PC (10_state.md R48, R49, 30_encoding.md R86, R95,
20_memory.md R70). -/

namespace Sys2Proof.Machine

/-- The bytes from `ea` upward that can be fetched, at most `n`, up to the first that can not. -/
def State.fetchBytes (s : State) : Nat → Word → List Byte
  | 0, _ => []
  | n + 1, ea =>
    match access .fetch (s.addr ea) s with
    | .next _ => s.mem.read (s.addr ea) :: s.fetchBytes n (ea + 1#32)
    | _ => []

/-- Refuses when one of the `n` bytes from `ea` upward was stored by the program (R70, 92 D6). -/
def State.textUnstored (s : State) : Nat → Word → Res Unit
  | 0, _ => .next ()
  | n + 1, ea => if s.addr ea ∈ s.stored then .refused (.storedText (s.addr ea)) else s.textUnstored n (ea + 1#32)

/-- The instruction at PC, fetched from the low ADDR_BITS bits of PC (R48, R61). Bytes the decoder does not look at need
not exist: when it needs a byte that can not be fetched, the step stops as an access to that byte does. -/
def fetch (s : State) : Res Instr :=
  let bs := s.fetchBytes maxLength s.pc
  match decode bs with
  | .ok i => (s.textUnstored i.length s.pc).andThen fun _ => .next i
  | .error .truncated =>
    (access .fetch (s.addr (s.pc + BitVec.ofNat 32 bs.length)) s).andThen fun _ =>
      .refused (.undecodable (s.addr s.pc) .truncated)
  | .error e => .refused (.undecodable (s.addr s.pc) e)

/-- The environment's part of a boundary is used up. -/
def State.dropEvent (s : State) : State := { s with env := s.env.tail }

/-- The environment does nothing at the next boundary. -/
def State.quiet (s : State) : State :=
  { s with env := match s.env with | [] => [] | _ :: rest => .present [] :: rest }

/-- A product on which the `n` bytes from `ea` upward can be fetched: the product itself where they can already. -/
def Product.withText (p : Product) (n : Nat) (ea : Word) (ok : Bool) : Product :=
  if ok then p
  else
    { p with
      memMap := (List.range n).map (fun k => ⟨cut p.addrBits (ea + BitVec.ofNat 32 k), 1, .ram⟩) ++ p.memMap }

/-- Bytes placed from outside where the next instruction is fetched, nothing arriving at the boundary before it. -/
def State.placeText (s : State) (bs : List Byte) : State :=
  let s' := s.quiet
  { s' with
    mem := s.mem.place s.product.addrBits s.pc bs
    stored := s.stored.eraseRange s.product.addrBits bs.length s.pc
    product := Product.withText s.product bs.length s.pc ((s.fetchBytes bs.length s.pc).length == bs.length) }

end Sys2Proof.Machine
end

