-- ==== Sys2Proof/Machine/Step.lean ====
section
/-! DEFINITION. One step: the environment's event at the boundary, then an interrupt entry, a reset or one instruction
(60_exceptions.md R165). -/

namespace Sys2Proof.Machine

/-- The instruction at PC is fetched and runs. -/
def runInstr (s : State) : Host.Outcome State Fault Refusal :=
  (fetch s).andThen fun i => exec i s

/-- One step (log 18): the environment resets; or presents requests, and the one the mask lets in is taken; or nothing
is let in and the instruction at PC runs. The state an entry or a reset leaves is a boundary like any other: the next
step tests again, before the handler's first instruction, where R165 is silent (DESIGN CHOICE, log 36). No step looks at
END_PC: the CPU has no halted state (R178, 92 D21). -/
def step (s : State) : Host.Outcome State Fault Refusal :=
  match s.env with
  | [] => runInstr s
  | .reset :: _ => resetAction s.dropEvent
  | .present rs :: _ =>
    match s.accepted rs with
    | some r => takeInterrupt r s.dropEvent
    | none => runInstr s.dropEvent

/-- A run is observed here: between instructions, PC cut to ADDR_BITS bits is END_PC (60_exceptions.md R178, 92 D21). -/
def State.atEnd (s : State) : Bool := s.product.endPc = some (s.addr s.pc)

/-- The first state at which the run from `s` is observed, if it is within `n` steps; the start counts, and a state is
looked at before the event of its boundary (DESIGN CHOICE, log 35). A run that stops earlier stops so here. -/
def observed : Nat → State → Res (Option State)
  | 0, s => .next (if s.atEnd then some s else none)
  | n + 1, s => if s.atEnd then .next (some s) else Res.andThen (step s) (observed n)

/-- `s` with a word of the opcode table where the next step fetches (log 29): its bytes placed at PC, no longer
counted as stored, mapped, and nothing arriving at the boundary before them. -/
def State.withFetchWord (s : State) (nbits w : Nat) : State := s.placeText (tableWindow nbits w)

end Sys2Proof.Machine
end

