-- ==== Sys2Proof/Safety.lean ====
section
/-! DEFINITION. The terms statements use: what a step may touch, what it leaves as it was, what a legal state is. -/

namespace Sys2Proof.Machine

/-! ## Memory that can be touched -/

/-- The `n` bytes from `ea` upward can be touched so (R66, 92 D4): RAM always, ROM unless to store. -/
def State.mapped (s : State) (k : Access) : Nat → Word → Bool
  | 0, _ => true
  | n + 1, ea =>
    (match s.product.kindAt (s.addr ea) with
      | some .ram => true
      | some .rom => k != .store
      | _ => false) && s.mapped k n (ea + 1#32)

/-- An `sz` value can be read at `ea`. -/
def State.readable (s : State) (sz : Size) (ea : Word) : Bool := s.mapped .read sz.bytes ea

/-- An `sz` value can be stored at `ea`. -/
def State.storable (s : State) (sz : Size) (ea : Word) : Bool := s.mapped .store sz.bytes ea

/-- The `sz` value memory holds at `ea`, zero-extended (R61 to R64). -/
def State.valueAt (s : State) (sz : Size) (ea : Word) : Word :=
  BitVec.ofNat 32 (s.mem.load s.product.addrBits sz.bytes ea)

/-- `a` is the address of one of the bytes of an `sz` access at `ea`, each cut by itself (R61, R63). -/
def State.inAccess (s : State) (sz : Size) (ea : Word) (a : Addr) : Prop :=
  ∃ k < sz.bytes, a = s.addr (ea + BitVec.ofNat 32 k)

/-! ## Frames -/

/-- The part of XSP that is all of it. -/
def xspPart : Part := ⟨.xsp, 0#2, .l32⟩

/-- The operand an 8-bit register code names at a size, if it names one (30_encoding.md R90). -/
def State.byCode (s : State) (sz : Size) (c : Byte) : Option Part :=
  (LongReg.ofCode c).map fun r => s.opPart sz (.long r)

/-- The byte of its register an 8-bit code starts at, by the code's low two bits (R90): at 16 bits bit 0 is ignored, at
32 bits both are. -/
def codeLane : Size → BitVec 2 → BitVec 2
  | .b8, l => l
  | .w16, l => l.extractLsb' 1 1 ++ 0#1
  | .l32, _ => 0#2

/-- Byte `k` of a register. -/
def State.regByte (s : State) (h : Home) (k : BitVec 2) : Byte := byteOf k.toNat (s.getReg h)

/-- The byte `k` of `h` belongs to the part. -/
def Part.covers (p : Part) (h : Home) (k : BitVec 2) : Prop :=
  p.home = h ∧ p.lane.toNat ≤ k.toNat ∧ k.toNat < p.lane.toNat + p.size.bytes

/-- Every byte of every general-purpose register is as it was, but those of the parts. -/
def KeepsRegsExcept (ps : List Part) (s t : State) : Prop :=
  ∀ h k, (∀ p ∈ ps, ¬ p.covers h k) → t.regByte h k = s.regByte h k

/-- Every byte of memory reads as it did. -/
def KeepsMemory (s t : State) : Prop := ∀ a : Addr, t.mem.read a = s.mem.read a

/-- Every byte of memory reads as it did, but those of an `sz` access at `ea`. -/
def KeepsMemoryExcept (sz : Size) (ea : Word) (s t : State) : Prop :=
  ∀ a : Addr, ¬ s.inAccess sz ea a → t.mem.read a = s.mem.read a

/-- F', the control registers, the environment and the product are as they were. -/
def KeepsSpecial (s t : State) : Prop :=
  t.fAlt = s.fAlt ∧ t.cr = s.cr ∧ t.env = s.env ∧ t.product = s.product

/-- Every bit of SR is as it was, but those from `lo` to `hi`. -/
def KeepsSrBut (lo hi : Nat) (s t : State) : Prop :=
  ∀ i, ¬ (lo ≤ i ∧ i ≤ hi) → t.sr.getLsbD i = s.sr.getLsbD i

/-- An instruction that writes no more than these register parts and PC: SR, memory and the special registers stay. -/
def OnlyRegs (ps : List Part) (s t : State) : Prop :=
  KeepsRegsExcept ps s t ∧ t.sr = s.sr ∧ KeepsMemory s t ∧ KeepsSpecial s t

/-- An instruction that writes no more than these register parts, the flag register F and PC. -/
def OnlyRegsAndF (ps : List Part) (s t : State) : Prop :=
  KeepsRegsExcept ps s t ∧ KeepsSrBut 0 7 s t ∧ KeepsMemory s t ∧ KeepsSpecial s t

/-- An instruction that writes no more than these register parts, the bytes of an `sz` access at `ea`, and PC. -/
def OnlyRegsAndStore (ps : List Part) (sz : Size) (ea : Word) (s t : State) : Prop :=
  KeepsRegsExcept ps s t ∧ t.sr = s.sr ∧ KeepsMemoryExcept sz ea s t ∧ KeepsSpecial s t

/-- An instruction that writes no more than bits `lo` to `hi` of SR and PC. -/
def OnlySrBits (lo hi : Nat) (s t : State) : Prop :=
  KeepsRegsExcept [] s t ∧ KeepsSrBut lo hi s t ∧ KeepsMemory s t ∧ KeepsSpecial s t

/-! ## Legal states -/

/-- SYSM and MAX are 1 and RFP2 is 0 (10_state.md R35, R37, R38). -/
abbrev SrLegal (sr : Half) : Prop := sr.getLsbD 15 = true ∧ sr.getLsbD 11 = true ∧ sr.getLsbD 10 = false

/-- Memory is in its canonical form and inside the product's space. -/
abbrev State.MemInv (s : State) : Prop :=
  Product.legal s.product ∧ Memory.wf s.mem ∧ Memory.inside s.product.addrBits s.mem

/-- There are the control registers of each micro DMA channel of the product and no others (10_state.md R52). -/
abbrev State.CrInv (s : State) : Prop := s.cr.dma.length = s.product.channels

/-- The invariant of the machine: SR is legal, memory and the set of stored addresses are in their canonical form, the
control registers are the product's. -/
abbrev State.Inv (s : State) : Prop := SrLegal s.sr ∧ s.MemInv ∧ AddrSet.wf s.stored ∧ s.CrInv

/-! ## The flag laws, on the bytes of the result -/

/-- What the flags after `a + b` of a size are (10_state.md R40 to R45, 42_arithmetic.md R121); H says nothing at 32
bits. -/
def AddFlags (sz : Size) (a b : Nat) (fl : Flags) : Prop :=
  let r := (a + b) % 2 ^ sz.bits
  fl.s = r.testBit (sz.bits - 1) ∧ fl.z = (r == 0) ∧
  (sz ≠ .l32 → fl.h = decide (15 < a % 16 + b % 16)) ∧
  fl.v = (a.testBit (sz.bits - 1) == b.testBit (sz.bits - 1) && r.testBit (sz.bits - 1) != a.testBit (sz.bits - 1)) ∧
  fl.n = false ∧ fl.c = decide (2 ^ sz.bits ≤ a + b)

/-- What the flags after `a - b` of a size are (42_arithmetic.md R122); H says nothing at 32 bits. -/
def SubFlags (sz : Size) (a b : Nat) (fl : Flags) : Prop :=
  let r := ((a : Int) - b) % 2 ^ sz.bits
  fl.s = r.toNat.testBit (sz.bits - 1) ∧ fl.z = (r == 0) ∧
  (sz ≠ .l32 → fl.h = decide (a % 16 < b % 16)) ∧
  fl.v = (a.testBit (sz.bits - 1) != b.testBit (sz.bits - 1) &&
    r.toNat.testBit (sz.bits - 1) != a.testBit (sz.bits - 1)) ∧
  fl.n = true ∧ fl.c = decide (a < b)

/-- S, Z, H, N and C after ADD or SUB of `x` and `y`, by the result `r` of a size (R40, R41, R42, R44, R45); H at 32 bits
is the undefined bit `free` (log 10). -/
def AluFlags (op : AluOp) (sz : Size) (x y : Nat) (r : Word) (free : Bool) (fl : Flags) : Prop :=
  fl.s = r.getLsbD (sz.bits - 1) ∧ fl.z = (r == 0#32) ∧ fl.n = (op == .sub) ∧
  fl.c = (match op with
    | .add => decide (2 ^ sz.bits ≤ x + y)
    | .sub => decide (x < y)) ∧
  fl.h = if sz = .l32 then free
    else match op with
      | .add => decide (15 < x % 16 + y % 16)
      | .sub => decide (x % 16 < y % 16)

/-! ## What the instructions of one shape do -/

/-- `b` was added to the part, with the flags of the sum, and nothing else but PC changed (42_arithmetic.md R123). -/
def AddedTo (p : Part) (b : Word) (s t : State) : Prop :=
  (t.readPart p).toNat = ((s.readPart p).toNat + b.toNat) % 2 ^ p.size.bits ∧
  AddFlags p.size (s.readPart p).toNat b.toNat t.flags ∧ OnlyRegsAndF [p] s t

/-- `b` was subtracted from the part, with the flags of the difference, and nothing else but PC changed (R124). -/
def SubtractedFrom (p : Part) (b : Word) (s t : State) : Prop :=
  ((t.readPart p).toNat : Int) = (((s.readPart p).toNat : Int) - b.toNat) % 2 ^ p.size.bits ∧
  SubFlags p.size (s.readPart p).toNat b.toNat t.flags ∧ OnlyRegsAndF [p] s t

/-- Nothing changed but F, PC and the bytes of an `sz` access at `ea`. -/
def OnlyFAndStore (sz : Size) (ea : Word) (s t : State) : Prop :=
  KeepsRegsExcept [] s t ∧ KeepsSrBut 0 7 s t ∧ KeepsMemoryExcept sz ea s t ∧ KeepsSpecial s t

/-- The part holds `v`, and nothing else but PC changed. -/
def LoadedWith (p : Part) (v : Word) (s t : State) : Prop :=
  t.readPart p = v ∧ OnlyRegs [p] s t

/-- `v` stands on the stack, XSP at its lowest byte, and nothing else but PC changed (43_load.md R146). -/
def PushedOnto (sz : Size) (v : Word) (s t : State) : Prop :=
  t.xsp = s.xsp - BitVec.ofNat 32 sz.bytes ∧ t.valueAt sz t.xsp = v ∧
  OnlyRegsAndStore [xspPart] sz (s.xsp - BitVec.ofNat 32 sz.bytes) s t

/-- XSP moved up by the size, then the part took the value that stood at the old XSP; nothing else but PC changed
(R146). -/
def PoppedInto (p : Part) (s t : State) : Prop :=
  LoadedWith p (s.valueAt p.size s.xsp) { s with xsp := s.xsp + BitVec.ofNat 32 p.size.bytes } t

/-- A subroutine call of an instruction of `len` bytes (41_interrupt_control.md R112). -/
def CalledTo (target : Word) (len : Nat) (s t : State) : Prop :=
  t.pc = target ∧ t.xsp = s.xsp - 4#32 ∧ t.valueAt .l32 t.xsp = s.pc + BitVec.ofNat 32 len ∧
  OnlyRegsAndStore [xspPart] .l32 (s.xsp - 4#32) s t

/-- A whole SR image was loaded (41_interrupt_control.md R111): IFF, RFP[1:0] and F from the image, the fixed bits as
they must be. -/
def SrFrom (image : Word) (t : State) : Prop :=
  t.iff = image.extractLsb' 12 3 ∧ t.rfp = (image.extractLsb' 8 2).setWidth 3 ∧ t.f = image.setWidth 8 ∧ SrLegal t.sr

/-- PC moved past the bytes of the instruction (10_state.md R49). -/
def PastInstr (i : Instr) (s t : State) : Prop := t.pc = s.pc + BitVec.ofNat 32 (encode i).length

end Sys2Proof.Machine

/-! ## Which instructions may write what -/

namespace Sys2Proof

/-- The instructions that write RFP (10_state.md R38, R47): LDF, INCF, DECF, RETI and POP SR. -/
def Instr.writesRfp : Instr → Bool
  | .ldf _ | .incf | .decf | .reti | .popSr => true
  | _ => false

/-- The instructions that write IFF (10_state.md R36, R47): EI, RETI and POP SR. -/
def Instr.writesIff : Instr → Bool
  | .ei _ | .reti | .popSr => true
  | _ => false

/-- The instructions that write F (10_state.md R47): ADD, SUB, DAA, EX F,F', POP F, POP SR and RETI. -/
def Instr.writesF : Instr → Bool
  | .addRr _ _ _ | .addrn _ _ | .addRm _ _ _ | .addmR _ _ _ => true
  | .subRr _ _ _ | .subrn _ _ | .subRm _ _ _ | .submR _ _ _ => true
  | .daa _ | .exFF | .popF | .popSr | .reti => true
  | _ => false

/-- The instructions that store to memory: PUSH, CALL, LD (reg),R, ADD (reg),R, SUB (reg),R. -/
def Instr.stores : Instr → Bool
  | .pushSr | .pushA | .pushF | .pushShort _ _ | .pushReg _ _ | .call16 _ | .call24 _ => true
  | .ldmR _ _ _ | .addmR _ _ _ | .submR _ _ _ => true
  | _ => false

end Sys2Proof
end

