-- ==== Sys2Proof/Certificates/Slice0/Obligations.lean ====
section
/-! DEFINITION. The statements for the provers, in the order of OBLIGATIONS.json. -/

open Sys2Proof Sys2Proof.Machine

/-! ## Encoding (30_encoding.md) -/

/-- Every well-formed instruction decodes from its own bytes, whatever follows them, with every operand (PRESUMED
encodings, log 13). -/
def Obligations.EncodeThenDecode : Prop :=
  ∀ (i : Instr) (rest : List Byte), i.wellFormed = true → decode (encode i ++ rest) = .ok i

/-- Bytes that decode begin with the encoding of the instruction: no two encodings of one instruction, no bit dropped. -/
def Obligations.DecodeThenEncode : Prop :=
  ∀ (bs : List Byte) (i : Instr), decode bs = .ok i → encode i <+: bs

/-- The decoder gives only well-formed instructions, of one to seven bytes, that stand whole in the bytes (R86, R94). -/
def Obligations.DecodedIsWhole : Prop :=
  ∀ (bs : List Byte) (i : Instr), decode bs = .ok i →
    i.wellFormed = true ∧ 1 ≤ i.length ∧ i.length ≤ 7 ∧ i.length ≤ bs.length

/-- The field values R95 refuses inside admitted rows: a register prefix with zz = 11, a register code 40H to CFH, DAA at
16 and 32 bits, EX R,r at 32 bits, bits 7 to 3 of the second byte of EI and LDF; EI and LDF take every n. A term of Instr
of a size its instruction does not have is refused by its meaning. -/
def Obligations.ReservedFormsRefused : Prop :=
  (∀ (b : Byte) (bs : List Byte), 0xF7 ≤ b.toNat → decode (b :: bs) = .error (.reservedSize b)) ∧
  (∀ (b c : Byte) (bs : List Byte), b = 0xC7#8 ∨ b = 0xD7#8 ∨ b = 0xE7#8 → 0x40 ≤ c.toNat → c.toNat ≤ 0xCF →
    decode (b :: c :: bs) = .error (.noSuchRegister c)) ∧
  (∀ (r : RegOp) (bs : List Byte), decode (encodePrefix .w16 r ++ 0x10#8 :: bs) = .error (.sizeNotAdmitted 0x10#8 .w16)) ∧
  (∀ (r : RegOp) (bs : List Byte), decode (encodePrefix .l32 r ++ 0x10#8 :: bs) = .error (.sizeNotAdmitted 0x10#8 .l32)) ∧
  (∀ (r : RegOp) (op : Byte) (bs : List Byte), 0xB8 ≤ op.toNat → op.toNat ≤ 0xBF →
    decode (encodePrefix .l32 r ++ op :: bs) = .error (.sizeNotAdmitted op .l32)) ∧
  (∀ (n : Byte) (bs : List Byte), 8 ≤ n.toNat →
    decode (0x06#8 :: n :: bs) = .error (.reservedBits n) ∧ decode (0x17#8 :: n :: bs) = .error (.reservedBits n)) ∧
  (∀ (n : Byte) (bs : List Byte), n.toNat < 8 →
    decode (0x06#8 :: n :: bs) = .ok (.ei (n.setWidth 3)) ∧ decode (0x17#8 :: n :: bs) = .ok (.ldf (n.setWidth 3))) ∧
  (∀ (R : RegCode) (s : State), exec (.pushShort .b8 R) s = .refused (.sizeNotAdmitted .b8) ∧
    exec (.popShort .b8 R) s = .refused (.sizeNotAdmitted .b8)) ∧
  (∀ (R : RegCode) (r : RegOp) (s : State), exec (.exRr .l32 R r) s = .refused (.sizeNotAdmitted .l32))

/-- Words the spec prints, one of each of the seven shapes of R86 and more, decode to the instruction the spec prints
beside them (R86, R93 and the rules of the instructions; PRESUMED, log 13). IMP 0C, IMM3 06 07, ABS 1D, RI 33, REG C7 to
EB, SRC 94, DST B4. -/
def Obligations.PrintedWordsDecode : Prop :=
  decode [0x0C#8] = .ok .incf ∧
  decode [0x06#8, 0x07#8] = .ok (.ei 7#3) ∧
  decode [0xC7#8, 0xD0#8, 0xB9#8] = .ok (.exRr .b8 1#3 (.long ⟨.prev, 0#2, 0#2⟩)) ∧
  decode [0x1D#8, 0x00#8, 0x20#8, 0x00#8] = .ok (.call24 0x002000#24) ∧
  decode [0xDC#8, 0x8B#8] = .ok (.ldRr .w16 3#3 (.short 4#3)) ∧
  decode [0xDB#8, 0x9C#8] = .ok (.ldrR .w16 (.short 3#3) 4#3) ∧
  decode [0x33#8, 0x78#8, 0x56#8] = .ok (.ldRn16 3#3 0x5678#16) ∧
  decode [0x94#8, 0x23#8] = .ok (.ldRm .w16 3#3 4#3) ∧
  decode [0xB4#8, 0x53#8] = .ok (.ldmR .w16 4#3 3#3) ∧
  decode [0xCA#8, 0xA1#8] = .ok (.subRr .b8 1#3 (.short 2#3)) ∧
  decode [0xE8#8, 0x2E#8, 0x00#8] = .ok (.ldcCrR .l32 (.short 0#3) 0x00#8)

/-! ## Registers (10_state.md, 30_encoding.md R88 to R90) -/

/-- The current bank is the bank whose number is in RFP[1:0]; the plain names (the short codes 0 to 3 at 16 and 32 bits,
every short code at 8 bits) mean its registers; by changing RFP another bank becomes the current bank, and no register of
any bank changes (R29). That the short codes are these names is R88 (PRESUMED, log 13 and log 32), and that no register
changes is R29's own inference. -/
def Obligations.CurrentBankIsRfp : Prop :=
  (∀ s : State, s.curBank = s.rfp.setWidth 2) ∧
  (∀ s : State, s.codeHome 0#3 = .banked s.curBank .xwa ∧ s.codeHome 1#3 = .banked s.curBank .xbc ∧
    s.codeHome 2#3 = .banked s.curBank .xde ∧ s.codeHome 3#3 = .banked s.curBank .xhl) ∧
  (∀ (s : State) (sz : Size) (R : RegCode), sz = .b8 ∨ R.toNat < 4 →
    ∃ r, (s.codePart sz R).home = .banked s.curBank r) ∧
  (∀ (s : State) (b : BitVec 2), (s.setBank b).curBank = b ∧ ∀ h, (s.setBank b).getReg h = s.getReg h)

/-- The previous bank is the bank before the current one, and bank 3 when the current bank is 0 (R30; the spec's decision
D8, log 26). The codes D0H to DFH, `D0H + 4*k + l`, name the dashed registers, byte `l` of register `k` of that bank, at
every size (R90; PRESUMED, log 13): A' W' QA' QW', C' B' .., WA' QWA', XWA' and so on. -/
def Obligations.PreviousBank : Prop :=
  (∀ s : State, s.prevBank.toNat = (s.curBank.toNat + 3) % 4) ∧
  (∀ (s : State) (sz : Size) (k l : BitVec 2),
    s.byCode sz (0xD#4 ++ k ++ l) = some ⟨.banked s.prevBank (BankReg.ofCode k), codeLane sz l, sz⟩)

/-- The 8-bit codes of R90, at every size: `10H*b + 4*k + l` names byte `l` of register `k` of bank `b`,
`E0H + 4*k + l` of the current bank, `F0H + 4*k + l` of the registers outside the banks, 40H to CFH nothing (D0H to DFH:
PreviousBank). The 3-bit codes of R88 at 8, 16 and 32 bits. A short code names what the long code of the same register
names, every byte of every register has a long code, and WA is W above A, BC is B above C, DE is D above E, HL is H above
L. All PRESUMED (log 13 and log 32). -/
def Obligations.RegisterCodes : Prop :=
  (BankReg.ofCode 0#2 = .xwa ∧ BankReg.ofCode 1#2 = .xbc ∧ BankReg.ofCode 2#2 = .xde ∧ BankReg.ofCode 3#2 = .xhl) ∧
  (Home.outsideOfCode 0#2 = .xix ∧ Home.outsideOfCode 1#2 = .xiy ∧ Home.outsideOfCode 2#2 = .xiz ∧
    Home.outsideOfCode 3#2 = .xsp) ∧
  (∀ (s : State) (sz : Size) (b k l : BitVec 2),
    s.byCode sz (0#2 ++ b ++ k ++ l) = some ⟨.banked b (BankReg.ofCode k), codeLane sz l, sz⟩ ∧
    s.byCode sz (0xE#4 ++ k ++ l) = some ⟨.banked s.curBank (BankReg.ofCode k), codeLane sz l, sz⟩ ∧
    s.byCode sz (0xF#4 ++ k ++ l) = some ⟨Home.outsideOfCode k, codeLane sz l, sz⟩) ∧
  (∀ (s : State) (sz : Size) (c : Byte), 0x40 ≤ c.toNat → c.toNat ≤ 0xCF → s.byCode sz c = none) ∧
  (∀ (s : State) (k : BitVec 2), s.codePart .b8 (k ++ 0#1) = ⟨.banked s.curBank (BankReg.ofCode k), 1#2, .b8⟩ ∧
    s.codePart .b8 (k ++ 1#1) = ⟨.banked s.curBank (BankReg.ofCode k), 0#2, .b8⟩) ∧
  (∀ (s : State) (sz : Size), sz ≠ .b8 →
    s.codePart sz 0#3 = ⟨.banked s.curBank .xwa, 0#2, sz⟩ ∧ s.codePart sz 1#3 = ⟨.banked s.curBank .xbc, 0#2, sz⟩ ∧
    s.codePart sz 2#3 = ⟨.banked s.curBank .xde, 0#2, sz⟩ ∧ s.codePart sz 3#3 = ⟨.banked s.curBank .xhl, 0#2, sz⟩ ∧
    s.codePart sz 4#3 = ⟨.xix, 0#2, sz⟩ ∧ s.codePart sz 5#3 = ⟨.xiy, 0#2, sz⟩ ∧
    s.codePart sz 6#3 = ⟨.xiz, 0#2, sz⟩ ∧ s.codePart sz 7#3 = ⟨.xsp, 0#2, sz⟩) ∧
  (∀ (s : State) (sz : Size) (R : RegCode), ∃ c : LongReg, s.opPart sz (.long c) = s.opPart sz (.short R)) ∧
  (∀ (s : State) (h : Home) (k : BitVec 2), ∃ c : LongReg, s.opPart .b8 (.long c) = ⟨h, k, .b8⟩) ∧
  (∀ (s : State) (k : BitVec 2), s.readPart (s.codePart .w16 (0#1 ++ k)) =
    ((s.readPart (s.codePart .b8 (k ++ 0#1))).setWidth 8 ++ (s.readPart (s.codePart .b8 (k ++ 1#1))).setWidth 8).setWidth 32)

/-- A 16-bit register is the lower 16 bits of the 32-bit register, an alias and not separate state (R21, and R25 for IX,
IY, IZ, SP): a write to it, as to every narrow register, reads back narrowed and leaves every byte outside the part as it
was (00_scope.md section 6.2; that a write leaves the upper 16 bits is the spec's own inference in R21, and R25 is one). -/
def Obligations.PartsAreAliases : Prop :=
  (∀ (s : State) (sz : Size) (r : RegOp) (v : Word),
    (s.writePart (s.opPart sz r) v).readPart (s.opPart sz r) = v &&& sz.mask ∧
    KeepsRegsExcept [s.opPart sz r] s (s.writePart (s.opPart sz r) v)) ∧
  (∀ (s : State) (R : RegCode), s.readPart (s.codePart .w16 R) = ((s.getReg (s.codeHome R)).setWidth 16).setWidth 32) ∧
  (∀ (s : State) (R : RegCode) (v : Word), (s.writePart (s.codePart .w16 R) v).getReg (s.codeHome R) =
    (s.getReg (s.codeHome R)).extractLsb' 16 16 ++ v.setWidth 16)

/-! ## Memory (20_memory.md) -/

/-- A load returns the value of the last store to the same bytes, and a store leaves every other byte alone (R69; in a
state whose memory is in its canonical form). -/
def Obligations.LoadAfterStore : Prop :=
  ∀ (s : State) (sz : Size) (ea v : Word), s.MemInv → s.storable sz ea = true →
    ∃ t, memWrite sz ea v s = .next t ∧ memRead sz ea t = .next (v &&& sz.mask) ∧ KeepsMemoryExcept sz ea s t ∧
      (∀ h, t.getReg h = s.getReg h) ∧ t.sr = s.sr ∧ t.pc = s.pc ∧ KeepsSpecial s t

/-- Little-endian, unaligned, each address cut to ADDR_BITS bits and so wrapping byte by byte (R61 to R63; PRESUMED,
log 14 and log 15; ADDR_BITS of at most 32, log 6). -/
def Obligations.LittleEndianUnaligned : Prop :=
  ∀ s : State, s.product.addrBits ≤ 32 →
    let byte : Word → Nat → Byte := fun ea k => s.mem.read ((ea.toNat + k) % 2 ^ s.product.addrBits)
    (∀ ea : Word, s.readable .b8 ea = true → memRead .b8 ea s = .next ((byte ea 0).setWidth 32)) ∧
    (∀ ea : Word, s.readable .w16 ea = true → memRead .w16 ea s = .next ((byte ea 1 ++ byte ea 0).setWidth 32)) ∧
    (∀ ea : Word, s.readable .l32 ea = true →
      memRead .l32 ea s = .next (byte ea 3 ++ byte ea 2 ++ byte ea 1 ++ byte ea 0))

/-- The effective address of each memory mode (R85; modes 4 to 9 PRESUMED, log 13), and the base register of
pre-decrement and post-increment after it. -/
def Obligations.EffectiveAddresses : Prop :=
  (∀ (r : RegOp) (next : Word) (s : State), (MemMode.indirect r).ea next s = s.readPart (s.opPart .l32 r)) ∧
  (∀ (c : LongReg) (k : StepSize) (next : Word) (s : State),
    let p := s.opPart .l32 (.long c)
    ((MemMode.preDec c k).stepBase s).readPart p = s.readPart p - k.amount ∧
    (MemMode.preDec c k).ea next s = ((MemMode.preDec c k).stepBase s).readPart p ∧
    (MemMode.postInc c k).ea next s = s.readPart p ∧
    ((MemMode.postInc c k).stepBase s).readPart p = s.readPart p + k.amount) ∧
  (∀ (R : RegCode) (d : Byte) (next : Word) (s : State),
    ((MemMode.index8 R d).ea next s).toInt =
      ((s.getReg (s.codeHome R)).toInt + d.toInt).bmod (2 ^ 32)) ∧
  (∀ (c : LongReg) (d : Half) (next : Word) (s : State),
    ((MemMode.index16 c d).ea next s).toInt =
      ((s.readPart (s.opPart .l32 (.long c))).toInt + d.toInt).bmod (2 ^ 32)) ∧
  (∀ (c d : LongReg) (next : Word) (s : State),
    ((MemMode.regIndex8 c d).ea next s).toInt =
      ((s.readPart (s.opPart .l32 (.long c))).toInt +
        ((s.readPart (s.opPart .b8 (.long d))).setWidth 8).toInt).bmod (2 ^ 32) ∧
    ((MemMode.regIndex16 c d).ea next s).toInt =
      ((s.readPart (s.opPart .l32 (.long c))).toInt +
        ((s.readPart (s.opPart .w16 (.long d))).setWidth 16).toInt).bmod (2 ^ 32)) ∧
  (∀ (n : Byte) (next : Word) (s : State), ((MemMode.abs8 n).ea next s).toNat = n.toNat) ∧
  (∀ (n : Half) (next : Word) (s : State), ((MemMode.abs16 n).ea next s).toNat = n.toNat) ∧
  (∀ (n : BitVec 24) (next : Word) (s : State), ((MemMode.abs24 n).ea next s).toNat = n.toNat) ∧
  (∀ (d : Byte) (next : Word) (s : State), ((MemMode.rel8 d).ea next s).toInt = (next.toInt + d.toInt).bmod (2 ^ 32)) ∧
  (∀ (d : Half) (next : Word) (s : State), ((MemMode.rel16 d).ea next s).toInt = (next.toInt + d.toInt).bmod (2 ^ 32))

/-- A slot of the vector table holds a 24-bit address in its first three bytes, the least significant first (R67, R191, G7;
PRESUMED, log 3 and log 14). -/
def Obligations.VectorIsThreeBytes : Prop :=
  ∀ (m : Memory) (bits : Nat) (slot : Word), bits ≤ 32 → m.vector bits slot =
    (m.read ((slot.toNat + 2) % 2 ^ bits) ++ m.read ((slot.toNat + 1) % 2 ^ bits) ++
      m.read (slot.toNat % 2 ^ bits)).setWidth 32

/-- A load or store stops at the first of its bytes, in ascending order, where the memory map has nothing, I/O, or ROM to
store to; a fetch at the first byte the instruction needs where it has nothing or I/O (R65, R66, D4; DEDUCED, log 8; ROM
DESIGN CHOICE, log 7; the bytes a fetch needs, log 27). -/
def Obligations.AccessStops : Prop :=
  (∀ (s : State) (sz : Size) (ea : Word) (k : Nat), k < sz.bytes → s.mapped .read k ea = true →
    let a := s.addr (ea + BitVec.ofNat 32 k)
    (s.product.kindAt a = none → memRead sz ea s = .fault (.unmapped a)) ∧
    (s.product.kindAt a = some .io → memRead sz ea s = .refused (.ioAccess a))) ∧
  (∀ (s : State) (sz : Size) (ea v : Word) (k : Nat), k < sz.bytes → s.mapped .store k ea = true →
    let a := s.addr (ea + BitVec.ofNat 32 k)
    (s.product.kindAt a = none → memWrite sz ea v s = .fault (.unmapped a)) ∧
    (s.product.kindAt a = some .io → memWrite sz ea v s = .refused (.ioAccess a)) ∧
    (s.product.kindAt a = some .rom → memWrite sz ea v s = .fault (.romStore a))) ∧
  (∀ (s : State) (k : Nat), s.env = [] → k < 7 → s.mapped .fetch k s.pc = true →
    decode (s.fetchBytes k s.pc) = .error .truncated →
    let a := s.addr (s.pc + BitVec.ofNat 32 k)
    (s.product.kindAt a = none → step s = .fault (.unmapped a)) ∧
    (s.product.kindAt a = some .io → step s = .refused (.ioAccess a)))

/-! ## Bank switching and exchange (40_bank_switch.md) -/

/-- LDF n selects the bank of the low two bits of n and keeps RFP2 at 0 (R100; n of 4 to 7 is the spec's decision D24,
log 25; no other bit of SR, log 23). -/
def Obligations.LdfSelectsBank : Prop :=
  ∀ (n : BitVec 3) (s : State), ∃ t, exec (.ldf n) s = .next t ∧
    t.rfp.toNat = n.toNat % 4 ∧ OnlySrBits 8 10 s t ∧ PastInstr (.ldf n) s t

/-- INCF and DECF rotate RFP within 0 to 3; after INCF the bank that was current is the previous one, after DECF the
previous bank is current (R101, R102). -/
def Obligations.IncfDecfRotate : Prop :=
  (∀ s : State, ∃ t, exec .incf s = .next t ∧ t.rfp.toNat = (s.curBank.toNat + 1) % 4 ∧ t.prevBank = s.curBank ∧
    OnlySrBits 8 10 s t ∧ PastInstr .incf s t) ∧
  (∀ s : State, ∃ t, exec .decf s = .next t ∧ t.rfp.toNat = (s.curBank.toNat + 3) % 4 ∧ t.curBank = s.prevBank ∧
    OnlySrBits 8 10 s t ∧ PastInstr .decf s t)

/-- EX F,F' exchanges all eight bits of the two flag registers; the upper byte of SR and everything else stays (R103). -/
def Obligations.ExSwapsFlagRegisters : Prop :=
  ∀ s : State, ∃ t, exec .exFF s = .next t ∧ t.f = s.fAlt ∧ t.fAlt = s.f ∧ KeepsSrBut 0 7 s t ∧
    KeepsRegsExcept [] s t ∧ KeepsMemory s t ∧ t.cr = s.cr ∧ t.env = s.env ∧ t.product = s.product ∧
    PastInstr .exFF s t

/-- EX R,r exchanges the contents of two registers of 8 or 16 bits, the same register twice included; RFP and every flag
stay (R104; the spec's decision D9, log 24). -/
def Obligations.ExSwapsRegisters : Prop :=
  ∀ (sz : Size) (R : RegCode) (r : RegOp) (s : State), sz ≠ .l32 → ∃ t, exec (.exRr sz R r) s = .next t ∧
    t.readPart (s.codePart sz R) = s.readPart (s.opPart sz r) ∧
    t.readPart (s.opPart sz r) = s.readPart (s.codePart sz R) ∧
    OnlyRegs [s.codePart sz R, s.opPart sz r] s t ∧ PastInstr (.exRr sz R r) s t

/-! ## Interrupt mask, call and return (41_interrupt_control.md) -/

/-- EI n sets IFF to any n, and no other bit of SR (R36, R110). -/
def Obligations.EiSetsMask : Prop :=
  ∀ (n : BitVec 3) (s : State), ∃ t, exec (.ei n) s = .next t ∧ t.iff = n ∧ OnlySrBits 12 14 s t ∧ PastInstr (.ei n) s t

/-- EI has no delay: the mask it sets is the mask of the very next boundary, so a pending request which that mask lets in
is taken between the EI and the next instruction (R194). -/
def Obligations.EiTakesEffectAtOnce : Prop :=
  ∀ (n : BitVec 3) (s t : State) (rs : List Request) (r : Request) (rest : List EnvEvent), exec (.ei n) s = .next t →
    s.env = .present rs :: rest → (s.setIff n).accepted rs = some r →
    t.iff = n ∧ step t = takeInterrupt r { t with env := rest }

/-- RETI pops SR and PC and counts INTNEST down; SYSM, MAX and RFP2 stay as they must be (R111; PRESUMED, log 19). -/
def Obligations.RetiReturns : Prop :=
  ∀ s : State, s.readable .w16 s.xsp = true → s.readable .l32 (s.xsp + 2#32) = true →
    (s.valueAt .w16 s.xsp).getLsbD 11 = true → ∃ t, exec .reti s = .next t ∧
      SrFrom (s.valueAt .w16 s.xsp) t ∧ t.pc = s.valueAt .l32 (s.xsp + 2#32) ∧ t.xsp = s.xsp + 6#32 ∧
      t.cr = { s.cr with intnest := s.cr.intnest - 1#16 } ∧ KeepsRegsExcept [xspPart] s t ∧ KeepsMemory s t ∧
      t.fAlt = s.fAlt ∧ t.env = s.env ∧ t.product = s.product

/-- RETI and POP SR fault when the popped SR has MAX = 0 (R37, D11; DESIGN CHOICE, log 17). -/
def Obligations.MaxZeroFaults : Prop :=
  ∀ s : State, s.readable .w16 s.xsp = true → (s.valueAt .w16 s.xsp).getLsbD 11 = false →
    exec .popSr s = .fault .maxCleared ∧ (s.readable .l32 (s.xsp + 2#32) = true → exec .reti s = .fault .maxCleared)

/-- CALL pushes the 32-bit address of the next instruction and loads PC with the zero-extended target (R112; PRESUMED,
log 20). -/
def Obligations.CallPushesReturnAddress : Prop :=
  ∀ s : State, s.MemInv → s.storable .l32 (s.xsp - 4#32) = true →
    (∀ n : Half, ∃ t, exec (.call16 n) s = .next t ∧ CalledTo (n.setWidth 32) 3 s t) ∧
    (∀ n : BitVec 24, ∃ t, exec (.call24 n) s = .next t ∧ CalledTo (n.setWidth 32) 4 s t)

/-- RET pops PC and nothing else (R113; PRESUMED, log 20). -/
def Obligations.RetPopsPc : Prop :=
  ∀ s : State, s.readable .l32 s.xsp = true → ∃ t, exec .ret s = .next t ∧ t.pc = s.valueAt .l32 s.xsp ∧
    t.xsp = s.xsp + 4#32 ∧ OnlyRegs [xspPart] s t

/-- A RET at once after a CALL, of 16 or 24 bits, returns to the instruction after the CALL, with XSP, SR and every
register as they were before it (R112, R113; PRESUMED, log 20). -/
def Obligations.CallThenRetReturns : Prop :=
  ∀ (s : State) (i : Instr), (∃ n, i = .call16 n) ∨ (∃ n, i = .call24 n) → s.MemInv →
    s.storable .l32 (s.xsp - 4#32) = true →
    ∃ t u, exec i s = .next t ∧ exec .ret t = .next u ∧ PastInstr i s u ∧
      (∀ h, u.getReg h = s.getReg h) ∧ u.sr = s.sr ∧ KeepsMemoryExcept .l32 (s.xsp - 4#32) s u ∧ KeepsSpecial s u

/-! ## Arithmetic (42_arithmetic.md) -/

/-- ADD to a register: from a register, a constant, memory (R121, R123; operand forms and V PRESUMED, log 32). -/
def Obligations.AddToRegister : Prop :=
  (∀ (sz : Size) (R : RegCode) (r : RegOp) (s : State), ∃ t, exec (.addRr sz R r) s = .next t ∧
    AddedTo (s.codePart sz R) (s.readPart (s.opPart sz r)) s t ∧ PastInstr (.addRr sz R r) s t) ∧
  (∀ (r : RegOp) (n : Imm) (s : State), ∃ t, exec (.addrn r n) s = .next t ∧
    AddedTo (s.opPart n.size r) n.value s t ∧ PastInstr (.addrn r n) s t) ∧
  (∀ (sz : Size) (R a : RegCode) (s : State), s.readable sz (s.getReg (s.codeHome a)) = true →
    ∃ t, exec (.addRm sz R a) s = .next t ∧
      AddedTo (s.codePart sz R) (s.valueAt sz (s.getReg (s.codeHome a))) s t ∧ PastInstr (.addRm sz R a) s t)

/-- ADD to memory at the address in a register: the sum stands there, the flags are the sum's, no register changes
(R121, R123; PRESUMED, log 32). -/
def Obligations.AddToMemory : Prop :=
  ∀ (sz : Size) (a R : RegCode) (s : State), s.MemInv → s.storable sz (s.getReg (s.codeHome a)) = true →
    ∃ t, exec (.addmR sz a R) s = .next t ∧
      let ea := s.getReg (s.codeHome a)
      let x := (s.valueAt sz ea).toNat
      let y := (s.readPart (s.codePart sz R)).toNat
      (t.valueAt sz ea).toNat = (x + y) % 2 ^ sz.bits ∧ AddFlags sz x y t.flags ∧ OnlyFAndStore sz ea s t ∧
      PastInstr (.addmR sz a R) s t

/-- SUB from a register: of a register, a constant, memory (R122, R124; PRESUMED, log 32). -/
def Obligations.SubFromRegister : Prop :=
  (∀ (sz : Size) (R : RegCode) (r : RegOp) (s : State), ∃ t, exec (.subRr sz R r) s = .next t ∧
    SubtractedFrom (s.codePart sz R) (s.readPart (s.opPart sz r)) s t ∧ PastInstr (.subRr sz R r) s t) ∧
  (∀ (r : RegOp) (n : Imm) (s : State), ∃ t, exec (.subrn r n) s = .next t ∧
    SubtractedFrom (s.opPart n.size r) n.value s t ∧ PastInstr (.subrn r n) s t) ∧
  (∀ (sz : Size) (R a : RegCode) (s : State), s.readable sz (s.getReg (s.codeHome a)) = true →
    ∃ t, exec (.subRm sz R a) s = .next t ∧
      SubtractedFrom (s.codePart sz R) (s.valueAt sz (s.getReg (s.codeHome a))) s t ∧ PastInstr (.subRm sz R a) s t)

/-- SUB from memory at the address in a register (R122, R124; PRESUMED, log 32). -/
def Obligations.SubFromMemory : Prop :=
  ∀ (sz : Size) (a R : RegCode) (s : State), s.MemInv → s.storable sz (s.getReg (s.codeHome a)) = true →
    ∃ t, exec (.submR sz a R) s = .next t ∧
      let ea := s.getReg (s.codeHome a)
      let x := (s.valueAt sz ea).toNat
      let y := (s.readPart (s.codePart sz R)).toNat
      ((t.valueAt sz ea).toNat : Int) = ((x : Int) - y) % 2 ^ sz.bits ∧ SubFlags sz x y t.flags ∧
      OnlyFAndStore sz ea s t ∧ PastInstr (.submR sz a R) s t

/-- The flags each of the eight ADD and SUB instructions and DAA leaves, by their result: S is its most significant bit, Z
says it is zero; after ADD and SUB N is 0 or 1, C is the carry or borrow, H is the carry or borrow between bits 3 and 4 at
8 and 16 bits (R40, R41, R42, R44, R45); at 32 bits H is undefined, the free bit drawn (R42; DESIGN CHOICE, log 10). The
operand forms are PRESUMED (log 32); that DAA's S and Z follow its result, whatever DAA_FN, is what R126 asks of DAA_FN. -/
def Obligations.FlagLaws : Prop :=
  (∀ (sz : Size) (R : RegCode) (r : RegOp) (s : State),
    let p := s.codePart sz R
    let x := (s.readPart p).toNat
    let y := (s.readPart (s.opPart sz r)).toNat
    (∃ t, exec (.addRr sz R r) s = .next t ∧ AluFlags .add sz x y (t.readPart p) s.drawn.h t.flags) ∧
    (∃ t, exec (.subRr sz R r) s = .next t ∧ AluFlags .sub sz x y (t.readPart p) s.drawn.h t.flags)) ∧
  (∀ (r : RegOp) (n : Imm) (s : State),
    let p := s.opPart n.size r
    let x := (s.readPart p).toNat
    (∃ t, exec (.addrn r n) s = .next t ∧ AluFlags .add n.size x n.value.toNat (t.readPart p) s.drawn.h t.flags) ∧
    (∃ t, exec (.subrn r n) s = .next t ∧ AluFlags .sub n.size x n.value.toNat (t.readPart p) s.drawn.h t.flags)) ∧
  (∀ (sz : Size) (R a : RegCode) (s : State), s.readable sz (s.getReg (s.codeHome a)) = true →
    let p := s.codePart sz R
    let x := (s.readPart p).toNat
    let y := (s.valueAt sz (s.getReg (s.codeHome a))).toNat
    (∃ t, exec (.addRm sz R a) s = .next t ∧ AluFlags .add sz x y (t.readPart p) s.drawn.h t.flags) ∧
    (∃ t, exec (.subRm sz R a) s = .next t ∧ AluFlags .sub sz x y (t.readPart p) s.drawn.h t.flags)) ∧
  (∀ (sz : Size) (a R : RegCode) (s : State), s.MemInv → s.storable sz (s.getReg (s.codeHome a)) = true →
    let ea := s.getReg (s.codeHome a)
    let x := (s.valueAt sz ea).toNat
    let y := (s.readPart (s.codePart sz R)).toNat
    (∃ t, exec (.addmR sz a R) s = .next t ∧ AluFlags .add sz x y (t.valueAt sz ea) s.drawn.h t.flags) ∧
    (∃ t, exec (.submR sz a R) s = .next t ∧ AluFlags .sub sz x y (t.valueAt sz ea) s.drawn.h t.flags)) ∧
  (∀ (r : RegOp) (s : State), ∃ t, exec (.daa r) s = .next t ∧
    t.flags.s = (t.readPart (s.opPart .b8 r)).getLsbD 7 ∧ t.flags.z = (t.readPart (s.opPart .b8 r) == 0#32))

/-- Whatever DAA_FN is: DAA writes its register and S, Z, H, P/V, C from DAA_FN of the register, N, H and C; N stays; S, Z
and P are the result's, P 1 when its number of 1 bits is even (R126, R40, R41, R43; the frame PRESUMED, log 11). Where the
parameter has a row for the argument, result, H and C are the row's; with no rows it is the candidate of G22 (D25). -/
def Obligations.DaaAdjusts : Prop :=
  (∀ (r : RegOp) (s : State), ∃ t, exec (.daa r) s = .next t ∧
    let p := s.opPart .b8 r
    let o := daaFn s.product ((s.readPart p).setWidth 8) s.flags.n s.flags.h s.flags.c
    t.readPart p = o.r.setWidth 32 ∧
    t.flags = { s := o.s, z := o.z, h := o.h, v := o.p, n := s.flags.n, c := o.c } ∧
    OnlyRegsAndF [p] s t ∧ PastInstr (.daa r) s t) ∧
  (∀ (q : Product) (a : Byte) (n h c : Bool),
    let o := daaFn q a n h c
    o.s = o.r.getLsbD 7 ∧ o.z = (o.r == 0#8) ∧
    o.p = (((List.range 8).filter fun i => o.r.getLsbD i).length % 2 == 0)) ∧
  (∀ (q : Product) (row : DaaRow), row ∈ q.daaRows → (∀ row' ∈ q.daaRows, row'.args = row.args → row' = row) →
    daaResult q row.args = row.out) ∧
  (∀ (q : Product) (x : DaaArgs), q.daaRows = [] → daaResult q x = daaCandidate x)

/-- Where DAA_FN is the candidate of G22 (PRESUMED, log 11; a premise, as D25 asks), DAA after an 8-bit ADD or SUB of two
packed BCD bytes gives the packed BCD result and its carry or borrow. -/
def Obligations.DaaCorrectsBcd : Prop :=
  ∀ q : Product, (∀ x, daaResult q x = daaCandidate x) → ∀ x y : Nat, x < 100 → y < 100 → ∀ u : Bool,
    let bcd : Nat → Nat := fun n => n / 10 * 16 + n % 10
    let sum := addAlu .b8 (bcd x) (bcd y) u
    let diff := subAlu .b8 (bcd x) (bcd y) u
    let after : Nat × Flags → DaaOut := fun o => daaFn q (BitVec.ofNat 8 o.1) o.2.n o.2.h o.2.c
    (after sum).r.toNat = bcd ((x + y) % 100) ∧ (after sum).c = decide (100 ≤ x + y) ∧
    (after diff).r.toNat = bcd ((x + 100 - y) % 100) ∧ (after diff).c = decide (x < y)

/-! ## Load and control registers (43_load.md) -/

/-- LD between two registers copies the source, writes only the named part and changes no flag (R135; log 23). -/
def Obligations.LdCopiesRegister : Prop :=
  (∀ (sz : Size) (R : RegCode) (r : RegOp) (s : State), ∃ t, exec (.ldRr sz R r) s = .next t ∧
    LoadedWith (s.codePart sz R) (s.readPart (s.opPart sz r)) s t ∧ PastInstr (.ldRr sz R r) s t) ∧
  (∀ (sz : Size) (r : RegOp) (R : RegCode) (s : State), ∃ t, exec (.ldrR sz r R) s = .next t ∧
    LoadedWith (s.opPart sz r) (s.readPart (s.codePart sz R)) s t ∧ PastInstr (.ldrR sz r R) s t)

/-- LD of a constant, in each of its five encodings; the 3-bit constant is zero-extended (R136; log 23). -/
def Obligations.LdLoadsConstant : Prop :=
  (∀ (R : RegCode) (n : Byte) (s : State), ∃ t, exec (.ldRn8 R n) s = .next t ∧
    LoadedWith (s.codePart .b8 R) (n.setWidth 32) s t ∧ PastInstr (.ldRn8 R n) s t) ∧
  (∀ (R : RegCode) (n : Half) (s : State), ∃ t, exec (.ldRn16 R n) s = .next t ∧
    LoadedWith (s.codePart .w16 R) (n.setWidth 32) s t ∧ PastInstr (.ldRn16 R n) s t) ∧
  (∀ (R : RegCode) (n : Word) (s : State), ∃ t, exec (.ldRn32 R n) s = .next t ∧
    LoadedWith (s.codePart .l32 R) n s t ∧ PastInstr (.ldRn32 R n) s t) ∧
  (∀ (r : RegOp) (n : Imm) (s : State), ∃ t, exec (.ldrn r n) s = .next t ∧
    LoadedWith (s.opPart n.size r) n.value s t ∧ PastInstr (.ldrn r n) s t) ∧
  (∀ (sz : Size) (r : RegOp) (k : BitVec 3) (s : State), ∃ t, exec (.ldr3 sz r k) s = .next t ∧
    LoadedWith (s.opPart sz r) (k.setWidth 32) s t ∧ PastInstr (.ldr3 sz r k) s t)

/-- LD R,(reg): the value at the address the register held before R is written; no sign or zero extension beyond the
named part (R137). -/
def Obligations.LdReadsMemory : Prop :=
  ∀ (sz : Size) (R a : RegCode) (s : State), s.readable sz (s.getReg (s.codeHome a)) = true →
    ∃ t, exec (.ldRm sz R a) s = .next t ∧
      LoadedWith (s.codePart sz R) (s.valueAt sz (s.getReg (s.codeHome a))) s t ∧ PastInstr (.ldRm sz R a) s t

/-- LD (reg),R: the register's value stands at the address, and every other byte reads as before (R138; PRESUMED,
log 13). -/
def Obligations.LdStoresMemory : Prop :=
  ∀ (sz : Size) (a R : RegCode) (s : State), s.MemInv → s.storable sz (s.getReg (s.codeHome a)) = true →
    ∃ t, exec (.ldmR sz a R) s = .next t ∧
      t.valueAt sz (s.getReg (s.codeHome a)) = s.readPart (s.codePart sz R) ∧
      OnlyRegsAndStore [] sz (s.getReg (s.codeHome a)) s t ∧ PastInstr (.ldmR sz a R) s t

/-- LDC moves between a control register and a general-purpose register of its width, and changes nothing else, whatever
CR_MAP and number of micro DMA channels the product has (R142, R143; PRESUMED, log 12). -/
def Obligations.LdcMoves : Prop :=
  ∀ (sz : Size) (r : RegOp) (n : Byte) (c : CtrlReg) (s : State), s.CrInv → s.product.ctrlReg sz n = some c →
    (∃ t, exec (.ldcCrR sz r n) s = .next t ∧ t.getCr c = s.readPart (s.opPart sz r) ∧
      (∀ c', c' ≠ c → t.getCr c' = s.getCr c') ∧ KeepsRegsExcept [] s t ∧ t.sr = s.sr ∧ KeepsMemory s t ∧
      t.fAlt = s.fAlt ∧ t.env = s.env ∧ t.product = s.product ∧ PastInstr (.ldcCrR sz r n) s t) ∧
    (∃ t, exec (.ldcRCr sz r n) s = .next t ∧ LoadedWith (s.opPart sz r) (s.getCr c &&& sz.mask) s t ∧
      PastInstr (.ldcRCr sz r n) s t)

/-- CR_MAP is the product's (R52, D26): LDC reaches a control register by a row of it, at the row's width, for the
micro DMA channels the product has (R10); LDC with any other number or width is refused (R95, R142). The numbers and
widths of the product State.reset has, four channels (R52, G8; PRESUMED, log 12). -/
def Obligations.ControlRegisterNumbers : Prop :=
  (∀ (p : Product) (sz : Size) (n : Byte) (c : CtrlReg), p.ctrlReg sz n = some c →
    ⟨n, c, sz⟩ ∈ p.crMap ∧ ∀ ch, c = .dmas ch ∨ c = .dmad ch ∨ c = .dmac ch ∨ c = .dmam ch → ch < p.channels) ∧
  (∀ (p : Product) (e : CrEntry), e ∈ p.crMap → (∀ e' ∈ p.crMap, e'.number = e.number → e' = e) →
    e.reg.existsIn p e.size = true → p.ctrlReg e.size e.number = some e.reg) ∧
  (∀ (sz : Size) (r : RegOp) (n : Byte) (s : State), s.product.ctrlReg sz n = none →
    exec (.ldcCrR sz r n) s = .refused (.noSuchControlRegister n sz) ∧
    exec (.ldcRCr sz r n) s = .refused (.noSuchControlRegister n sz)) ∧
  (∀ ch < 4, Config.product.ctrlReg .l32 (BitVec.ofNat 8 (0x00 + 4 * ch)) = some (.dmas ch) ∧
    Config.product.ctrlReg .l32 (BitVec.ofNat 8 (0x10 + 4 * ch)) = some (.dmad ch) ∧
    Config.product.ctrlReg .w16 (BitVec.ofNat 8 (0x20 + 4 * ch)) = some (.dmac ch) ∧
    Config.product.ctrlReg .b8 (BitVec.ofNat 8 (0x22 + 4 * ch)) = some (.dmam ch)) ∧
  Config.product.ctrlReg .w16 0x3C#8 = some .intnest ∧ Config.product.crMap.length = 17 ∧
  State.reset.product = Config.product

/-! ## Stack (43_load.md R144 to R146) -/

/-- PUSH of a register, PUSH XSP included: the value it had before, at the new XSP (R144, R146; PRESUMED, log 20,
log 21). -/
def Obligations.PushStoresRegister : Prop :=
  (∀ (sz : Size) (r : RegOp) (s : State), s.MemInv → s.storable sz (s.xsp - BitVec.ofNat 32 sz.bytes) = true →
    ∃ t, exec (.pushReg sz r) s = .next t ∧ PushedOnto sz (s.readPart (s.opPart sz r)) s t ∧
      PastInstr (.pushReg sz r) s t) ∧
  (∀ (sz : Size) (R : RegCode) (s : State), sz ≠ .b8 → s.MemInv →
    s.storable sz (s.xsp - BitVec.ofNat 32 sz.bytes) = true →
    ∃ t, exec (.pushShort sz R) s = .next t ∧ PushedOnto sz (s.readPart (s.codePart sz R)) s t ∧
      PastInstr (.pushShort sz R) s t) ∧
  (∀ s : State, s.MemInv → s.storable .b8 (s.xsp - 1#32) = true →
    ∃ t, exec .pushA s = .next t ∧
      PushedOnto .b8 (s.readPart ⟨.banked s.curBank .xwa, 0#2, .b8⟩) s t ∧ PastInstr .pushA s t)

/-- PUSH F stores F as it stands; PUSH SR stores SR with SYSM as 1 (R144, R35; PRESUMED, log 16, log 20). -/
def Obligations.PushStoresStatus : Prop :=
  (∀ s : State, s.MemInv → s.storable .b8 (s.xsp - 1#32) = true →
    ∃ t, exec .pushF s = .next t ∧ PushedOnto .b8 (s.f.setWidth 32) s t ∧ PastInstr .pushF s t) ∧
  (∀ s : State, s.MemInv → s.storable .w16 (s.xsp - 2#32) = true →
    ∃ t, exec .pushSr s = .next t ∧ PushedOnto .w16 ((1#1 ++ s.sr.setWidth 15).setWidth 32) s t ∧
      PastInstr .pushSr s t)

/-- POP of a register: XSP goes up, then the register takes the value, POP XSP included (R145, R146; PRESUMED, log 20,
log 21). -/
def Obligations.PopLoadsRegister : Prop :=
  (∀ (sz : Size) (r : RegOp) (s : State), s.readable sz s.xsp = true →
    ∃ t, exec (.popReg sz r) s = .next t ∧ PoppedInto (s.opPart sz r) s t ∧ PastInstr (.popReg sz r) s t) ∧
  (∀ (sz : Size) (R : RegCode) (s : State), sz ≠ .b8 → s.readable sz s.xsp = true →
    ∃ t, exec (.popShort sz R) s = .next t ∧ PoppedInto (s.codePart sz R) s t ∧ PastInstr (.popShort sz R) s t) ∧
  (∀ s : State, s.readable .b8 s.xsp = true →
    ∃ t, exec .popA s = .next t ∧ PoppedInto ⟨.banked s.curBank .xwa, 0#2, .b8⟩ s t ∧ PastInstr .popA s t)

/-- POP F replaces F; POP SR loads SR by the field rules of RETI and leaves INTNEST (R145; PRESUMED, log 20). -/
def Obligations.PopLoadsStatus : Prop :=
  (∀ s : State, s.readable .b8 s.xsp = true → ∃ t, exec .popF s = .next t ∧
    t.f = (s.valueAt .b8 s.xsp).setWidth 8 ∧ t.xsp = s.xsp + 1#32 ∧ OnlyRegsAndF [xspPart] s t ∧ PastInstr .popF s t) ∧
  (∀ s : State, s.readable .w16 s.xsp = true → (s.valueAt .w16 s.xsp).getLsbD 11 = true →
    ∃ t, exec .popSr s = .next t ∧ SrFrom (s.valueAt .w16 s.xsp) t ∧ t.xsp = s.xsp + 2#32 ∧
      KeepsRegsExcept [xspPart] s t ∧ KeepsMemory s t ∧ KeepsSpecial s t ∧ PastInstr .popSr s t)

/-- A POP at once after a PUSH of the same size moves the value and puts XSP back (R146; PRESUMED, log 20). -/
def Obligations.PushThenPopMoves : Prop :=
  ∀ (sz : Size) (r r' : RegOp) (s : State), s.MemInv →
    s.storable sz (s.xsp - BitVec.ofNat 32 sz.bytes) = true → (s.opPart sz r').home ≠ .xsp →
    ∃ t u, exec (.pushReg sz r) s = .next t ∧ exec (.popReg sz r') t = .next u ∧
      u.readPart (s.opPart sz r') = s.readPart (s.opPart sz r) ∧ u.xsp = s.xsp ∧
      KeepsRegsExcept [s.opPart sz r'] s u

/-! ## Step, interrupts, reset (60_exceptions.md, 70_reset_and_hazards.md) -/

/-- A step runs the instruction whose bytes stand at PC, cut to the address pins, mapped and never stored to, when the
environment does nothing or presents nothing the mask lets in: it is exec of that instruction on the state with the event
used up. -/
def Obligations.StepRunsTheInstructionAtPc : Prop :=
  ∀ (i : Instr) (s : State), i.wellFormed = true →
    (∀ k < (encode i).length,
      (encode i)[k]? = some (s.mem.read (s.addr (s.pc + BitVec.ofNat 32 k))) ∧
        s.addr (s.pc + BitVec.ofNat 32 k) ∉ s.stored) →
    s.mapped .fetch (encode i).length s.pc = true →
    (s.env = [] → step s = exec i s) ∧
    (∀ rs rest, s.env = .present rs :: rest → s.accepted rs = none → step s = exec i { s with env := rest })

/-- A step takes the request the mask lets in before any instruction, and resets when the environment does (R165, R190;
log 18); so too at the boundary an entry or a reset leaves (log 36). -/
def Obligations.StepTakesEvents : Prop :=
  (∀ (s : State) (rs : List Request) (r : Request) (rest : List EnvEvent), s.env = .present rs :: rest →
    s.accepted rs = some r → step s = takeInterrupt r { s with env := rest }) ∧
  (∀ (s : State) (rest : List EnvEvent), s.env = .reset :: rest → step s = resetAction { s with env := rest })

/-- The request taken is one presented, let in, and of the highest level among those let in; none is taken exactly when
none is let in. A request is let in when its level is at least IFF, level 7 always (R164 PRESUMED, log 19; R166). -/
def Obligations.HighestRequestAccepted : Prop :=
  (∀ (s : State) (r : Request), s.letsIn r = true ↔ s.iff.toNat ≤ r.level.number ∨ r.level.number = 7) ∧
  (∀ (s : State) (rs : List Request) (r : Request), s.accepted rs = some r →
    r ∈ rs ∧ s.letsIn r = true ∧ ∀ q ∈ rs, s.letsIn q = true → q.level.number ≤ r.level.number) ∧
  (∀ (s : State) (rs : List Request), s.accepted rs = none ↔ ∀ q ∈ rs, s.letsIn q = false)

/-- Interrupt entry: PC and SR as they were on the stack, XSP down by six, IFF raised, INTNEST up, PC from the first
three bytes of the vector slot; F, RFP, MAX and every register but XSP stay (R167; PRESUMED, log 19). -/
def Obligations.InterruptEntry : Prop :=
  ∀ (r : Request) (s : State), s.MemInv → s.storable .l32 (s.xsp - 4#32) = true →
    s.storable .w16 (s.xsp - 6#32) = true →
    s.readable .l32 (s.product.vectorBase + BitVec.ofNat 32 (4 * r.slot.toNat)) = true →
    ∃ t, takeInterrupt r s = .next t ∧ t.xsp = s.xsp - 6#32 ∧
      t.valueAt .l32 (s.xsp - 4#32) = s.pc ∧ t.valueAt .w16 (s.xsp - 6#32) = s.srImage.setWidth 32 ∧
      t.iff.toNat = min (r.level.number + 1) 7 ∧ KeepsSrBut 12 14 s t ∧
      t.cr = { s.cr with intnest := s.cr.intnest + 1#16 } ∧
      t.pc = t.mem.vector s.product.addrBits (s.product.vectorBase + BitVec.ofNat 32 (4 * r.slot.toNat)) ∧
      KeepsRegsExcept [xspPart] s t ∧
      (∀ a : Addr, ¬ s.inAccess .l32 (s.xsp - 4#32) a → ¬ s.inAccess .w16 (s.xsp - 6#32) a →
        t.mem.read a = s.mem.read a) ∧
      t.fAlt = s.fAlt ∧ t.env = s.env ∧ t.product = s.product

/-- When an interrupt is received the mask is one higher than its level, and 111 for level 7 (R168). -/
def Obligations.MaskRaisedAboveLevel : Prop :=
  ∀ (r : Request) (s t : State), takeInterrupt r s = .next t →
    (r.level.number < 7 → t.iff.toNat = r.level.number + 1) ∧ (r.level.number = 7 → t.iff = 7#3)

/-- RETI at once after an interrupt entry returns to the previous status, RFP included: SR, PC, XSP, INTNEST and every
register are as they were (R111, R169; PRESUMED, log 19). -/
def Obligations.EntryThenRetiRestores : Prop :=
  ∀ (r : Request) (s t : State), s.Inv → takeInterrupt r s = .next t →
    ∃ u, exec .reti t = .next u ∧ u.sr = s.sr ∧ u.pc = s.pc ∧ (∀ h, u.getReg h = s.getReg h) ∧ u.cr = s.cr ∧
      u.fAlt = s.fAlt

/-- After reset XSP is 100H, MAX is 1, IFF is 111 and RFP is 000, and PC is the reset vector read from the vector base
address (R56). The same of `State.reset`. How three bytes make a vector is `Memory.vector`'s (PRESUMED, log 3 and log 14)
and is not said here. -/
def Obligations.ResetValues : Prop :=
  (∀ s : State, s.mapped .read 3 s.product.vectorBase = true → ∃ t, resetAction s = .next t ∧
    t.xsp = 0x100#32 ∧ t.sr.getLsbD 11 = true ∧ t.iff = 7#3 ∧ t.rfp = 0#3 ∧
    t.pc = s.mem.vector s.product.addrBits s.product.vectorBase) ∧
  State.reset.xsp = 0x100#32 ∧ State.reset.sr.getLsbD 11 = true ∧ State.reset.iff = 7#3 ∧ State.reset.rfp = 0#3 ∧
  State.reset.pc = State.reset.mem.vector State.reset.product.addrBits State.reset.product.vectorBase

/-- Bytes that are no row of the opcode table are refused, naming the address; nothing traps (R95, R160, D12). -/
def Obligations.UndecodableRefused : Prop :=
  ∀ (s : State) (e : DecodeError), s.env = [] → decode (s.fetchBytes 7 s.pc) = .error e → e ≠ .truncated →
    step s = .refused (.undecodable (s.addr s.pc) e)

/-- Program text is fixed: a store records its bytes, and an instruction one of whose bytes a store has touched is
refused (R70, D6; DESIGN CHOICE, log 9). -/
def Obligations.StoredTextRefused : Prop :=
  (∀ (s t : State) (sz : Size) (ea v : Word) (a : Addr), memWrite sz ea v s = .next t → s.inAccess sz ea a →
    a ∈ t.stored) ∧
  (∀ (s : State) (i : Instr) (k : Nat), s.env = [] → decode (s.fetchBytes 7 s.pc) = .ok i →
    k < i.length → s.addr (s.pc + BitVec.ofNat 32 k) ∈ s.stored → ∃ a, step s = .refused (.storedText a))

/-! ## The whole machine -/

/-- Every step keeps the invariant: SYSM and MAX are 1 and RFP2 is 0, memory and the stored addresses are in their
canonical form and memory inside the product's space, the control registers are those of the product's micro DMA channels
(R35, R37, R38, R60, R52). -/
def Obligations.StepKeepsInvariant : Prop :=
  ∀ s t : State, s.Inv → step s = .next t → t.Inv

/-- The invariant holds right after reset. -/
def Obligations.ResetMeetsInvariant : Prop := State.Inv State.reset

/-- F' is state of its own, and no instruction but EX reaches it (R46): EX F,F' switches F and F', and every other
instruction leaves F' as it was, whatever F' holds. -/
def Obligations.OnlyExReachesSecondFlags : Prop :=
  (∀ s : State, ∃ t, exec .exFF s = .next t ∧ t.f = s.fAlt ∧ t.fAlt = s.f) ∧
  (∀ (i : Instr) (s t : State), i ≠ .exFF → exec i s = .next t → t.fAlt = s.fAlt) ∧
  (∀ (i : Instr) (s t : State) (f' : Byte), i ≠ .exFF → exec i s = .next t →
    exec i { s with fAlt := f' } = .next { t with fAlt := f' })

/-- The writers of the fields of SR: RFP by LDF, INCF, DECF, RETI, POP SR; IFF by EI, RETI, POP SR; F by ADD, SUB, DAA, EX
F,F', POP F, POP SR, RETI (R38, R47); no other instruction changes them. -/
def Obligations.SrFieldWriters : Prop :=
  ∀ (i : Instr) (s t : State), exec i s = .next t →
    (i.writesRfp = false → t.rfp = s.rfp) ∧ (i.writesIff = false → t.iff = s.iff) ∧ (i.writesF = false → t.f = s.f)

/-- The control registers are reached only by LDC, but for the nesting counter that RETI counts down (R51, R53). -/
def Obligations.ControlRegisterWriters : Prop :=
  ∀ (i : Instr) (s t : State), exec i s = .next t →
    ((∀ sz r n, i ≠ .ldcCrR sz r n) → i ≠ .reti → t.cr = s.cr) ∧
    (i = .reti → t.cr.dma = s.cr.dma)

/-- Only PUSH, CALL, LD (reg),R, ADD (reg),R and SUB (reg),R store to memory. -/
def Obligations.OnlyStoringInstructionsWriteMemory : Prop :=
  ∀ (i : Instr) (s t : State), i.stores = false → exec i s = .next t → t.mem = s.mem ∧ t.stored = s.stored

/-- No step changes a byte that the memory map does not mark RAM: ROM, I/O and unmapped addresses read as before (R66,
D4; ROM log 7). -/
def Obligations.OnlyRamChanges : Prop :=
  ∀ (s t : State) (a : Addr), s.MemInv → step s = .next t → s.product.kindAt a ≠ some .ram →
    t.mem.read a = s.mem.read a

/-- A step uses up one event of the environment, and never changes the parameters of the product (R8, R9, R10; log 5,
log 18). So a run is observed only at END_PC, the one it started with, and one without an END_PC never (R178, D21;
log 35). -/
def Obligations.StepKeepsProduct : Prop :=
  (∀ s t : State, step s = .next t → t.product = s.product ∧ t.env = s.env.tail) ∧
  (∀ (n : Nat) (s t : State), observed n s = .next (some t) →
    t.product = s.product ∧ s.product.endPc = some (t.addr t.pc)) ∧
  (∀ (n : Nat) (s t : State), s.product.endPc = none → observed n s ≠ .next (some t))
end

