-- ==== Sys2Proof/Laws/Decode.lean ====
section
/-! SUPPORT. The stages of the decoder, each said once: register codes, the register prefix, constants
(30_encoding.md R89, R90, R92). -/

namespace Sys2Proof

theorem bitVec2_cases : ∀ k : BitVec 2, k = 0#2 ∨ k = 1#2 ∨ k = 2#2 ∨ k = 3#2 := by decide

theorem bitVec3_cases : ∀ k : BitVec 3,
    k = 0#3 ∨ k = 1#3 ∨ k = 2#3 ∨ k = 3#3 ∨ k = 4#3 ∨ k = 5#3 ∨ k = 6#3 ∨ k = 7#3 := by decide

/-- The code of a register names it (R90). -/
theorem LongReg.ofCode_code (c : LongReg) : LongReg.ofCode c.code = some c := by
  obtain ⟨f, r, l⟩ := c
  rcases bitVec2_cases r with rfl | rfl | rfl | rfl <;> rcases bitVec2_cases l with rfl | rfl | rfl | rfl <;>
    cases f with
    | abs b => rcases bitVec2_cases b with rfl | rfl | rfl | rfl <;> rfl
    | _ => rfl

/-- After a register prefix the decoder goes on with the operation byte (R89). -/
theorem decode_encodePrefix (sz : Size) (r : RegOp) (bs : List Byte) :
    decode (encodePrefix sz r ++ bs) = decodeRegOp sz r bs := by
  cases r with
  | short r => rcases bitVec3_cases r with rfl | rfl | rfl | rfl | rfl | rfl | rfl | rfl <;> cases sz <;> rfl
  | long c =>
    have h : decode (encodePrefix sz (.long c) ++ bs) = decodeLong sz (c.code :: bs) := by cases sz <;> rfl
    rw [h]
    simp only [decodeLong, LongReg.ofCode_code]

/-- A constant put together from its bytes is the constant (R92). -/
theorem le16_byteOf (n : Half) : le16 (byteOf 0 n) (byteOf 1 n) = n := by
  apply BitVec.eq_of_toNat_eq
  have h := n.isLt
  simp only [le16, byteOf, BitVec.toNat_append, BitVec.extractLsb'_toNat, Nat.shiftRight_eq_div_pow]
  rw [← Nat.shiftLeft_add_eq_or_of_lt (by omega), Nat.shiftLeft_eq]
  omega

theorem le24_byteOf (n : BitVec 24) : le24 (byteOf 0 n) (byteOf 1 n) (byteOf 2 n) = n := by
  apply BitVec.eq_of_toNat_eq
  have h := n.isLt
  simp only [le24, byteOf, BitVec.toNat_append, BitVec.extractLsb'_toNat, Nat.shiftRight_eq_div_pow]
  rw [← Nat.shiftLeft_add_eq_or_of_lt (by omega), ← Nat.shiftLeft_add_eq_or_of_lt (by omega),
    Nat.shiftLeft_eq, Nat.shiftLeft_eq]
  omega

theorem le32_byteOf (n : Word) : le32 (byteOf 0 n) (byteOf 1 n) (byteOf 2 n) (byteOf 3 n) = n := by
  apply BitVec.eq_of_toNat_eq
  have h := n.isLt
  simp only [le32, byteOf, BitVec.toNat_append, BitVec.extractLsb'_toNat, Nat.shiftRight_eq_div_pow]
  rw [← Nat.shiftLeft_add_eq_or_of_lt (by omega), ← Nat.shiftLeft_add_eq_or_of_lt (by omega),
    ← Nat.shiftLeft_add_eq_or_of_lt (by omega), Nat.shiftLeft_eq, Nat.shiftLeft_eq, Nat.shiftLeft_eq]
  omega

theorem decodeImm_encodeImm (mk : Imm → Instr) (n : Imm) (bs : List Byte) :
    decodeImm n.size mk (encodeImm n ++ bs) = .ok (mk n) := by
  cases n with
  | n8 n => rfl
  | n16 n => show Except.ok (mk (.n16 (le16 _ _))) = _; rw [le16_byteOf]
  | n32 n => show Except.ok (mk (.n32 (le32 _ _ _ _))) = _; rw [le32_byteOf]

/-- The bytes of the register prefix (R89). -/
@[simp] theorem encodePrefix_length (sz : Size) (r : RegOp) : (encodePrefix sz r).length = r.prefixLength := by
  cases r <;> rfl

@[simp] theorem encodeImm_length (n : Imm) : (encodeImm n).length = n.size.bytes := by cases n <;> rfl

/-! ## What the decoder read -/

theorem byte_of_toNat {b : Byte} {n : Nat} (h : b.toNat = n) : b = BitVec.ofNat 8 n := by
  apply BitVec.eq_of_toNat_eq
  subst h
  simp

/-- A byte is its high five bits and its low three. -/
theorem opByte_of_div (b : Byte) (k : Nat) (h : b.toNat / 8 = k) : opByte (BitVec.ofNat 5 k) (b.setWidth 3) = b := by
  subst h
  revert b
  decide +kernel

/-- A register has one code (R90). -/
theorem LongReg.code_of_ofCode {c : Byte} {r : LongReg} (h : LongReg.ofCode c = some r) : r.code = c := by
  have hall : ∀ c : Byte, ((LongReg.ofCode c).all fun r => r.code == c) = true := by decide +kernel
  have hc := hall c
  rw [h] at hc
  simpa using hc

theorem byteOf_le16 (b0 b1 : Byte) : byteOf 0 (le16 b0 b1) = b0 ∧ byteOf 1 (le16 b0 b1) = b1 := by
  have h0 := b0.isLt
  have h1 := b1.isLt
  constructor <;> apply BitVec.eq_of_toNat_eq <;>
    simp only [le16, byteOf, BitVec.toNat_append, BitVec.extractLsb'_toNat, Nat.shiftRight_eq_div_pow] <;>
    rw [← Nat.shiftLeft_add_eq_or_of_lt h0, Nat.shiftLeft_eq] <;> omega

theorem byteOf_le24 (b0 b1 b2 : Byte) :
    byteOf 0 (le24 b0 b1 b2) = b0 ∧ byteOf 1 (le24 b0 b1 b2) = b1 ∧ byteOf 2 (le24 b0 b1 b2) = b2 := by
  have h0 := b0.isLt
  have h1 := b1.isLt
  have h2 := b2.isLt
  refine ⟨?_, ?_, ?_⟩ <;> apply BitVec.eq_of_toNat_eq <;>
    simp only [le24, byteOf, BitVec.toNat_append, BitVec.extractLsb'_toNat, Nat.shiftRight_eq_div_pow] <;>
    rw [← Nat.shiftLeft_add_eq_or_of_lt h0, ← Nat.shiftLeft_add_eq_or_of_lt h1, Nat.shiftLeft_eq, Nat.shiftLeft_eq] <;>
    omega

theorem byteOf_le32 (b0 b1 b2 b3 : Byte) :
    byteOf 0 (le32 b0 b1 b2 b3) = b0 ∧ byteOf 1 (le32 b0 b1 b2 b3) = b1 ∧
      byteOf 2 (le32 b0 b1 b2 b3) = b2 ∧ byteOf 3 (le32 b0 b1 b2 b3) = b3 := by
  have h0 := b0.isLt
  have h1 := b1.isLt
  have h2 := b2.isLt
  have h3 := b3.isLt
  refine ⟨?_, ?_, ?_, ?_⟩ <;> apply BitVec.eq_of_toNat_eq <;>
    simp only [le32, byteOf, BitVec.toNat_append, BitVec.extractLsb'_toNat, Nat.shiftRight_eq_div_pow] <;>
    rw [← Nat.shiftLeft_add_eq_or_of_lt h0, ← Nat.shiftLeft_add_eq_or_of_lt h1, ← Nat.shiftLeft_add_eq_or_of_lt h2,
      Nat.shiftLeft_eq, Nat.shiftLeft_eq, Nat.shiftLeft_eq] <;>
    omega

/-- A constant read from the bytes stands in them (R92). -/
theorem decodeImm_spec {sz : Size} {mk : Imm → Instr} {bs : List Byte} {i : Instr} (h : decodeImm sz mk bs = .ok i) :
    ∃ n : Imm, n.size = sz ∧ i = mk n ∧ encodeImm n <+: bs := by
  cases sz with
  | b8 =>
    cases bs with
    | nil => cases h
    | cons n l => cases h; exact ⟨.n8 n, rfl, rfl, by simp [encodeImm]⟩
  | w16 =>
    simp only [decodeImm, decodeImm16] at h
    split at h
    · cases h; exact ⟨_, rfl, rfl, by simp [encodeImm, byteOf_le16]⟩
    · cases h
  | l32 =>
    simp only [decodeImm, decodeImm32] at h
    split at h
    · cases h; exact ⟨_, rfl, rfl, by simp [encodeImm, byteOf_le32]⟩
    · cases h

end Sys2Proof
end

