-- ==== Sys2Proof/Laws/Memory.lean ====
section
/-! SUPPORT. The laws of memory: reads after writes, the canonical form kept, loads after stores
(20_memory.md R60 to R65, R69). -/

namespace Sys2Proof.Machine

/-! ## One byte -/

theorem Memory.read_of_lt (m : Memory) (a : Nat) (h : ∀ c ∈ m, a < c.1) : m.read a = Config.blank := by
  induction m with
  | nil => rfl
  | cons c m ih =>
    have hc : a < c.1 := h c (by simp)
    have hne : a ≠ c.1 := by omega
    simp only [Memory.read, if_neg hne]
    exact ih (fun d hd => h d (by simp [hd]))

/-- A read after a write to the same address gives the byte written. -/
theorem Memory.read_write_self (m : Memory) (hm : Memory.wf m) (a : Nat) (b : Byte) : (m.write a b).read a = b := by
  induction m with
  | nil => by_cases h : b = Config.blank <;> simp [Memory.write, Memory.read, h]
  | cons c m ih =>
    obtain ⟨hp, hw⟩ := hm
    rw [List.pairwise_cons] at hp
    have ih' := ih ⟨hp.2, fun d hd => hw d (by simp [hd])⟩
    simp only [Memory.write]
    split
    · rename_i hlt
      split
      · rename_i hb
        rw [Memory.read_of_lt _ _ (fun d hd => ?_), hb]
        rcases List.mem_cons.mp hd with rfl | hd
        · exact hlt
        · exact Nat.lt_trans hlt (hp.1 d hd)
      · simp [Memory.read]
    · split
      · rename_i hlt heq
        split
        · rename_i hb
          rw [Memory.read_of_lt _ _ (fun d hd => by rw [heq]; exact hp.1 d hd), hb]
        · simp [Memory.read]
      · rename_i h1 h2
        simp [Memory.read, h2, ih']

/-- A write leaves every other address alone. -/
theorem Memory.read_write_ne (m : Memory) (a a' : Nat) (b : Byte) (hm : Memory.wf m) (hne : a' ≠ a) :
    (m.write a b).read a' = m.read a' := by
  induction m with
  | nil => by_cases h : b = Config.blank <;> simp [Memory.write, Memory.read, h, hne]
  | cons c m ih =>
    obtain ⟨hp, hw⟩ := hm
    rw [List.pairwise_cons] at hp
    have ih' := ih ⟨hp.2, fun d hd => hw d (by simp [hd])⟩
    simp only [Memory.write]
    split
    · split <;> simp [Memory.read, hne]
    · split
      · rename_i heq
        have hc : a' ≠ c.1 := by omega
        split <;> simp [Memory.read, hne, hc]
      · by_cases h : a' = c.1 <;> simp [Memory.read, h, ih']

theorem Memory.mem_write (m : Memory) (a : Nat) (b : Byte) (c : Host.Cell) (h : c ∈ m.write a b) :
    c ∈ m ∨ (c = (a, b) ∧ b ≠ Config.blank) := by
  induction m with
  | nil =>
    by_cases hb : b = Config.blank
    · simp [Memory.write, hb] at h
    · simp [Memory.write, hb] at h
      exact .inr ⟨h, hb⟩
  | cons d m ih =>
    simp only [Memory.write] at h
    split at h
    · split at h
      · exact .inl h
      · rcases List.mem_cons.mp h with rfl | h
        · exact .inr ⟨rfl, ‹_›⟩
        · exact .inl h
    · split at h
      · split at h
        · exact .inl (by simp [h])
        · rcases List.mem_cons.mp h with rfl | h
          · exact .inr ⟨rfl, ‹_›⟩
          · exact .inl (by simp [h])
      · rcases List.mem_cons.mp h with rfl | h
        · exact .inl (by simp)
        · rcases ih h with h | h
          · exact .inl (by simp [h])
          · exact .inr h

/-- A write keeps the canonical form. -/
theorem Memory.wf_write (m : Memory) (a : Nat) (b : Byte) (hm : Memory.wf m) : Memory.wf (m.write a b) := by
  refine ⟨?_, fun c hc => ?_⟩
  · obtain ⟨hp, -⟩ := hm
    induction m with
    | nil => by_cases h : b = Config.blank <;> simp [Memory.write, h]
    | cons d m ih =>
      rw [List.pairwise_cons] at hp
      have ih' := ih hp.2
      simp only [Memory.write]
      split
      · rename_i hlt
        split
        · exact List.pairwise_cons.mpr hp
        · refine List.pairwise_cons.mpr ⟨fun c hc => ?_, List.pairwise_cons.mpr hp⟩
          rcases List.mem_cons.mp hc with rfl | hc
          · exact hlt
          · exact Nat.lt_trans hlt (hp.1 c hc)
      · split
        · rename_i heq
          split
          · exact hp.2
          · exact List.pairwise_cons.mpr ⟨fun c hc => by simpa [heq] using hp.1 c hc, hp.2⟩
        · rename_i h1 h2
          refine List.pairwise_cons.mpr ⟨fun c hc => ?_, ih'⟩
          rcases Memory.mem_write m a b c hc with hc | ⟨rfl, -⟩
          · exact hp.1 c hc
          · simp only; omega
  · rcases Memory.mem_write m a b c hc with hc | ⟨rfl, hb⟩
    · exact hm.2 c hc
    · exact hb

/-- A write inside the space keeps memory inside it. -/
theorem Memory.inside_write (bits : Nat) (m : Memory) (a : Nat) (b : Byte) (ha : a < 2 ^ bits)
    (hm : Memory.inside bits m) : Memory.inside bits (m.write a b) := fun c hc => by
  rcases Memory.mem_write m a b c hc with hc | ⟨rfl, -⟩
  · exact hm c hc
  · exact ha

/-! ## Addresses (20_memory.md R61) -/

theorem cut_lt (bits : Nat) (ea : Word) : cut bits ea < 2 ^ bits := Nat.mod_lt _ (Nat.two_pow_pos _)

/-- With at most 32 address pins, counting up in 32 bits and then cutting is counting up in the space. -/
theorem cut_add (bits : Nat) (hb : bits ≤ 32) (ea : Word) (k : Nat) :
    cut bits (ea + BitVec.ofNat 32 k) = (ea.toNat + k) % 2 ^ bits := by
  rw [cut, BitVec.toNat_add, BitVec.toNat_ofNat, Nat.add_mod_mod, Nat.mod_mod_of_dvd _ (Nat.pow_dvd_pow 2 hb)]

theorem add_one_ofNat (ea : Word) (k : Nat) : ea + 1#32 + BitVec.ofNat 32 k = ea + BitVec.ofNat 32 (k + 1) := by
  rw [BitVec.add_assoc, Nat.add_comm k 1, BitVec.ofNat_add]

/-- Two bytes less than the space apart have two addresses. -/
theorem cut_add_inj (bits : Nat) (hb : bits ≤ 32) (ea : Word) (k l : Nat) (hkl : k < l) (hl : l < k + 2 ^ bits) :
    cut bits (ea + BitVec.ofNat 32 k) ≠ cut bits (ea + BitVec.ofNat 32 l) := by
  rw [cut_add bits hb, cut_add bits hb]
  intro h
  have hd : 2 ^ bits ∣ l - k := by
    have h' := (Nat.modEq_iff_dvd' (by omega : ea.toNat + k ≤ ea.toNat + l)).mp h
    rwa [Nat.add_sub_add_left] at h'
  exact absurd (Nat.le_of_dvd (by omega) hd) (by omega)

/-- The `n` bytes from `ea` upward are the byte at `ea` and the `n - 1` above it. -/
theorem forall_lt_succ_addr {P : Word → Prop} (n : Nat) (ea : Word) :
    (∀ k < n + 1, P (ea + BitVec.ofNat 32 k)) ↔ P ea ∧ ∀ k < n, P (ea + 1#32 + BitVec.ofNat 32 k) := by
  constructor
  · intro h
    refine ⟨by simpa using h 0 (by omega), fun k hk => ?_⟩
    rw [add_one_ofNat]
    exact h (k + 1) (by omega)
  · rintro ⟨h0, h⟩ k hk
    cases k with
    | zero => simpa using h0
    | succ k =>
      rw [← add_one_ofNat]
      exact h k (by omega)

/-! ## Several bytes -/

theorem Memory.wf_store (bits n : Nat) :
    ∀ (m : Memory) (ea : Word) (v : Nat), Memory.wf m → Memory.wf (m.store bits n ea v) := by
  induction n with
  | zero => exact fun _ _ _ h => h
  | succ n ih => exact fun m ea v h => ih _ _ _ (Memory.wf_write m _ _ h)

theorem Memory.inside_store (bits n : Nat) :
    ∀ (m : Memory) (ea : Word) (v : Nat), Memory.inside bits m → Memory.inside bits (m.store bits n ea v) := by
  induction n with
  | zero => exact fun _ _ _ h => h
  | succ n ih => exact fun m ea v h => ih _ _ _ (Memory.inside_write bits m _ _ (cut_lt bits ea) h)

theorem Memory.wf_place (bits : Nat) (bs : List Byte) :
    ∀ (m : Memory) (ea : Word), Memory.wf m → Memory.wf (m.place bits ea bs) := by
  induction bs with
  | nil => exact fun _ _ h => h
  | cons b bs ih => exact fun m ea h => ih _ _ (Memory.wf_write m _ _ h)

theorem Memory.inside_place (bits : Nat) (bs : List Byte) :
    ∀ (m : Memory) (ea : Word), Memory.inside bits m → Memory.inside bits (m.place bits ea bs) := by
  induction bs with
  | nil => exact fun _ _ h => h
  | cons b bs ih => exact fun m ea h => ih _ _ (Memory.inside_write bits m _ _ (cut_lt bits ea) h)

/-- A store leaves every byte outside its range alone. -/
theorem Memory.read_store_outside (bits n : Nat) : ∀ (m : Memory) (ea : Word) (v : Nat) (a : Addr), Memory.wf m →
    (∀ k < n, a ≠ cut bits (ea + BitVec.ofNat 32 k)) → (m.store bits n ea v).read a = m.read a := by
  induction n with
  | zero => exact fun _ _ _ _ _ _ => rfl
  | succ n ih =>
    intro m ea v a hm ha
    obtain ⟨h0, h⟩ := (forall_lt_succ_addr (P := fun x => a ≠ cut bits x) n ea).mp ha
    rw [Memory.store, ih _ _ _ _ (Memory.wf_write m _ _ hm) h, Memory.read_write_ne _ _ _ _ hm h0]

/-- A load looks only at its range. -/
theorem Memory.load_congr (bits n : Nat) : ∀ (m m' : Memory) (ea : Word),
    (∀ k < n, m'.read (cut bits (ea + BitVec.ofNat 32 k)) = m.read (cut bits (ea + BitVec.ofNat 32 k))) →
    m'.load bits n ea = m.load bits n ea := by
  induction n with
  | zero => exact fun _ _ _ _ => rfl
  | succ n ih =>
    intro m m' ea h
    obtain ⟨h0, h⟩ := (forall_lt_succ_addr (P := fun x => m'.read (cut bits x) = m.read (cut bits x)) n ea).mp h
    rw [Memory.load, Memory.load, h0, ih m m' _ h]

/-- A load after a store of the same range gives the value stored, narrowed to the range (R62, R69). -/
theorem Memory.load_store_self (bits : Nat) (hb : bits ≤ 32) (n : Nat) : ∀ (m : Memory) (ea : Word) (v : Nat),
    Memory.wf m → n ≤ 2 ^ bits → (m.store bits n ea v).load bits n ea = v % 256 ^ n := by
  induction n with
  | zero => intro m ea v _ _; simp [Memory.load, Nat.mod_one]
  | succ n ih =>
    intro m ea v hm hn
    have hw := Memory.wf_write m (cut bits ea) (BitVec.ofNat 8 v) hm
    have hout : ∀ k < n, cut bits ea ≠ cut bits (ea + 1#32 + BitVec.ofNat 32 k) := by
      intro k hk
      have h := cut_add_inj bits hb ea 0 (k + 1) (by omega) (by omega)
      rwa [BitVec.add_zero, ← add_one_ofNat] at h
    rw [Memory.load, Memory.store, ih _ _ _ hw (by omega), Memory.read_store_outside _ n _ _ _ _ hw hout,
      Memory.read_write_self m hm, BitVec.toNat_ofNat, show (256 : Nat) ^ (n + 1) = 256 * 256 ^ n from Nat.pow_succ',
      Nat.mod_mul]

theorem Memory.load_lt (bits n : Nat) : ∀ (m : Memory) (ea : Word), m.load bits n ea < 256 ^ n := by
  induction n with
  | zero => intro m ea; simp [Memory.load]
  | succ n ih =>
    intro m ea
    have h1 := ih m (ea + 1#32)
    have h2 := (m.read (cut bits ea)).isLt
    rw [Nat.pow_succ, Memory.load]
    omega

/-- A load of `n + 1` bytes is the byte at the lowest address and the bytes above it (R62). -/
theorem Memory.load_succ (m : Memory) (bits n : Nat) (ea : Word) :
    m.load bits (n + 1) ea = (m.read (cut bits ea)).toNat + 256 * m.load bits n (ea + 1#32) := rfl

/-! ## The set of stored addresses -/

theorem AddrSet.mem_insert (l : AddrSet) (a x : Nat) : x ∈ l.insert a ↔ x = a ∨ x ∈ l := by
  induction l with
  | nil => simp [AddrSet.insert]
  | cons y l ih =>
    simp only [AddrSet.insert]
    split
    · simp
    · split
      · rename_i h; subst h; simp
      · simp [ih]
        constructor
        · rintro (h | h | h) <;> simp [h]
        · rintro (h | h | h) <;> simp [h]

theorem AddrSet.wf_insert (l : AddrSet) (a : Nat) (h : AddrSet.wf l) : AddrSet.wf (l.insert a) := by
  induction l with
  | nil => simp [AddrSet.insert, AddrSet.wf]
  | cons y l ih =>
    have hp := List.pairwise_cons.mp h
    simp only [AddrSet.insert]
    split
    · rename_i hlt
      refine List.pairwise_cons.mpr ⟨fun x hx => ?_, h⟩
      rcases List.mem_cons.mp hx with rfl | hx
      · exact hlt
      · exact Nat.lt_trans hlt (hp.1 x hx)
    · split
      · exact h
      · refine List.pairwise_cons.mpr ⟨fun x hx => ?_, ih hp.2⟩
        rcases (AddrSet.mem_insert l a x).mp hx with rfl | hx
        · omega
        · exact hp.1 x hx

theorem AddrSet.wf_insertRange (bits n : Nat) :
    ∀ (l : AddrSet) (ea : Word), AddrSet.wf l → AddrSet.wf (l.insertRange bits n ea) := by
  induction n with
  | zero => exact fun _ _ h => h
  | succ n ih => exact fun l ea h => ih _ _ (AddrSet.wf_insert l _ h)

/-- Exactly the addresses of the range are added. -/
theorem AddrSet.mem_insertRange (bits n : Nat) : ∀ (l : AddrSet) (ea : Word) (a : Addr),
    a ∈ l.insertRange bits n ea ↔ (∃ k < n, a = cut bits (ea + BitVec.ofNat 32 k)) ∨ a ∈ l := by
  induction n with
  | zero => intro l ea a; simp [AddrSet.insertRange]
  | succ n ih =>
    intro l ea a
    have h := (forall_lt_succ_addr (P := fun x => a ≠ cut bits x) n ea)
    rw [AddrSet.insertRange, ih, AddrSet.mem_insert]
    rw [← not_iff_not, not_or, not_or, not_or]
    simp only [not_exists, not_and] at h ⊢
    rw [h, and_assoc, and_left_comm]

theorem AddrSet.wf_eraseRange (bits n : Nat) :
    ∀ (l : AddrSet) (ea : Word), AddrSet.wf l → AddrSet.wf (l.eraseRange bits n ea) := by
  induction n with
  | zero => exact fun _ _ h => h
  | succ n ih => exact fun l ea h => ih _ _ (List.Pairwise.filter _ h)

end Sys2Proof.Machine
end

