-- ==== Sys2Proof/Laws/State.lean ====
section
/-! SUPPORT. One lemma per field per update of State, so that no proof unfolds a record update. -/

namespace Sys2Proof.Machine

variable (s : State)

/-! `setReg` -/

@[simp] theorem State.setReg_pc (h : Home) (v : Word) : (s.setReg h v).pc = s.pc := by cases h <;> rfl
@[simp] theorem State.setReg_sr (h : Home) (v : Word) : (s.setReg h v).sr = s.sr := by cases h <;> rfl
@[simp] theorem State.setReg_fAlt (h : Home) (v : Word) : (s.setReg h v).fAlt = s.fAlt := by cases h <;> rfl
@[simp] theorem State.setReg_cr (h : Home) (v : Word) : (s.setReg h v).cr = s.cr := by cases h <;> rfl
@[simp] theorem State.setReg_mem (h : Home) (v : Word) : (s.setReg h v).mem = s.mem := by cases h <;> rfl
@[simp] theorem State.setReg_stored (h : Home) (v : Word) : (s.setReg h v).stored = s.stored := by cases h <;> rfl
@[simp] theorem State.setReg_draws (h : Home) (v : Word) : (s.setReg h v).draws = s.draws := by cases h <;> rfl
@[simp] theorem State.setReg_env (h : Home) (v : Word) : (s.setReg h v).env = s.env := by cases h <;> rfl
@[simp] theorem State.setReg_product (h : Home) (v : Word) : (s.setReg h v).product = s.product := by cases h <;> rfl

/-! `writePart` -/

@[simp] theorem State.writePart_pc (p : Part) (v : Word) : (s.writePart p v).pc = s.pc := by simp [State.writePart]
@[simp] theorem State.writePart_sr (p : Part) (v : Word) : (s.writePart p v).sr = s.sr := by simp [State.writePart]
@[simp] theorem State.writePart_fAlt (p : Part) (v : Word) : (s.writePart p v).fAlt = s.fAlt := by simp [State.writePart]
@[simp] theorem State.writePart_cr (p : Part) (v : Word) : (s.writePart p v).cr = s.cr := by simp [State.writePart]
@[simp] theorem State.writePart_mem (p : Part) (v : Word) : (s.writePart p v).mem = s.mem := by simp [State.writePart]
@[simp] theorem State.writePart_stored (p : Part) (v : Word) : (s.writePart p v).stored = s.stored := by simp [State.writePart]
@[simp] theorem State.writePart_draws (p : Part) (v : Word) : (s.writePart p v).draws = s.draws := by simp [State.writePart]
@[simp] theorem State.writePart_env (p : Part) (v : Word) : (s.writePart p v).env = s.env := by simp [State.writePart]
@[simp] theorem State.writePart_product (p : Part) (v : Word) : (s.writePart p v).product = s.product := by simp [State.writePart]

/-! `setF` -/

@[simp] theorem State.setF_banks (f : Byte) : (s.setF f).banks = s.banks := rfl
@[simp] theorem State.setF_xix (f : Byte) : (s.setF f).xix = s.xix := rfl
@[simp] theorem State.setF_xiy (f : Byte) : (s.setF f).xiy = s.xiy := rfl
@[simp] theorem State.setF_xiz (f : Byte) : (s.setF f).xiz = s.xiz := rfl
@[simp] theorem State.setF_xsp (f : Byte) : (s.setF f).xsp = s.xsp := rfl
@[simp] theorem State.setF_pc (f : Byte) : (s.setF f).pc = s.pc := rfl
@[simp] theorem State.setF_fAlt (f : Byte) : (s.setF f).fAlt = s.fAlt := rfl
@[simp] theorem State.setF_cr (f : Byte) : (s.setF f).cr = s.cr := rfl
@[simp] theorem State.setF_mem (f : Byte) : (s.setF f).mem = s.mem := rfl
@[simp] theorem State.setF_stored (f : Byte) : (s.setF f).stored = s.stored := rfl
@[simp] theorem State.setF_draws (f : Byte) : (s.setF f).draws = s.draws := rfl
@[simp] theorem State.setF_env (f : Byte) : (s.setF f).env = s.env := rfl
@[simp] theorem State.setF_product (f : Byte) : (s.setF f).product = s.product := rfl
@[simp] theorem State.setF_getReg (f : Byte) (h : Home) : (s.setF f).getReg h = s.getReg h := by cases h <;> rfl

/-! `setIff` -/

@[simp] theorem State.setIff_banks (l : BitVec 3) : (s.setIff l).banks = s.banks := rfl
@[simp] theorem State.setIff_xix (l : BitVec 3) : (s.setIff l).xix = s.xix := rfl
@[simp] theorem State.setIff_xiy (l : BitVec 3) : (s.setIff l).xiy = s.xiy := rfl
@[simp] theorem State.setIff_xiz (l : BitVec 3) : (s.setIff l).xiz = s.xiz := rfl
@[simp] theorem State.setIff_xsp (l : BitVec 3) : (s.setIff l).xsp = s.xsp := rfl
@[simp] theorem State.setIff_pc (l : BitVec 3) : (s.setIff l).pc = s.pc := rfl
@[simp] theorem State.setIff_fAlt (l : BitVec 3) : (s.setIff l).fAlt = s.fAlt := rfl
@[simp] theorem State.setIff_cr (l : BitVec 3) : (s.setIff l).cr = s.cr := rfl
@[simp] theorem State.setIff_mem (l : BitVec 3) : (s.setIff l).mem = s.mem := rfl
@[simp] theorem State.setIff_stored (l : BitVec 3) : (s.setIff l).stored = s.stored := rfl
@[simp] theorem State.setIff_draws (l : BitVec 3) : (s.setIff l).draws = s.draws := rfl
@[simp] theorem State.setIff_env (l : BitVec 3) : (s.setIff l).env = s.env := rfl
@[simp] theorem State.setIff_product (l : BitVec 3) : (s.setIff l).product = s.product := rfl
@[simp] theorem State.setIff_getReg (l : BitVec 3) (h : Home) : (s.setIff l).getReg h = s.getReg h := by cases h <;> rfl

/-! `setBank` -/

@[simp] theorem State.setBank_banks (b : BitVec 2) : (s.setBank b).banks = s.banks := rfl
@[simp] theorem State.setBank_xix (b : BitVec 2) : (s.setBank b).xix = s.xix := rfl
@[simp] theorem State.setBank_xiy (b : BitVec 2) : (s.setBank b).xiy = s.xiy := rfl
@[simp] theorem State.setBank_xiz (b : BitVec 2) : (s.setBank b).xiz = s.xiz := rfl
@[simp] theorem State.setBank_xsp (b : BitVec 2) : (s.setBank b).xsp = s.xsp := rfl
@[simp] theorem State.setBank_pc (b : BitVec 2) : (s.setBank b).pc = s.pc := rfl
@[simp] theorem State.setBank_fAlt (b : BitVec 2) : (s.setBank b).fAlt = s.fAlt := rfl
@[simp] theorem State.setBank_cr (b : BitVec 2) : (s.setBank b).cr = s.cr := rfl
@[simp] theorem State.setBank_mem (b : BitVec 2) : (s.setBank b).mem = s.mem := rfl
@[simp] theorem State.setBank_stored (b : BitVec 2) : (s.setBank b).stored = s.stored := rfl
@[simp] theorem State.setBank_draws (b : BitVec 2) : (s.setBank b).draws = s.draws := rfl
@[simp] theorem State.setBank_env (b : BitVec 2) : (s.setBank b).env = s.env := rfl
@[simp] theorem State.setBank_product (b : BitVec 2) : (s.setBank b).product = s.product := rfl
@[simp] theorem State.setBank_getReg (b : BitVec 2) (h : Home) : (s.setBank b).getReg h = s.getReg h := by cases h <;> rfl

/-! `setIntnest` -/

@[simp] theorem State.setIntnest_banks (v : Half) : (s.setIntnest v).banks = s.banks := rfl
@[simp] theorem State.setIntnest_xix (v : Half) : (s.setIntnest v).xix = s.xix := rfl
@[simp] theorem State.setIntnest_xiy (v : Half) : (s.setIntnest v).xiy = s.xiy := rfl
@[simp] theorem State.setIntnest_xiz (v : Half) : (s.setIntnest v).xiz = s.xiz := rfl
@[simp] theorem State.setIntnest_xsp (v : Half) : (s.setIntnest v).xsp = s.xsp := rfl
@[simp] theorem State.setIntnest_pc (v : Half) : (s.setIntnest v).pc = s.pc := rfl
@[simp] theorem State.setIntnest_sr (v : Half) : (s.setIntnest v).sr = s.sr := rfl
@[simp] theorem State.setIntnest_fAlt (v : Half) : (s.setIntnest v).fAlt = s.fAlt := rfl
@[simp] theorem State.setIntnest_mem (v : Half) : (s.setIntnest v).mem = s.mem := rfl
@[simp] theorem State.setIntnest_stored (v : Half) : (s.setIntnest v).stored = s.stored := rfl
@[simp] theorem State.setIntnest_draws (v : Half) : (s.setIntnest v).draws = s.draws := rfl
@[simp] theorem State.setIntnest_env (v : Half) : (s.setIntnest v).env = s.env := rfl
@[simp] theorem State.setIntnest_product (v : Half) : (s.setIntnest v).product = s.product := rfl
@[simp] theorem State.setIntnest_getReg (v : Half) (h : Home) : (s.setIntnest v).getReg h = s.getReg h := by cases h <;> rfl

/-! `setCr` -/

@[simp] theorem State.setCr_banks (c : CtrlReg) (v : Word) : (s.setCr c v).banks = s.banks := by cases c <;> rfl
@[simp] theorem State.setCr_xix (c : CtrlReg) (v : Word) : (s.setCr c v).xix = s.xix := by cases c <;> rfl
@[simp] theorem State.setCr_xiy (c : CtrlReg) (v : Word) : (s.setCr c v).xiy = s.xiy := by cases c <;> rfl
@[simp] theorem State.setCr_xiz (c : CtrlReg) (v : Word) : (s.setCr c v).xiz = s.xiz := by cases c <;> rfl
@[simp] theorem State.setCr_xsp (c : CtrlReg) (v : Word) : (s.setCr c v).xsp = s.xsp := by cases c <;> rfl
@[simp] theorem State.setCr_pc (c : CtrlReg) (v : Word) : (s.setCr c v).pc = s.pc := by cases c <;> rfl
@[simp] theorem State.setCr_sr (c : CtrlReg) (v : Word) : (s.setCr c v).sr = s.sr := by cases c <;> rfl
@[simp] theorem State.setCr_fAlt (c : CtrlReg) (v : Word) : (s.setCr c v).fAlt = s.fAlt := by cases c <;> rfl
@[simp] theorem State.setCr_mem (c : CtrlReg) (v : Word) : (s.setCr c v).mem = s.mem := by cases c <;> rfl
@[simp] theorem State.setCr_stored (c : CtrlReg) (v : Word) : (s.setCr c v).stored = s.stored := by cases c <;> rfl
@[simp] theorem State.setCr_draws (c : CtrlReg) (v : Word) : (s.setCr c v).draws = s.draws := by cases c <;> rfl
@[simp] theorem State.setCr_env (c : CtrlReg) (v : Word) : (s.setCr c v).env = s.env := by cases c <;> rfl
@[simp] theorem State.setCr_product (c : CtrlReg) (v : Word) : (s.setCr c v).product = s.product := by cases c <;> rfl
@[simp] theorem State.setCr_getReg (c : CtrlReg) (v : Word) (h : Home) : (s.setCr c v).getReg h = s.getReg h := by cases c <;> cases h <;> rfl

/-! `advance` -/

@[simp] theorem State.advance_banks (n : Nat) : (s.advance n).banks = s.banks := rfl
@[simp] theorem State.advance_xix (n : Nat) : (s.advance n).xix = s.xix := rfl
@[simp] theorem State.advance_xiy (n : Nat) : (s.advance n).xiy = s.xiy := rfl
@[simp] theorem State.advance_xiz (n : Nat) : (s.advance n).xiz = s.xiz := rfl
@[simp] theorem State.advance_xsp (n : Nat) : (s.advance n).xsp = s.xsp := rfl
@[simp] theorem State.advance_sr (n : Nat) : (s.advance n).sr = s.sr := rfl
@[simp] theorem State.advance_fAlt (n : Nat) : (s.advance n).fAlt = s.fAlt := rfl
@[simp] theorem State.advance_cr (n : Nat) : (s.advance n).cr = s.cr := rfl
@[simp] theorem State.advance_mem (n : Nat) : (s.advance n).mem = s.mem := rfl
@[simp] theorem State.advance_stored (n : Nat) : (s.advance n).stored = s.stored := rfl
@[simp] theorem State.advance_draws (n : Nat) : (s.advance n).draws = s.draws := rfl
@[simp] theorem State.advance_env (n : Nat) : (s.advance n).env = s.env := rfl
@[simp] theorem State.advance_product (n : Nat) : (s.advance n).product = s.product := rfl
@[simp] theorem State.advance_getReg (n : Nat) (h : Home) : (s.advance n).getReg h = s.getReg h := by cases h <;> rfl

/-! `storeBytes` -/

@[simp] theorem State.storeBytes_banks (n : Nat) (ea : Word) (v : Word) : (s.storeBytes n ea v).banks = s.banks := rfl
@[simp] theorem State.storeBytes_xix (n : Nat) (ea : Word) (v : Word) : (s.storeBytes n ea v).xix = s.xix := rfl
@[simp] theorem State.storeBytes_xiy (n : Nat) (ea : Word) (v : Word) : (s.storeBytes n ea v).xiy = s.xiy := rfl
@[simp] theorem State.storeBytes_xiz (n : Nat) (ea : Word) (v : Word) : (s.storeBytes n ea v).xiz = s.xiz := rfl
@[simp] theorem State.storeBytes_xsp (n : Nat) (ea : Word) (v : Word) : (s.storeBytes n ea v).xsp = s.xsp := rfl
@[simp] theorem State.storeBytes_pc (n : Nat) (ea : Word) (v : Word) : (s.storeBytes n ea v).pc = s.pc := rfl
@[simp] theorem State.storeBytes_sr (n : Nat) (ea : Word) (v : Word) : (s.storeBytes n ea v).sr = s.sr := rfl
@[simp] theorem State.storeBytes_fAlt (n : Nat) (ea : Word) (v : Word) : (s.storeBytes n ea v).fAlt = s.fAlt := rfl
@[simp] theorem State.storeBytes_cr (n : Nat) (ea : Word) (v : Word) : (s.storeBytes n ea v).cr = s.cr := rfl
@[simp] theorem State.storeBytes_draws (n : Nat) (ea : Word) (v : Word) : (s.storeBytes n ea v).draws = s.draws := rfl
@[simp] theorem State.storeBytes_env (n : Nat) (ea : Word) (v : Word) : (s.storeBytes n ea v).env = s.env := rfl
@[simp] theorem State.storeBytes_product (n : Nat) (ea : Word) (v : Word) : (s.storeBytes n ea v).product = s.product := rfl
@[simp] theorem State.storeBytes_getReg (n : Nat) (ea : Word) (v : Word) (h : Home) : (s.storeBytes n ea v).getReg h = s.getReg h := by cases h <;> rfl

/-! `setFlags` -/

@[simp] theorem State.setFlags_banks (fl : Flags) : (s.setFlags fl).banks = s.banks := rfl
@[simp] theorem State.setFlags_xix (fl : Flags) : (s.setFlags fl).xix = s.xix := rfl
@[simp] theorem State.setFlags_xiy (fl : Flags) : (s.setFlags fl).xiy = s.xiy := rfl
@[simp] theorem State.setFlags_xiz (fl : Flags) : (s.setFlags fl).xiz = s.xiz := rfl
@[simp] theorem State.setFlags_xsp (fl : Flags) : (s.setFlags fl).xsp = s.xsp := rfl
@[simp] theorem State.setFlags_pc (fl : Flags) : (s.setFlags fl).pc = s.pc := rfl
@[simp] theorem State.setFlags_fAlt (fl : Flags) : (s.setFlags fl).fAlt = s.fAlt := rfl
@[simp] theorem State.setFlags_cr (fl : Flags) : (s.setFlags fl).cr = s.cr := rfl
@[simp] theorem State.setFlags_mem (fl : Flags) : (s.setFlags fl).mem = s.mem := rfl
@[simp] theorem State.setFlags_stored (fl : Flags) : (s.setFlags fl).stored = s.stored := rfl
@[simp] theorem State.setFlags_env (fl : Flags) : (s.setFlags fl).env = s.env := rfl
@[simp] theorem State.setFlags_product (fl : Flags) : (s.setFlags fl).product = s.product := rfl
@[simp] theorem State.setFlags_getReg (fl : Flags) (h : Home) : (s.setFlags fl).getReg h = s.getReg h := by cases h <;> rfl

/-! `dropEvent` -/

@[simp] theorem State.dropEvent_banks : s.dropEvent.banks = s.banks := rfl
@[simp] theorem State.dropEvent_xix : s.dropEvent.xix = s.xix := rfl
@[simp] theorem State.dropEvent_xiy : s.dropEvent.xiy = s.xiy := rfl
@[simp] theorem State.dropEvent_xiz : s.dropEvent.xiz = s.xiz := rfl
@[simp] theorem State.dropEvent_xsp : s.dropEvent.xsp = s.xsp := rfl
@[simp] theorem State.dropEvent_pc : s.dropEvent.pc = s.pc := rfl
@[simp] theorem State.dropEvent_sr : s.dropEvent.sr = s.sr := rfl
@[simp] theorem State.dropEvent_fAlt : s.dropEvent.fAlt = s.fAlt := rfl
@[simp] theorem State.dropEvent_cr : s.dropEvent.cr = s.cr := rfl
@[simp] theorem State.dropEvent_mem : s.dropEvent.mem = s.mem := rfl
@[simp] theorem State.dropEvent_stored : s.dropEvent.stored = s.stored := rfl
@[simp] theorem State.dropEvent_draws : s.dropEvent.draws = s.draws := rfl
@[simp] theorem State.dropEvent_product : s.dropEvent.product = s.product := rfl
@[simp] theorem State.dropEvent_getReg (h : Home) : s.dropEvent.getReg h = s.getReg h := by cases h <;> rfl

/-! Updates that set a field to a value -/

@[simp] theorem State.advance_pc (n : Nat) : (s.advance n).pc = s.pc + BitVec.ofNat 32 n := rfl
@[simp] theorem State.setIntnest_intnest (v : Half) : (s.setIntnest v).cr.intnest = v := rfl
@[simp] theorem State.setCr_intnest (v : Word) : (s.setCr .intnest v).cr.intnest = v.setWidth 16 := rfl
@[simp] theorem State.setFlags_draws (fl : Flags) : (s.setFlags fl).draws = s.draws + 3 := rfl
@[simp] theorem State.storeBytes_mem (n : Nat) (ea : Word) (v : Word) :
    (s.storeBytes n ea v).mem = s.mem.store s.product.addrBits n ea v.toNat := rfl
@[simp] theorem State.storeBytes_stored (n : Nat) (ea : Word) (v : Word) :
    (s.storeBytes n ea v).stored = s.stored.insertRange s.product.addrBits n ea := rfl
@[simp] theorem State.dropEvent_env : s.dropEvent.env = s.env.tail := rfl

/-! Plain record updates seen through `getReg` -/

@[simp] theorem State.getReg_with_pc (v : Word) (h : Home) : ({ s with pc := v } : State).getReg h = s.getReg h := by
  cases h <;> rfl
@[simp] theorem State.getReg_with_sr (v : Half) (h : Home) : ({ s with sr := v } : State).getReg h = s.getReg h := by
  cases h <;> rfl
@[simp] theorem State.getReg_with_fAlt (v : Byte) (h : Home) :
    ({ s with fAlt := v } : State).getReg h = s.getReg h := by cases h <;> rfl
@[simp] theorem State.getReg_with_xsp_self (v : Word) : ({ s with xsp := v } : State).getReg .xsp = v := rfl

end Sys2Proof.Machine
end

