-- ==== Sys2Proof/Laws/Registers.lean ====
section
/-! SUPPORT. What reading and writing registers and their parts does (10_state.md R20 to R25), said once. -/

namespace Sys2Proof

theorem Size.bits_eq (sz : Size) : sz.bits = 8 * sz.bytes := by cases sz <;> rfl

theorem Size.bits_le (sz : Size) : sz.bits ≤ 32 := by cases sz <;> decide

theorem Size.bytes_le (sz : Size) : sz.bytes ≤ 4 := by cases sz <;> decide

theorem Size.mask_eq (sz : Size) : sz.mask.toNat = 2 ^ sz.bits - 1 := by cases sz <;> rfl

theorem Size.mask_getLsbD (sz : Size) (i : Nat) : sz.mask.getLsbD i = decide (i < sz.bits) := by
  rw [← BitVec.testBit_toNat, Size.mask_eq, Nat.testBit_two_pow_sub_one]

/-- Masking narrows to the size. -/
theorem Size.toNat_and_mask (sz : Size) (v : Word) : (v &&& sz.mask).toNat = v.toNat % 2 ^ sz.bits := by
  rw [BitVec.toNat_and, Size.mask_eq, Nat.and_two_pow_sub_one_eq_mod]

end Sys2Proof

namespace Sys2Proof.Machine

/-! ## Quads, banks, homes -/

theorem Quad.get_set_self {α : Type} (q : Quad α) (i : BitVec 2) (a : α) : (q.set i a).get i = a := by
  have h : i = 0#2 ∨ i = 1#2 ∨ i = 2#2 ∨ i = 3#2 := by revert i; decide
  rcases h with rfl | rfl | rfl | rfl <;> rfl

theorem Quad.get_set_ne {α : Type} (q : Quad α) {i j : BitVec 2} (a : α) (hij : j ≠ i) :
    (q.set i a).get j = q.get j := by
  have h : ∀ k : BitVec 2, k = 0#2 ∨ k = 1#2 ∨ k = 2#2 ∨ k = 3#2 := by decide
  rcases h i with rfl | rfl | rfl | rfl <;> rcases h j with rfl | rfl | rfl | rfl <;>
    first | rfl | exact absurd rfl hij

theorem Bank.get_set_self (b : Bank) (r : BankReg) (v : Word) : (b.set r v).get r = v := by cases r <;> rfl

theorem Bank.get_set_ne (b : Bank) {r r' : BankReg} (v : Word) (h : r' ≠ r) : (b.set r v).get r' = b.get r' := by
  cases r <;> cases r' <;> first | rfl | exact absurd rfl h

@[simp] theorem State.getReg_setReg_self (s : State) (h : Home) (v : Word) : (s.setReg h v).getReg h = v := by
  cases h with
  | banked b r => simp [State.setReg, State.getReg, Quad.get_set_self, Bank.get_set_self]
  | _ => rfl

theorem State.getReg_setReg_ne (s : State) {h h' : Home} (v : Word) (hne : h' ≠ h) :
    (s.setReg h v).getReg h' = s.getReg h' := by
  cases h with
  | banked b r =>
    cases h' with
    | banked b' r' =>
      by_cases hb : b' = b
      · subst hb
        have hr : r' ≠ r := fun e => hne (by rw [e])
        simp [State.setReg, State.getReg, Quad.get_set_self, Bank.get_set_ne _ _ hr]
      · simp [State.setReg, State.getReg, Quad.get_set_ne _ _ hb]
    | _ => rfl
  | _ => cases h' <;> first | rfl | exact absurd rfl hne

/-! ## Parts -/

/-- The part lies inside its register. -/
def Part.inside (p : Part) : Prop := p.lane.toNat + p.size.bytes ≤ 4

theorem Part.put_getLsbD (p : Part) (old v : Word) (i : Nat) :
    (p.put old v).getLsbD i =
      if 8 * p.lane.toNat ≤ i ∧ i < 8 * p.lane.toNat + p.size.bits then decide (i < 32) && v.getLsbD (i - 8 * p.lane.toNat)
      else old.getLsbD i := by
  simp only [Part.put, BitVec.getLsbD_or, BitVec.getLsbD_and, BitVec.getLsbD_not, BitVec.getLsbD_shiftLeft,
    Size.mask_getLsbD]
  by_cases h32 : i < 32
  · by_cases h1 : i < 8 * p.lane.toNat
    · have : ¬ 8 * p.lane.toNat ≤ i := by omega
      simp [h32, h1, this]
    · by_cases h2 : i - 8 * p.lane.toNat < p.size.bits
      · have h3 : 8 * p.lane.toNat ≤ i ∧ i < 8 * p.lane.toNat + p.size.bits := by omega
        simp [h32, h1, h2, h3]
      · have h3 : ¬ (8 * p.lane.toNat ≤ i ∧ i < 8 * p.lane.toNat + p.size.bits) := by omega
        simp [h32, h1, h2, h3]
  · have ho : old.getLsbD i = false := BitVec.getLsbD_of_ge _ _ (by omega)
    simp [h32, ho]

theorem State.readPart_getLsbD (s : State) (p : Part) (i : Nat) :
    (s.readPart p).getLsbD i = ((s.getReg p.home).getLsbD (8 * p.lane.toNat + i) && decide (i < p.size.bits)) := by
  simp [State.readPart, Size.mask_getLsbD]

/-- A part that lies inside its register reads back as written, narrowed to its size. -/
theorem State.readPart_writePart_self (s : State) (p : Part) (v : Word) (hp : p.inside) :
    (s.writePart p v).readPart p = v &&& p.size.mask := by
  apply BitVec.eq_of_getLsbD_eq
  intro i hi
  rw [State.readPart_getLsbD, State.writePart, State.getReg_setReg_self, Part.put_getLsbD]
  simp only [BitVec.getLsbD_and, Size.mask_getLsbD]
  by_cases h : i < p.size.bits
  · have hb := Size.bits_eq p.size
    have : p.lane.toNat + p.size.bytes ≤ 4 := hp
    have h32 : 8 * p.lane.toNat + i < 32 := by omega
    simp [h, h32]
  · simp [h]

/-- A write takes the low bits of the value, as many as the part has. -/
theorem State.writePart_and_mask (s : State) (p : Part) (v : Word) :
    s.writePart p (v &&& p.size.mask) = s.writePart p v := by
  simp [State.writePart, Part.put, BitVec.and_assoc]

theorem State.readPart_and_mask (s : State) (p : Part) : s.readPart p &&& p.size.mask = s.readPart p := by
  simp [State.readPart, BitVec.and_assoc]

/-- The value of a part fits its size. -/
theorem State.readPart_lt (s : State) (p : Part) : (s.readPart p).toNat < 2 ^ p.size.bits := by
  rw [← State.readPart_and_mask, Size.toNat_and_mask]
  exact Nat.mod_lt _ (Nat.two_pow_pos _)

theorem regByte_getLsbD (s : State) (h : Home) (k : BitVec 2) (i : Nat) :
    (s.regByte h k).getLsbD i = (decide (i < 8) && (s.getReg h).getLsbD (8 * k.toNat + i)) := by
  simp [State.regByte, byteOf]

/-- A write to a part leaves every byte outside it as it was (10_state.md R21). -/
theorem State.regByte_writePart (s : State) (p : Part) (v : Word) (h : Home) (k : BitVec 2) (hc : ¬ p.covers h k) :
    (s.writePart p v).regByte h k = s.regByte h k := by
  by_cases hh : h = p.home
  · subst hh
    apply BitVec.eq_of_getLsbD_eq
    intro i hi
    rw [regByte_getLsbD, regByte_getLsbD, State.writePart, State.getReg_setReg_self, Part.put_getLsbD]
    have hb := Size.bits_eq p.size
    have : ¬ (8 * p.lane.toNat ≤ 8 * k.toNat + i ∧ 8 * k.toNat + i < 8 * p.lane.toNat + p.size.bits) := by
      intro hin
      exact hc ⟨rfl, by omega, by omega⟩
    simp [this]
  · simp only [State.regByte, State.writePart]
    rw [State.getReg_setReg_ne _ _ hh]

theorem State.regByte_congr {s t : State} (h : Home) (e : t.getReg h = s.getReg h) (k : BitVec 2) :
    t.regByte h k = s.regByte h k := by simp [State.regByte, e]

theorem State.readPart_congr {s t : State} (p : Part) (e : t.getReg p.home = s.getReg p.home) :
    t.readPart p = s.readPart p := by simp [State.readPart, e]

/-- A write to a part keeps every other part (10_state.md R21). -/
theorem KeepsRegsExcept.writePart (s : State) (p : Part) (v : Word) : KeepsRegsExcept [p] s (s.writePart p v) :=
  fun h k hc => State.regByte_writePart s p v h k (hc p (by simp))

/-- A state with the same registers keeps them all. -/
theorem KeepsRegsExcept.of_getReg {ps : List Part} {s t : State} (e : ∀ h, t.getReg h = s.getReg h) :
    KeepsRegsExcept ps s t := fun h k _ => State.regByte_congr h (e h) k

theorem KeepsRegsExcept.trans {ps : List Part} {s t u : State} (h1 : KeepsRegsExcept ps s t)
    (h2 : KeepsRegsExcept ps t u) : KeepsRegsExcept ps s u :=
  fun h k hc => (h2 h k hc).trans (h1 h k hc)

theorem KeepsRegsExcept.mono {ps qs : List Part} {s t : State} (hsub : ∀ p ∈ ps, p ∈ qs)
    (h : KeepsRegsExcept ps s t) : KeepsRegsExcept qs s t :=
  fun g k hc => h g k (fun p hp => hc p (hsub p hp))

/-! ## The parts register codes name lie inside their registers -/

theorem State.codePart_inside (s : State) (sz : Size) (R : RegCode) : (s.codePart sz R).inside := by
  cases sz
  · simp only [State.codePart, Part.inside]; split <;> decide
  · simp [State.codePart, Part.inside, Size.bytes]
  · simp [State.codePart, Part.inside, Size.bytes]

theorem State.codePart_size (s : State) (sz : Size) (R : RegCode) : (s.codePart sz R).size = sz := by
  cases sz <;> rfl

theorem State.opPart_size (s : State) (sz : Size) (r : RegOp) : (s.opPart sz r).size = sz := by
  cases r with
  | short r => exact State.codePart_size s sz r
  | long c => rfl

theorem LongReg.laneAt_inside (c : LongReg) (sz : Size) : (c.laneAt sz).toNat + sz.bytes ≤ 4 := by
  cases sz
  · have := c.lane.isLt; simp only [LongReg.laneAt, Size.bytes]; omega
  · have h : ∀ l : BitVec 2, (l &&& 2#2).toNat + 2 ≤ 4 := by decide
    exact h c.lane
  · simp [LongReg.laneAt, Size.bytes]

theorem State.opPart_inside (s : State) (sz : Size) (r : RegOp) : (s.opPart sz r).inside := by
  cases r with
  | short r => exact State.codePart_inside s sz r
  | long c => exact LongReg.laneAt_inside c sz

/-- A 32-bit operand is the whole register. -/
theorem State.readPart_long (s : State) (h : Home) : s.readPart ⟨h, 0#2, .l32⟩ = s.getReg h := by
  apply BitVec.eq_of_getLsbD_eq
  intro i hi
  rw [State.readPart_getLsbD]
  simp [Size.bits, hi]

end Sys2Proof.Machine
end

