-- ==== Sys2Proof/Laws/Ops.lean ====
section
/-! SUPPORT. Each shared operation said once: what it answers on a state where it can go on, and everything it does when
it answers a next state. -/

namespace Sys2Proof.Machine

/-! ## Sequencing -/

@[simp] theorem Res.andThen_next {α β : Type} (a : α) (f : α → Res β) : Res.andThen (.next a) f = f a := rfl
@[simp] theorem Res.andThen_fault {α β : Type} (r : Fault) (f : α → Res β) : Res.andThen (.fault r) f = .fault r := rfl
@[simp] theorem Res.andThen_refused {α β : Type} (r : Refusal) (f : α → Res β) :
    Res.andThen (.refused r) f = .refused r := rfl

/-- A sequence answers a next state exactly when its parts do. -/
theorem Res.andThen_eq_next {α β : Type} {x : Res α} {f : α → Res β} {b : β} :
    x.andThen f = .next b ↔ ∃ a, x = .next a ∧ f a = .next b := by
  cases x <;> simp [Res.andThen]

/-! ## Access -/

theorem State.mapped_congr (s t : State) (h : t.product = s.product) (k : Access) (n : Nat) :
    ∀ ea, t.mapped k n ea = s.mapped k n ea := by
  induction n with
  | zero => exact fun _ => rfl
  | succ n ih => intro ea; simp only [State.mapped, State.addr, h, ih]

theorem State.addr_congr (s t : State) (h : t.product = s.product) (ea : Word) : t.addr ea = s.addr ea := by
  simp [State.addr, h]

theorem State.readable_congr (s t : State) (h : t.product = s.product) (sz : Size) (ea : Word) :
    t.readable sz ea = s.readable sz ea := State.mapped_congr s t h _ _ _

theorem State.storable_congr (s t : State) (h : t.product = s.product) (sz : Size) (ea : Word) :
    t.storable sz ea = s.storable sz ea := State.mapped_congr s t h _ _ _

/-- An access answers `next` exactly when the address is mapped for it (R66). -/
theorem access_eq_next (k : Access) (ea : Word) (s : State) :
    access k (s.addr ea) s = .next () ↔ s.mapped k 1 ea = true := by
  unfold access State.mapped State.mapped
  cases h : s.product.kindAt (s.addr ea) with
  | none => simp
  | some kind => cases kind <;> cases k <;> simp

theorem accessRange_eq_next (k : Access) (n : Nat) :
    ∀ (ea : Word) (s : State), accessRange k n ea s = .next () ↔ s.mapped k n ea = true := by
  induction n with
  | zero => intro ea s; simp [accessRange, State.mapped]
  | succ n ih =>
    intro ea s
    have h1 := access_eq_next k ea s
    simp only [State.mapped, Bool.and_true] at h1
    rw [accessRange, Res.andThen_eq_next]
    simp only [State.mapped, Bool.and_eq_true]
    constructor
    · rintro ⟨⟨⟩, ha, hr⟩
      exact ⟨h1.mp ha, (ih _ _).mp hr⟩
    · rintro ⟨ha, hr⟩
      exact ⟨(), h1.mpr ha, (ih _ _).mpr hr⟩

/-- An access of several bytes stops as an access to the first byte that can not be touched does (R65, R66). -/
theorem accessRange_stop (k : Access) (n i : Nat) (hi : i < n) : ∀ (ea : Word) (s : State),
    s.mapped k i ea = true → access k (s.addr (ea + BitVec.ofNat 32 i)) s ≠ .next () →
    accessRange k n ea s = access k (s.addr (ea + BitVec.ofNat 32 i)) s := by
  induction n generalizing i with
  | zero => omega
  | succ n ih =>
    intro ea s hm ha
    cases i with
    | zero =>
      rw [BitVec.add_zero] at ha ⊢
      rw [accessRange]
      cases h : access k (s.addr ea) s with
      | next u => exact absurd h ha
      | fault r => rfl
      | refused r => rfl
    | succ i =>
      rw [← add_one_ofNat] at ha ⊢
      have hs : s.mapped k 1 ea = true ∧ s.mapped k i (ea + 1#32) = true := by
        simp only [State.mapped, Bool.and_eq_true, Bool.and_true] at hm ⊢
        exact hm
      rw [accessRange, (access_eq_next k ea s).mpr hs.1]
      exact ih i (by omega) _ s hs.2 ha

/-- MemRead answers a value exactly where memory is mapped, and the value memory holds there. -/
theorem memRead_eq_next (sz : Size) (ea : Word) (s : State) (v : Word) :
    memRead sz ea s = .next v ↔ s.readable sz ea = true ∧ v = s.valueAt sz ea := by
  rw [memRead, Res.andThen_eq_next]
  constructor
  · rintro ⟨⟨⟩, h, hv⟩
    simp only [Host.Outcome.next.injEq] at hv
    exact ⟨(accessRange_eq_next _ _ _ _).mp h, hv.symm⟩
  · rintro ⟨h, rfl⟩
    exact ⟨(), (accessRange_eq_next _ _ _ _).mpr h, rfl⟩

theorem memRead_of_readable {sz : Size} {ea : Word} {s : State} (h : s.readable sz ea = true) :
    memRead sz ea s = .next (s.valueAt sz ea) := (memRead_eq_next _ _ _ _).mpr ⟨h, rfl⟩

/-- MemWrite answers a next state exactly where memory can be stored to, and stores those bytes alone. -/
theorem memWrite_eq_next (sz : Size) (ea v : Word) (s t : State) :
    memWrite sz ea v s = .next t ↔ s.storable sz ea = true ∧ t = s.storeBytes sz.bytes ea v := by
  rw [memWrite, Res.andThen_eq_next]
  constructor
  · rintro ⟨⟨⟩, h, hv⟩
    simp only [Host.Outcome.next.injEq] at hv
    exact ⟨(accessRange_eq_next _ _ _ _).mp h, hv.symm⟩
  · rintro ⟨h, rfl⟩
    exact ⟨(), (accessRange_eq_next _ _ _ _).mpr h, rfl⟩

theorem memWrite_of_storable {sz : Size} {ea v : Word} {s : State} (h : s.storable sz ea = true) :
    memWrite sz ea v s = .next (s.storeBytes sz.bytes ea v) := (memWrite_eq_next _ _ _ _ _).mpr ⟨h, rfl⟩

/-! ## Values in memory -/

/-- A legal product has eight addresses, so more than an access has bytes. -/
theorem Product.eight_le {p : Product} (h : p.legal) : 8 ≤ 2 ^ p.addrBits :=
  Nat.pow_le_pow_right (n := 2) (by decide) h.1

theorem Size.bytes_le_space (sz : Size) {p : Product} (h : p.legal) : sz.bytes ≤ 2 ^ p.addrBits :=
  Nat.le_trans (Nat.le_trans sz.bytes_le (by decide)) (Product.eight_le h)

theorem Size.pow_bytes (sz : Size) : 256 ^ sz.bytes = 2 ^ sz.bits := by cases sz <;> rfl

theorem Size.pow_le (sz : Size) : 2 ^ sz.bits ≤ 2 ^ 32 := by cases sz <;> decide

/-- The value memory holds fits its size. -/
theorem State.valueAt_toNat (s : State) (sz : Size) (ea : Word) :
    (s.valueAt sz ea).toNat = s.mem.load s.product.addrBits sz.bytes ea := by
  have h1 := Memory.load_lt s.product.addrBits sz.bytes s.mem ea
  rw [Size.pow_bytes] at h1
  have h2 := Size.pow_le sz
  rw [State.valueAt, BitVec.toNat_ofNat, Nat.mod_eq_of_lt (by omega)]

theorem State.valueAt_lt (s : State) (sz : Size) (ea : Word) : (s.valueAt sz ea).toNat < 2 ^ sz.bits := by
  rw [State.valueAt_toNat, ← Size.pow_bytes]
  exact Memory.load_lt _ _ _ _

/-- A value read back where it was stored (R62, R69). -/
theorem State.valueAt_storeBytes_self (s : State) (hm : s.MemInv) (sz : Size) (ea v : Word) :
    (s.storeBytes sz.bytes ea v).valueAt sz ea = v &&& sz.mask := by
  apply BitVec.eq_of_toNat_eq
  rw [State.valueAt_toNat, Size.toNat_and_mask, State.storeBytes_mem,
    State.storeBytes_product, Memory.load_store_self _ hm.1.2 _ _ _ _ hm.2.1 (Size.bytes_le_space sz hm.1), Size.pow_bytes]

theorem KeepsMemoryExcept.storeBytes (s : State) (hm : s.MemInv) (sz : Size) (ea v : Word) :
    KeepsMemoryExcept sz ea s (s.storeBytes sz.bytes ea v) := fun _ ha =>
  Memory.read_store_outside _ _ _ _ _ _ hm.2.1 fun k hk e => ha ⟨k, hk, e⟩

/-! ## Stack (43_load.md R146) -/

/-- The state after a push: XSP down by the size, the value's bytes at the new XSP. -/
def State.pushed (s : State) (sz : Size) (v : Word) : State :=
  { s with xsp := s.xsp - BitVec.ofNat 32 sz.bytes }.storeBytes sz.bytes
    (s.xsp - BitVec.ofNat 32 sz.bytes) v

/-- The state after a pop: XSP up by the size. -/
def State.popped (s : State) (sz : Size) : State := { s with xsp := s.xsp + BitVec.ofNat 32 sz.bytes }

theorem push_eq_next (sz : Size) (v : Word) (s t : State) :
    push sz v s = .next t ↔ s.storable sz (s.xsp - BitVec.ofNat 32 sz.bytes) = true ∧ t = s.pushed sz v := by
  unfold push
  simp only [memWrite_eq_next]
  rw [State.storable_congr s { s with xsp := s.xsp - BitVec.ofNat 32 sz.bytes } rfl]
  rfl

theorem push_of_storable {sz : Size} {v : Word} {s : State}
    (h : s.storable sz (s.xsp - BitVec.ofNat 32 sz.bytes) = true) : push sz v s = .next (s.pushed sz v) :=
  (push_eq_next _ _ _ _).mpr ⟨h, rfl⟩

theorem pop_eq_next (sz : Size) (s : State) (out : Word × State) :
    pop sz s = .next out ↔ s.readable sz s.xsp = true ∧ out = (s.valueAt sz s.xsp, s.popped sz) := by
  rw [pop, Res.andThen_eq_next]
  constructor
  · rintro ⟨v, h, ho⟩
    obtain ⟨hr, rfl⟩ := (memRead_eq_next _ _ _ _).mp h
    simp only [Host.Outcome.next.injEq] at ho
    exact ⟨hr, ho.symm⟩
  · rintro ⟨hr, rfl⟩
    exact ⟨_, memRead_of_readable hr, rfl⟩

theorem pop_of_readable {sz : Size} {s : State} (h : s.readable sz s.xsp = true) :
    pop sz s = .next (s.valueAt sz s.xsp, s.popped sz) := (pop_eq_next _ _ _).mpr ⟨h, rfl⟩

@[simp] theorem State.pushed_xsp (s : State) (sz : Size) (v : Word) :
    (s.pushed sz v).xsp = s.xsp - BitVec.ofNat 32 sz.bytes := rfl
@[simp] theorem State.pushed_pc (s : State) (sz : Size) (v : Word) : (s.pushed sz v).pc = s.pc := rfl
@[simp] theorem State.pushed_sr (s : State) (sz : Size) (v : Word) : (s.pushed sz v).sr = s.sr := rfl
@[simp] theorem State.pushed_cr (s : State) (sz : Size) (v : Word) : (s.pushed sz v).cr = s.cr := rfl
@[simp] theorem State.pushed_product (s : State) (sz : Size) (v : Word) : (s.pushed sz v).product = s.product := rfl
@[simp] theorem State.pushed_mem (s : State) (sz : Size) (v : Word) :
    (s.pushed sz v).mem = s.mem.store s.product.addrBits sz.bytes (s.xsp - BitVec.ofNat 32 sz.bytes) v.toNat := rfl
@[simp] theorem State.pushed_stored (s : State) (sz : Size) (v : Word) :
    (s.pushed sz v).stored =
      s.stored.insertRange s.product.addrBits sz.bytes (s.xsp - BitVec.ofNat 32 sz.bytes) := rfl
@[simp] theorem State.popped_xsp (s : State) (sz : Size) : (s.popped sz).xsp = s.xsp + BitVec.ofNat 32 sz.bytes := rfl
@[simp] theorem State.popped_pc (s : State) (sz : Size) : (s.popped sz).pc = s.pc := rfl
@[simp] theorem State.popped_sr (s : State) (sz : Size) : (s.popped sz).sr = s.sr := rfl
@[simp] theorem State.popped_cr (s : State) (sz : Size) : (s.popped sz).cr = s.cr := rfl
@[simp] theorem State.popped_mem (s : State) (sz : Size) : (s.popped sz).mem = s.mem := rfl
@[simp] theorem State.popped_stored (s : State) (sz : Size) : (s.popped sz).stored = s.stored := rfl
@[simp] theorem State.popped_product (s : State) (sz : Size) : (s.popped sz).product = s.product := rfl

@[simp] theorem State.pushed_storable (s : State) (sz sz' : Size) (v ea : Word) :
    (s.pushed sz v).storable sz' ea = s.storable sz' ea := State.storable_congr s (s.pushed sz v) rfl _ _
@[simp] theorem State.pushed_readable (s : State) (sz sz' : Size) (v ea : Word) :
    (s.pushed sz v).readable sz' ea = s.readable sz' ea := State.readable_congr s (s.pushed sz v) rfl _ _

/-- A push writes XSP alone among the registers. -/
theorem KeepsRegsExcept.pushed (s : State) (sz : Size) (v : Word) : KeepsRegsExcept [xspPart] s (s.pushed sz v) := by
  intro h k hc
  apply State.regByte_congr
  cases h with
  | xsp => exact absurd ⟨rfl, by simp [xspPart], by simpa [xspPart, Size.bytes] using k.isLt⟩ (hc xspPart (by simp))
  | _ => rfl

theorem KeepsRegsExcept.popped (s : State) (sz : Size) : KeepsRegsExcept [xspPart] s (s.popped sz) := by
  intro h k hc
  apply State.regByte_congr
  cases h with
  | xsp => exact absurd ⟨rfl, by simp [xspPart], by simpa [xspPart, Size.bytes] using k.isLt⟩ (hc xspPart (by simp))
  | _ => rfl

/-! ## The status register -/

/-- A write of the whole SR answers a next state exactly when the image has MAX = 1 (10_state.md R37). -/
theorem loadSr_eq_next (image : Half) (s t : State) :
    loadSr image s = .next t ↔ image.getLsbD 11 = true ∧ t = { s with sr := srLoaded image } := by
  unfold loadSr
  split
  · rename_i h
    rw [Host.Outcome.next.injEq]
    exact ⟨fun e => ⟨h, e.symm⟩, fun e => e.2.symm⟩
  · rename_i h
    exact ⟨fun e => (nomatch e), fun e => absurd e.1 h⟩

theorem srLoaded_legal (image : Half) : SrLegal (srLoaded image) := by
  unfold SrLegal srLoaded
  rw [BitVec.getLsbD_or, BitVec.getLsbD_or, BitVec.getLsbD_or, BitVec.getLsbD_and (i := 10)]
  refine ⟨Bool.or_true _, Bool.or_true _, ?_⟩
  rw [show (0x73FF#16).getLsbD 10 = false from rfl, Bool.and_false]
  rfl

/-- The writes of one field of SR keep the bits that are fixed (10_state.md R34). -/
theorem State.setF_legal (s : State) (f : Byte) (h : SrLegal s.sr) : SrLegal (s.setF f).sr := by
  obtain ⟨h1, h2, h3⟩ := h
  simp only [SrLegal, State.setF, BitVec.getLsbD_or, BitVec.getLsbD_and, BitVec.getLsbD_setWidth, h1, h2, h3]
  exact ⟨rfl, rfl, by rw [BitVec.getLsbD_of_ge f 10 (by decide)]; rfl⟩

theorem State.setIff_legal (s : State) (l : BitVec 3) (h : SrLegal s.sr) : SrLegal (s.setIff l).sr := by
  obtain ⟨h1, h2, h3⟩ := h
  simp only [SrLegal, State.setIff, BitVec.getLsbD_or, BitVec.getLsbD_and, BitVec.getLsbD_shiftLeft, h1, h2, h3]
  exact ⟨rfl, rfl, rfl⟩

theorem State.setBank_legal (s : State) (b : BitVec 2) (h : SrLegal s.sr) : SrLegal (s.setBank b).sr := by
  obtain ⟨h1, h2, h3⟩ := h
  simp only [SrLegal, State.setBank, BitVec.getLsbD_or, BitVec.getLsbD_and, BitVec.getLsbD_shiftLeft,
    BitVec.getLsbD_setWidth, h1, h2, h3]
  exact ⟨rfl, rfl, by rw [BitVec.getLsbD_of_ge b (10 - 8) (by decide)]; rfl⟩

/-! ## The invariant -/

/-- A store keeps memory in its form and inside the space. -/
theorem State.MemInv.storeBytes {s : State} (h : s.MemInv) (n : Nat) (ea v : Word) : (s.storeBytes n ea v).MemInv :=
  ⟨h.1, Memory.wf_store _ _ _ _ _ h.2.1, Memory.inside_store _ _ _ _ _ h.2.2⟩

theorem State.MemInv.pushed {s : State} (h : s.MemInv) (sz : Size) (v : Word) : (s.pushed sz v).MemInv :=
  State.MemInv.storeBytes (s := { s with xsp := s.xsp - BitVec.ofNat 32 sz.bytes }) h _ _ _

/-- A store keeps the invariant. -/
theorem State.Inv.storeBytes {s : State} (h : s.Inv) (n : Nat) (ea v : Word) : (s.storeBytes n ea v).Inv :=
  ⟨h.1, State.MemInv.storeBytes h.2.1 _ _ _, AddrSet.wf_insertRange _ _ _ _ h.2.2.1, h.2.2.2⟩

theorem State.Inv.pushed {s : State} (h : s.Inv) (sz : Size) (v : Word) : (s.pushed sz v).Inv :=
  State.Inv.storeBytes (s := { s with xsp := s.xsp - BitVec.ofNat 32 sz.bytes }) h _ _ _

/-- A write of a control register keeps the invariant. -/
theorem State.Inv.setCr {s : State} (h : s.Inv) (c : CtrlReg) (v : Word) : (s.setCr c v).Inv :=
  ⟨by rw [State.setCr_sr]; exact h.1, by cases c <;> exact h.2.1, by rw [State.setCr_stored]; exact h.2.2.1, by
    have := h.2.2.2
    cases c <;> simpa [State.setCr, State.setDma, State.CrInv] using this⟩

theorem State.Inv.popped {s : State} (h : s.Inv) (sz : Size) : (s.popped sz).Inv := h

/-- The invariant looks at SR, memory, the stored addresses, the control registers and the product alone. -/
theorem State.Inv.withLegalSr {s t : State} (h : s.Inv) (h1 : SrLegal t.sr) (h2 : t.mem = s.mem)
    (h3 : t.stored = s.stored) (h4 : t.cr.dma = s.cr.dma) (h5 : t.product = s.product) : t.Inv := by
  unfold State.Inv State.MemInv State.CrInv
  rw [h2, h3, h4, h5]
  exact ⟨h1, h.2⟩

theorem State.Inv.congr {s t : State} (h : s.Inv) (h1 : t.sr = s.sr) (h2 : t.mem = s.mem) (h3 : t.stored = s.stored)
    (h4 : t.cr.dma = s.cr.dma) (h5 : t.product = s.product) : t.Inv := h.withLegalSr (h1 ▸ h.1) h2 h3 h4 h5

/-! ## Control registers (10_state.md R51 to R53) -/

/-- What LDC reaches is a row of CR_MAP at its own width, and a register the product has (R10, R52). -/
theorem Product.ctrlReg_eq_some {p : Product} {sz : Size} {n : Byte} {c : CtrlReg} (h : p.ctrlReg sz n = some c) :
    ⟨n, c, sz⟩ ∈ p.crMap ∧ c.existsIn p sz = true := by
  unfold Product.ctrlReg at h
  split at h
  · rename_i e he
    have hn : e.number = n := by simpa using List.find?_some he
    split at h
    · rename_i hc
      rw [Bool.and_eq_true, decide_eq_true_eq] at hc
      cases h
      obtain ⟨rfl, hx⟩ := hc
      exact ⟨hn ▸ List.mem_of_find?_eq_some he, hx⟩
    · exact absurd h (by simp)
  · exact absurd h (by simp)

/-- One channel written: that channel alone changes. -/
theorem State.dmaChannel_setDma (s : State) (ch ch' : Nat) (f : DmaChannel → DmaChannel) (hch : ch < s.cr.dma.length) :
    (s.setDma ch f).dmaChannel ch' = if ch' = ch then f (s.dmaChannel ch) else s.dmaChannel ch' := by
  unfold State.dmaChannel State.setDma
  simp only [List.getElem?_modify]
  by_cases h : ch = ch'
  · subst h
    simp [List.getElem?_eq_getElem hch]
  · simp [h, Ne.symm h]

@[simp] theorem State.setDma_intnest (s : State) (ch : Nat) (f : DmaChannel → DmaChannel) :
    (s.setDma ch f).cr.intnest = s.cr.intnest := rfl

/-- A control register the product has reads back as written, narrowed to its width. -/
theorem State.getCr_setCr_self (s : State) (hs : s.CrInv) (c : CtrlReg) (sz : Size) (v : Word)
    (hc : c.existsIn s.product sz = true) (hv : v &&& sz.mask = v) : (s.setCr c v).getCr c = v := by
  have hl : ∀ ch, decide (ch < s.product.channels) = true → ch < s.cr.dma.length := fun ch h => by
    rw [hs]
    exact of_decide_eq_true h
  cases c with
  | intnest =>
    have hz : sz = .w16 := of_decide_eq_true hc
    subst hz
    show (v.setWidth 16).setWidth 32 = v
    rw [← hv]
    apply BitVec.eq_of_getLsbD_eq
    intro i hi
    simp only [BitVec.getLsbD_setWidth, BitVec.getLsbD_and, Size.mask_getLsbD, Size.bits]
    by_cases h : i < 16 <;> simp [h, hi]
  | _ ch => simp [State.setCr, State.getCr, State.dmaChannel_setDma _ _ _ _ (hl ch hc)]

/-- Every other control register keeps its value. -/
theorem State.getCr_setCr_ne (s : State) (hs : s.CrInv) (c c' : CtrlReg) (sz : Size) (v : Word)
    (hc : c.existsIn s.product sz = true) (hne : c' ≠ c) : (s.setCr c v).getCr c' = s.getCr c' := by
  have hl : ∀ ch, decide (ch < s.product.channels) = true → ch < s.cr.dma.length := fun ch h => by
    rw [hs]
    exact of_decide_eq_true h
  cases c with
  | intnest => cases c' <;> first | rfl | exact absurd rfl hne
  | _ ch =>
    cases c' with
    | intnest => rfl
    | _ ch' =>
      simp only [State.setCr, State.getCr, State.dmaChannel_setDma _ _ _ _ (hl ch hc)]
      by_cases h : ch' = ch
      · subst h
        first
          | exact absurd rfl hne
          | simp
      · simp [h]

/-! ## Interrupt entry and return (60_exceptions.md R167, 41_interrupt_control.md R111) -/

/-- The state after both pushes of an entry. -/
def State.entered (s : State) : State := (s.pushed .l32 s.pc).pushed .w16 (s.srImage.setWidth 32)

/-- The state after entry but for PC. -/
def State.masked (s : State) (r : Request) : State :=
  (s.entered.setIff r.level.maskAfter).setIntnest (s.cr.intnest + 1#16)

theorem State.masked_readable (s : State) (r : Request) (sz : Size) (ea : Word) :
    (s.masked r).readable sz ea = s.readable sz ea := State.readable_congr s (s.masked r) rfl _ _

/-- Everything an interrupt entry does. -/
theorem takeInterrupt_eq_next (r : Request) (s t : State) :
    takeInterrupt r s = .next t ↔
      s.storable .l32 (s.xsp - 4#32) = true ∧ s.storable .w16 (s.xsp - 6#32) = true ∧
      s.readable .l32 (s.vectorSlot r) = true ∧
      t = { s.masked r with pc := (s.masked r).valueAt .l32 (s.vectorSlot r) &&& 0x00FFFFFF#32 } := by
  have hx : s.xsp - BitVec.ofNat 32 Size.l32.bytes - BitVec.ofNat 32 Size.w16.bytes = s.xsp - 6#32 := by
    rw [BitVec.sub_sub]; rfl
  have hm : (((s.pushed .l32 s.pc).pushed .w16 ((s.pushed .l32 s.pc).srImage.setWidth 32)).setIff
      r.level.maskAfter).setIntnest (((s.pushed .l32 s.pc).pushed .w16
        ((s.pushed .l32 s.pc).srImage.setWidth 32)).cr.intnest + 1#16) = s.masked r := rfl
  have hv : (s.masked r).vectorSlot r = s.vectorSlot r := rfl
  simp only [takeInterrupt, Res.andThen_eq_next, push_eq_next, memRead_eq_next,
    Host.Outcome.next.injEq]
  constructor
  · rintro ⟨s1, ⟨h1, rfl⟩, s2, ⟨h2, rfl⟩, v, ⟨h3, rfl⟩, h⟩
    rw [State.pushed_storable, State.pushed_xsp, hx] at h2
    rw [hm, hv, State.masked_readable] at h3
    exact ⟨h1, h2, h3, h.symm⟩
  · rintro ⟨h1, h2, h3, rfl⟩
    refine ⟨_, ⟨h1, rfl⟩, _, ⟨?_, rfl⟩, _, ⟨?_, rfl⟩, rfl⟩
    · rw [State.pushed_storable, State.pushed_xsp, hx]
      exact h2
    · rw [hm, hv, State.masked_readable]
      exact h3

/-- Everything a return from interrupt does. -/
theorem returnFromInterrupt_eq_next (s t : State) :
    returnFromInterrupt s = .next t ↔
      s.readable .w16 s.xsp = true ∧ s.readable .l32 (s.xsp + 2#32) = true ∧
      (s.valueAt .w16 s.xsp).getLsbD 11 = true ∧
      t = { s.setIntnest (s.cr.intnest - 1#16) with
              xsp := s.xsp + 6#32, sr := srLoaded ((s.valueAt .w16 s.xsp).setWidth 16),
              pc := s.valueAt .l32 (s.xsp + 2#32) } := by
  unfold returnFromInterrupt
  simp only [Res.andThen_eq_next, memRead_eq_next, loadSr_eq_next, Host.Outcome.next.injEq]
  constructor
  · rintro ⟨image, ⟨h1, rfl⟩, pcv, ⟨h2, rfl⟩, s1, ⟨h3, rfl⟩, rfl⟩
    exact ⟨h1, h2, by simpa using h3, rfl⟩
  · rintro ⟨h1, h2, h3, rfl⟩
    exact ⟨_, ⟨h1, rfl⟩, _, ⟨h2, rfl⟩, _, ⟨by simpa using h3, rfl⟩, rfl⟩

/-! ## Fetch -/

/-- A fetch that answers an instruction read it from the bytes at PC, none of which a store has touched. -/
theorem fetch_eq_next (s : State) (i : Instr) :
    fetch s = .next i ↔
      decode (s.fetchBytes maxLength s.pc) = .ok i ∧ s.textUnstored i.length s.pc = .next () := by
  unfold fetch
  simp only
  cases hd : decode (s.fetchBytes maxLength s.pc) with
  | ok j =>
    simp only [Res.andThen_eq_next, Host.Outcome.next.injEq, Except.ok.injEq]
    constructor
    · rintro ⟨⟨⟩, h, rfl⟩; exact ⟨rfl, h⟩
    · rintro ⟨rfl, h⟩; exact ⟨(), h, rfl⟩
  | error e =>
    simp only [reduceCtorEq, false_and, iff_false]
    intro h
    cases e <;> simp_all [Res.andThen_eq_next]

/-- No byte of the instruction is stored text exactly when none of its addresses is in the set (R70). -/
theorem State.textUnstored_eq_next (s : State) (n : Nat) : ∀ ea, s.textUnstored n ea = .next () ↔
    ∀ k < n, s.addr (ea + BitVec.ofNat 32 k) ∉ s.stored := by
  induction n with
  | zero => intro ea; simp [State.textUnstored]
  | succ n ih =>
    intro ea
    rw [forall_lt_succ_addr (P := fun x => s.addr x ∉ s.stored) n ea, State.textUnstored]
    split
    · rename_i h
      simp [h]
    · rename_i h
      rw [ih]
      exact ⟨fun hall => ⟨h, hall⟩, fun hall => hall.2⟩

/-- Where the first `k` bytes can be fetched and the next can not, a longer fetch gives those `k`. -/
theorem State.fetchBytes_stop (s : State) (n k : Nat) (hk : k < n) : ∀ ea, s.mapped .fetch k ea = true →
    access .fetch (s.addr (ea + BitVec.ofNat 32 k)) s ≠ .next () →
    s.fetchBytes n ea = s.fetchBytes k ea ∧ (s.fetchBytes k ea).length = k := by
  induction n generalizing k with
  | zero => omega
  | succ n ih =>
    intro ea hm ha
    cases k with
    | zero =>
      rw [BitVec.add_zero] at ha
      refine ⟨?_, rfl⟩
      show s.fetchBytes (n + 1) ea = []
      unfold State.fetchBytes
      split
      · rename_i h
        exact absurd h ha
      · rfl
    | succ k =>
      rw [← add_one_ofNat] at ha
      have hs : s.mapped .fetch 1 ea = true ∧ s.mapped .fetch k (ea + 1#32) = true := by
        simp only [State.mapped, Bool.and_eq_true, Bool.and_true] at hm ⊢
        exact hm
      obtain ⟨h1, h2⟩ := ih k (by omega) _ hs.2 ha
      rw [State.fetchBytes, State.fetchBytes, (access_eq_next .fetch ea s).mpr hs.1]
      exact ⟨by rw [h1], by rw [List.length_cons, h2]⟩

end Sys2Proof.Machine
end

