-- ==== Sys2Proof/Laws/PerInstr.lean ====
section
/-! SUPPORT. Statements about every instruction as syntax, one lemma per constructor. -/

namespace Sys2Proof.Laws

/-- The encoder writes as many bytes as the instruction is long, one to seven (30_encoding.md R86, R94). -/
def EncodeLength.Statement (i : Instr) : Prop :=
  (encode i).length = i.length ∧ 1 ≤ i.length ∧ i.length ≤ 7

theorem EncodeLength.of_prefix (sz : Size) (r : RegOp) (bs : List Byte) (n : Nat) (h : bs.length = n) (h1 : 1 ≤ n)
    (h2 : n ≤ 5) : (encodePrefix sz r ++ bs).length = r.prefixLength + n ∧ 1 ≤ r.prefixLength + n ∧
      r.prefixLength + n ≤ 7 := by
  have hp : r.prefixLength ≤ 2 := by cases r <;> exact Nat.le_of_ble_eq_true rfl
  refine ⟨?_, by omega, by omega⟩
  rw [List.length_append, encodePrefix_length, h]

theorem EncodeLength.imm (n : Imm) : 1 ≤ 1 + n.size.bytes ∧ 1 + n.size.bytes ≤ 5 := by
  cases n <;> exact ⟨Nat.le_of_ble_eq_true rfl, Nat.le_of_ble_eq_true rfl⟩

theorem EncodeLength.pushSr : EncodeLength.Statement .pushSr :=
  ⟨rfl, Nat.le_of_ble_eq_true rfl, Nat.le_of_ble_eq_true rfl⟩

theorem EncodeLength.popSr : EncodeLength.Statement .popSr :=
  ⟨rfl, Nat.le_of_ble_eq_true rfl, Nat.le_of_ble_eq_true rfl⟩

theorem EncodeLength.reti : EncodeLength.Statement .reti :=
  ⟨rfl, Nat.le_of_ble_eq_true rfl, Nat.le_of_ble_eq_true rfl⟩

theorem EncodeLength.incf : EncodeLength.Statement .incf :=
  ⟨rfl, Nat.le_of_ble_eq_true rfl, Nat.le_of_ble_eq_true rfl⟩

theorem EncodeLength.decf : EncodeLength.Statement .decf :=
  ⟨rfl, Nat.le_of_ble_eq_true rfl, Nat.le_of_ble_eq_true rfl⟩

theorem EncodeLength.ret : EncodeLength.Statement .ret := ⟨rfl, Nat.le_of_ble_eq_true rfl, Nat.le_of_ble_eq_true rfl⟩

theorem EncodeLength.pushA : EncodeLength.Statement .pushA :=
  ⟨rfl, Nat.le_of_ble_eq_true rfl, Nat.le_of_ble_eq_true rfl⟩

theorem EncodeLength.popA : EncodeLength.Statement .popA :=
  ⟨rfl, Nat.le_of_ble_eq_true rfl, Nat.le_of_ble_eq_true rfl⟩

theorem EncodeLength.exFF : EncodeLength.Statement .exFF :=
  ⟨rfl, Nat.le_of_ble_eq_true rfl, Nat.le_of_ble_eq_true rfl⟩

theorem EncodeLength.pushF : EncodeLength.Statement .pushF :=
  ⟨rfl, Nat.le_of_ble_eq_true rfl, Nat.le_of_ble_eq_true rfl⟩

theorem EncodeLength.popF : EncodeLength.Statement .popF :=
  ⟨rfl, Nat.le_of_ble_eq_true rfl, Nat.le_of_ble_eq_true rfl⟩

theorem EncodeLength.ei (n : BitVec 3) : EncodeLength.Statement (.ei n) :=
  ⟨rfl, Nat.le_of_ble_eq_true rfl, Nat.le_of_ble_eq_true rfl⟩

theorem EncodeLength.ldf (n : BitVec 3) : EncodeLength.Statement (.ldf n) :=
  ⟨rfl, Nat.le_of_ble_eq_true rfl, Nat.le_of_ble_eq_true rfl⟩

theorem EncodeLength.call16 (n : Half) : EncodeLength.Statement (.call16 n) :=
  ⟨rfl, Nat.le_of_ble_eq_true rfl, Nat.le_of_ble_eq_true rfl⟩

theorem EncodeLength.call24 (n : BitVec 24) : EncodeLength.Statement (.call24 n) :=
  ⟨rfl, Nat.le_of_ble_eq_true rfl, Nat.le_of_ble_eq_true rfl⟩

theorem EncodeLength.ldRn8 (R : RegCode) (n : Byte) : EncodeLength.Statement (.ldRn8 R n) :=
  ⟨rfl, Nat.le_of_ble_eq_true rfl, Nat.le_of_ble_eq_true rfl⟩

theorem EncodeLength.ldRn16 (R : RegCode) (n : Half) : EncodeLength.Statement (.ldRn16 R n) :=
  ⟨rfl, Nat.le_of_ble_eq_true rfl, Nat.le_of_ble_eq_true rfl⟩

theorem EncodeLength.ldRn32 (R : RegCode) (n : Word) : EncodeLength.Statement (.ldRn32 R n) :=
  ⟨rfl, Nat.le_of_ble_eq_true rfl, Nat.le_of_ble_eq_true rfl⟩

theorem EncodeLength.pushShort (sz : Size) (R : RegCode) : EncodeLength.Statement (.pushShort sz R) :=
  ⟨rfl, Nat.le_of_ble_eq_true rfl, Nat.le_of_ble_eq_true rfl⟩

theorem EncodeLength.popShort (sz : Size) (R : RegCode) : EncodeLength.Statement (.popShort sz R) :=
  ⟨rfl, Nat.le_of_ble_eq_true rfl, Nat.le_of_ble_eq_true rfl⟩

theorem EncodeLength.ldrn (r : RegOp) (n : Imm) : EncodeLength.Statement (.ldrn r n) := by
  have h := EncodeLength.of_prefix n.size r (0x03#8 :: encodeImm n) (1 + n.size.bytes)
    (by rw [List.length_cons, encodeImm_length, Nat.add_comm]) (EncodeLength.imm n).1 (EncodeLength.imm n).2
  rwa [← Nat.add_assoc] at h

theorem EncodeLength.pushReg (sz : Size) (r : RegOp) : EncodeLength.Statement (.pushReg sz r) :=
  EncodeLength.of_prefix _ r _ 1 rfl (by decide) (by decide)

theorem EncodeLength.popReg (sz : Size) (r : RegOp) : EncodeLength.Statement (.popReg sz r) :=
  EncodeLength.of_prefix _ r _ 1 rfl (by decide) (by decide)

theorem EncodeLength.daa (r : RegOp) : EncodeLength.Statement (.daa r) :=
  EncodeLength.of_prefix _ r _ 1 rfl (by decide) (by decide)

theorem EncodeLength.ldcCrR (sz : Size) (r : RegOp) (cr : Byte) : EncodeLength.Statement (.ldcCrR sz r cr) :=
  EncodeLength.of_prefix _ r _ 2 rfl (by decide) (by decide)

theorem EncodeLength.ldcRCr (sz : Size) (r : RegOp) (cr : Byte) : EncodeLength.Statement (.ldcRCr sz r cr) :=
  EncodeLength.of_prefix _ r _ 2 rfl (by decide) (by decide)

theorem EncodeLength.addRr (sz : Size) (R : RegCode) (r : RegOp) : EncodeLength.Statement (.addRr sz R r) :=
  EncodeLength.of_prefix _ r _ 1 rfl (by decide) (by decide)

theorem EncodeLength.ldRr (sz : Size) (R : RegCode) (r : RegOp) : EncodeLength.Statement (.ldRr sz R r) :=
  EncodeLength.of_prefix _ r _ 1 rfl (by decide) (by decide)

theorem EncodeLength.ldrR (sz : Size) (r : RegOp) (R : RegCode) : EncodeLength.Statement (.ldrR sz r R) :=
  EncodeLength.of_prefix _ r _ 1 rfl (by decide) (by decide)

theorem EncodeLength.subRr (sz : Size) (R : RegCode) (r : RegOp) : EncodeLength.Statement (.subRr sz R r) :=
  EncodeLength.of_prefix _ r _ 1 rfl (by decide) (by decide)

theorem EncodeLength.ldr3 (sz : Size) (r : RegOp) (k : BitVec 3) : EncodeLength.Statement (.ldr3 sz r k) :=
  EncodeLength.of_prefix _ r _ 1 rfl (by decide) (by decide)

theorem EncodeLength.exRr (sz : Size) (R : RegCode) (r : RegOp) : EncodeLength.Statement (.exRr sz R r) :=
  EncodeLength.of_prefix _ r _ 1 rfl (by decide) (by decide)

theorem EncodeLength.addrn (r : RegOp) (n : Imm) : EncodeLength.Statement (.addrn r n) := by
  have h := EncodeLength.of_prefix n.size r (0xC8#8 :: encodeImm n) (1 + n.size.bytes)
    (by rw [List.length_cons, encodeImm_length, Nat.add_comm]) (EncodeLength.imm n).1 (EncodeLength.imm n).2
  rwa [← Nat.add_assoc] at h

theorem EncodeLength.subrn (r : RegOp) (n : Imm) : EncodeLength.Statement (.subrn r n) := by
  have h := EncodeLength.of_prefix n.size r (0xCA#8 :: encodeImm n) (1 + n.size.bytes)
    (by rw [List.length_cons, encodeImm_length, Nat.add_comm]) (EncodeLength.imm n).1 (EncodeLength.imm n).2
  rwa [← Nat.add_assoc] at h

theorem EncodeLength.ldRm (sz : Size) (R : RegCode) (a : RegCode) : EncodeLength.Statement (.ldRm sz R a) :=
  ⟨rfl, Nat.le_of_ble_eq_true rfl, Nat.le_of_ble_eq_true rfl⟩

theorem EncodeLength.addRm (sz : Size) (R : RegCode) (a : RegCode) : EncodeLength.Statement (.addRm sz R a) :=
  ⟨rfl, Nat.le_of_ble_eq_true rfl, Nat.le_of_ble_eq_true rfl⟩

theorem EncodeLength.addmR (sz : Size) (a : RegCode) (R : RegCode) : EncodeLength.Statement (.addmR sz a R) :=
  ⟨rfl, Nat.le_of_ble_eq_true rfl, Nat.le_of_ble_eq_true rfl⟩

theorem EncodeLength.subRm (sz : Size) (R : RegCode) (a : RegCode) : EncodeLength.Statement (.subRm sz R a) :=
  ⟨rfl, Nat.le_of_ble_eq_true rfl, Nat.le_of_ble_eq_true rfl⟩

theorem EncodeLength.submR (sz : Size) (a : RegCode) (R : RegCode) : EncodeLength.Statement (.submR sz a R) :=
  ⟨rfl, Nat.le_of_ble_eq_true rfl, Nat.le_of_ble_eq_true rfl⟩

theorem EncodeLength.ldmR (sz : Size) (a : RegCode) (R : RegCode) : EncodeLength.Statement (.ldmR sz a R) :=
  by cases sz <;> exact ⟨rfl, Nat.le_of_ble_eq_true rfl, Nat.le_of_ble_eq_true rfl⟩

end Sys2Proof.Laws
end

