-- ==== Sys2Proof/Laws/Status.lean ====
section
/-! SUPPORT. The fields of SR after each write of SR, and the flag laws of ADD, SUB and DAA (10_state.md R33 to R45,
42_arithmetic.md R121, R122, R126). -/

namespace Sys2Proof.Machine

/-! ## Bits of SR -/

theorem State.setF_getLsbD (s : State) (f : Byte) (i : Nat) (hi : i < 16) :
    (s.setF f).sr.getLsbD i = if i < 8 then f.getLsbD i else s.sr.getLsbD i := by
  simp only [State.setF, BitVec.getLsbD_or, BitVec.getLsbD_and, BitVec.getLsbD_setWidth]
  have hm : (0xFF00#16).getLsbD i = decide (8 ≤ i) := by
    revert i; decide
  rw [hm]
  by_cases h : i < 8
  · have : ¬ 8 ≤ i := by omega
    simp [h, this, hi]
  · have : 8 ≤ i := by omega
    simp [h, this]

theorem State.setIff_getLsbD (s : State) (l : BitVec 3) (i : Nat) (hi : i < 16) :
    (s.setIff l).sr.getLsbD i = if 12 ≤ i ∧ i < 15 then l.getLsbD (i - 12) else s.sr.getLsbD i := by
  simp only [State.setIff, BitVec.getLsbD_or, BitVec.getLsbD_and, BitVec.getLsbD_shiftLeft, BitVec.getLsbD_setWidth]
  have hm : (0x8FFF#16).getLsbD i = decide (¬ (12 ≤ i ∧ i < 15)) := by
    revert i; decide
  rw [hm]
  by_cases h : 12 ≤ i ∧ i < 15
  · have h1 : ¬ i < 12 := by omega
    have h2 : i - 12 < 16 := by omega
    simp [h, h1, h2, hi]
  · by_cases h1 : i < 12
    · simp [h, h1]
    · have hl : l.getLsbD (i - 12) = false := BitVec.getLsbD_of_ge _ _ (by omega)
      simp [h, hl]

theorem State.setBank_getLsbD (s : State) (b : BitVec 2) (i : Nat) (hi : i < 16) :
    (s.setBank b).sr.getLsbD i =
      if 8 ≤ i ∧ i < 11 then b.getLsbD (i - 8) else s.sr.getLsbD i := by
  simp only [State.setBank, BitVec.getLsbD_or, BitVec.getLsbD_and, BitVec.getLsbD_shiftLeft, BitVec.getLsbD_setWidth]
  have hm : (0xF8FF#16).getLsbD i = decide (¬ (8 ≤ i ∧ i < 11)) := by
    revert i; decide
  rw [hm]
  by_cases h : 8 ≤ i ∧ i < 11
  · have h1 : ¬ i < 8 := by omega
    have h2 : i - 8 < 16 := by omega
    simp [h, h1, h2, hi]
  · by_cases h1 : i < 8
    · simp [h, h1]
    · have hl : b.getLsbD (i - 8) = false := BitVec.getLsbD_of_ge _ _ (by omega)
      simp [h, hl]

theorem srLoaded_getLsbD (image : Half) (i : Nat) (hi : i < 16) :
    (srLoaded image).getLsbD i = if i = 15 ∨ i = 11 then true else if i = 10 then false else image.getLsbD i := by
  unfold srLoaded
  rw [BitVec.getLsbD_or, BitVec.getLsbD_and]
  have h1 : (0x73FF#16).getLsbD i = decide (¬ (i = 15 ∨ i = 11 ∨ i = 10)) := by revert i; decide
  have h2 : (0x8800#16).getLsbD i = decide (i = 15 ∨ i = 11) := by revert i; decide
  rw [h1, h2]
  by_cases ha : i = 15 ∨ i = 11
  · simp [ha]
  · by_cases hb : i = 10
    · subst hb; simp
    · simp [ha, hb]

/-! ## Fields of SR -/

@[simp] theorem State.setF_f (s : State) (f : Byte) : (s.setF f).f = f := by
  apply BitVec.eq_of_getLsbD_eq
  intro i hi
  rw [State.f, BitVec.getLsbD_setWidth, State.setF_getLsbD _ _ _ (by omega)]
  simp [hi]

@[simp] theorem State.setIff_iff (s : State) (l : BitVec 3) : (s.setIff l).iff = l := by
  apply BitVec.eq_of_getLsbD_eq
  intro i hi
  rw [State.iff, BitVec.getLsbD_extractLsb', State.setIff_getLsbD _ _ _ (by omega)]
  have h : 12 + i < 15 := by omega
  simp [hi, h]

@[simp] theorem State.setBank_rfp (s : State) (b : BitVec 2) : (s.setBank b).rfp = b.setWidth 3 := by
  apply BitVec.eq_of_getLsbD_eq
  intro i hi
  rw [State.rfp, BitVec.getLsbD_extractLsb', State.setBank_getLsbD _ _ _ (by omega), BitVec.getLsbD_setWidth]
  have h : 8 + i < 11 := by omega
  simp [hi, h]

@[simp] theorem State.setBank_curBank (s : State) (b : BitVec 2) : (s.setBank b).curBank = b := by
  apply BitVec.eq_of_getLsbD_eq
  intro i hi
  rw [State.curBank, BitVec.getLsbD_extractLsb', State.setBank_getLsbD _ _ _ (by omega)]
  have h : 8 + i < 11 := by omega
  simp [hi, h]

/-! A write of one field leaves the others (10_state.md R34) -/

@[simp] theorem State.setF_iff (s : State) (f : Byte) : (s.setF f).iff = s.iff := by
  apply BitVec.eq_of_getLsbD_eq
  intro i hi
  simp only [State.iff, BitVec.getLsbD_extractLsb']
  rw [State.setF_getLsbD _ _ _ (by omega), if_neg (by omega)]

@[simp] theorem State.setF_rfp (s : State) (f : Byte) : (s.setF f).rfp = s.rfp := by
  apply BitVec.eq_of_getLsbD_eq
  intro i hi
  simp only [State.rfp, BitVec.getLsbD_extractLsb']
  rw [State.setF_getLsbD _ _ _ (by omega), if_neg (by omega)]

@[simp] theorem State.setF_curBank (s : State) (f : Byte) : (s.setF f).curBank = s.curBank := by
  apply BitVec.eq_of_getLsbD_eq
  intro i hi
  simp only [State.curBank, BitVec.getLsbD_extractLsb']
  rw [State.setF_getLsbD _ _ _ (by omega), if_neg (by omega)]

@[simp] theorem State.setIff_f (s : State) (l : BitVec 3) : (s.setIff l).f = s.f := by
  apply BitVec.eq_of_getLsbD_eq
  intro i hi
  simp only [State.f, BitVec.getLsbD_setWidth]
  rw [State.setIff_getLsbD _ _ _ (by omega), if_neg (by omega)]

@[simp] theorem State.setIff_rfp (s : State) (l : BitVec 3) : (s.setIff l).rfp = s.rfp := by
  apply BitVec.eq_of_getLsbD_eq
  intro i hi
  simp only [State.rfp, BitVec.getLsbD_extractLsb']
  rw [State.setIff_getLsbD _ _ _ (by omega), if_neg (by omega)]

@[simp] theorem State.setBank_f (s : State) (b : BitVec 2) : (s.setBank b).f = s.f := by
  apply BitVec.eq_of_getLsbD_eq
  intro i hi
  simp only [State.f, BitVec.getLsbD_setWidth]
  rw [State.setBank_getLsbD _ _ _ (by omega), if_neg (by omega)]

@[simp] theorem State.setBank_iff (s : State) (b : BitVec 2) : (s.setBank b).iff = s.iff := by
  apply BitVec.eq_of_getLsbD_eq
  intro i hi
  simp only [State.iff, BitVec.getLsbD_extractLsb']
  rw [State.setBank_getLsbD _ _ _ (by omega), if_neg (by omega)]

theorem KeepsSrBut.setF (s : State) (f : Byte) : KeepsSrBut 0 7 s (s.setF f) := by
  intro i hi
  by_cases h16 : i < 16
  · rw [State.setF_getLsbD _ _ _ h16, if_neg (by omega)]
  · rw [BitVec.getLsbD_of_ge _ _ (by omega), BitVec.getLsbD_of_ge _ _ (by omega)]

theorem KeepsSrBut.setIff (s : State) (l : BitVec 3) : KeepsSrBut 12 14 s (s.setIff l) := by
  intro i hi
  by_cases h16 : i < 16
  · rw [State.setIff_getLsbD _ _ _ h16, if_neg (by omega)]
  · rw [BitVec.getLsbD_of_ge _ _ (by omega), BitVec.getLsbD_of_ge _ _ (by omega)]

theorem KeepsSrBut.setBank (s : State) (b : BitVec 2) : KeepsSrBut 8 10 s (s.setBank b) := by
  intro i hi
  by_cases h16 : i < 16
  · rw [State.setBank_getLsbD _ _ _ h16, if_neg (by omega)]
  · rw [BitVec.getLsbD_of_ge _ _ (by omega), BitVec.getLsbD_of_ge _ _ (by omega)]

/-- With the fixed bits of SR as they must be, an image of SR written back gives SR (41_interrupt_control.md R111). -/
theorem srLoaded_of_legal (sr : Half) (h : SrLegal sr) : srLoaded (sr ||| 0x8000#16) = sr := by
  apply BitVec.eq_of_getLsbD_eq
  intro i hi
  obtain ⟨h15, h11, h10⟩ := h
  rw [srLoaded_getLsbD _ _ hi]
  have hm : (0x8000#16).getLsbD i = decide (i = 15) := by revert i; decide
  rw [BitVec.getLsbD_or, hm]
  by_cases ha : i = 15
  · subst ha; simp [h15]
  · by_cases hb : i = 11
    · subst hb; simp [h11]
    · by_cases hc : i = 10
      · subst hc; simpa using h10.symm
      · simp [ha, hb, hc]

/-! ## Flags -/

@[simp] theorem Flags.ofByte_pack (fl : Flags) (b5 b3 : Bool) : Flags.ofByte (fl.pack b5 b3) = fl := by
  obtain ⟨s, z, h, v, n, c⟩ := fl
  revert s z h v n c b5 b3
  decide

@[simp] theorem State.setFlags_flags (s : State) (fl : Flags) : (s.setFlags fl).flags = fl := by
  have h : (s.setFlags fl).f = (s.setF (fl.pack s.drawn.b5 s.drawn.b3)).f := rfl
  rw [State.flags, h, State.setF_f, Flags.ofByte_pack]

theorem KeepsSrBut.setFlags (s : State) (fl : Flags) : KeepsSrBut 0 7 s (s.setFlags fl) :=
  KeepsSrBut.setF s _

theorem State.setFlags_legal (s : State) (fl : Flags) (h : SrLegal s.sr) : SrLegal (s.setFlags fl).sr :=
  State.setF_legal s _ h

/-- Addition obeys the flag laws (42_arithmetic.md R121). -/
theorem addAlu_flags (sz : Size) (a b : Nat) (u : Bool) : AddFlags sz a b (addAlu sz a b u).2 := by
  refine ⟨rfl, rfl, fun h => ?_, rfl, rfl, rfl⟩
  cases sz
  · rfl
  · rfl
  · exact absurd rfl h

/-- Subtraction obeys the flag laws (42_arithmetic.md R122), and its result is the difference narrowed. -/
theorem subAlu_result (sz : Size) (a b : Nat) (u : Bool) (hb : b < 2 ^ sz.bits) :
    ((subAlu sz a b u).1 : Int) = ((a : Int) - b) % 2 ^ sz.bits := by
  have h : ((a + 2 ^ sz.bits - b : Nat) : Int) = (a : Int) - b + 2 ^ sz.bits := by
    have hp : ((2 ^ sz.bits : Nat) : Int) = (2 : Int) ^ sz.bits := by norm_cast
    omega
  show (((a + 2 ^ sz.bits - b) % 2 ^ sz.bits : Nat) : Int) = _
  rw [Int.natCast_mod, h]
  have hp : ((2 ^ sz.bits : Nat) : Int) = (2 : Int) ^ sz.bits := by norm_cast
  rw [hp]
  simp

theorem subAlu_flags (sz : Size) (a b : Nat) (u : Bool) (hb : b < 2 ^ sz.bits) :
    SubFlags sz a b (subAlu sz a b u).2 := by
  have hr := subAlu_result sz a b u hb
  have hn : (((a : Int) - b) % 2 ^ sz.bits).toNat = (subAlu sz a b u).1 := by rw [← hr]; rfl
  have hz : ((((a : Int) - b) % 2 ^ sz.bits) == 0) = ((subAlu sz a b u).1 == 0) := by
    rw [← hr]
    cases h : (subAlu sz a b u).1 <;> rfl
  unfold SubFlags
  simp only
  rw [hn, hz]
  refine ⟨rfl, rfl, fun h => ?_, rfl, rfl, rfl⟩
  cases sz
  · rfl
  · rfl
  · exact absurd rfl h

/-! ## DAA_FN (42_arithmetic.md R126, 92 D25) -/

/-- Every argument of DAA_FN. -/
def DaaArgs.all : List DaaArgs :=
  (List.range 256).flatMap fun a => [false, true].flatMap fun n => [false, true].flatMap fun h =>
    [false, true].map fun c => ⟨BitVec.ofNat 8 a, n, h, c⟩

theorem DaaArgs.mem_all (x : DaaArgs) : x ∈ DaaArgs.all := by
  obtain ⟨a, n, h, c⟩ := x
  have hb : ∀ b : Bool, b ∈ [false, true] := by decide
  exact List.mem_flatMap.mpr ⟨a.toNat, List.mem_range.mpr a.isLt, List.mem_flatMap.mpr ⟨n, hb n,
    List.mem_flatMap.mpr ⟨h, hb h, List.mem_map.mpr ⟨c, hb c, by rw [BitVec.ofNat_toNat, BitVec.setWidth_eq]⟩⟩⟩⟩

/-- A product with no rows has the candidate of G22 as DAA_FN. -/
theorem daaResult_of_no_rows (p : Product) (h : p.daaRows = []) (x : DaaArgs) : daaResult p x = daaCandidate x := by
  simp [daaResult, h]

/-- The rows reach every function of the four arguments: what holds for every product holds for every DAA_FN. -/
theorem daaResult_of_function (p : Product) (f : DaaArgs → DaaResult) :
    ∃ rows, ∀ x, daaResult { p with daaRows := rows } x = f x := by
  refine ⟨DaaArgs.all.map fun x => ⟨x, f x⟩, fun x => ?_⟩
  unfold daaResult
  split
  · rename_i row hrow
    obtain ⟨y, -, rfl⟩ := List.mem_map.mp (List.mem_of_find?_eq_some hrow)
    have hyx : y = x := by simpa using List.find?_some hrow
    rw [hyx]
  · rename_i hnone
    have h := List.find?_eq_none.mp hnone ⟨x, f x⟩ (List.mem_map.mpr ⟨x, DaaArgs.mem_all x, rfl⟩)
    simp at h

/-- What ADD and SUB leave in a register part fits its size. -/
theorem AluOp.run_lt (op : AluOp) (sz : Size) (a b : Word) (u : Bool) :
    (op.run sz a b u).1.toNat < 2 ^ sz.bits := by
  have hle := Size.pow_le sz
  have hpos : 0 < 2 ^ sz.bits := Nat.two_pow_pos _
  cases op <;> simp only [AluOp.run, BitVec.toNat_ofNat, addAlu, subAlu] <;>
    exact Nat.lt_of_le_of_lt (Nat.mod_le _ _) (Nat.mod_lt _ hpos)

theorem AluOp.run_add_toNat (sz : Size) (a b : Word) (u : Bool) :
    (AluOp.add.run sz a b u).1.toNat = (a.toNat + b.toNat) % 2 ^ sz.bits := by
  have hle := Size.pow_le sz
  have hlt := Nat.mod_lt (a.toNat + b.toNat) (Nat.two_pow_pos sz.bits)
  simp only [AluOp.run, BitVec.toNat_ofNat, addAlu]
  exact Nat.mod_eq_of_lt (by omega)

theorem AluOp.run_sub_toNat (sz : Size) (a b : Word) (u : Bool) :
    (AluOp.sub.run sz a b u).1.toNat = (subAlu sz a.toNat b.toNat u).1 := by
  have hle := Size.pow_le sz
  have hlt : (subAlu sz a.toNat b.toNat u).1 < 2 ^ sz.bits := Nat.mod_lt _ (Nat.two_pow_pos sz.bits)
  simp only [AluOp.run, BitVec.toNat_ofNat]
  exact Nat.mod_eq_of_lt (by omega)

/-- A value that fits a size is not changed by narrowing to it. -/
theorem Size.and_mask_of_lt (sz : Size) (v : Word) (h : v.toNat < 2 ^ sz.bits) : v &&& sz.mask = v := by
  apply BitVec.eq_of_toNat_eq
  rw [Size.toNat_and_mask, Nat.mod_eq_of_lt h]

end Sys2Proof.Machine
end

