-- ==== Sys2Proof/Laws/Step.lean ====
section
/-! SUPPORT. The operations the meanings share, each said once: operands, ADD and SUB, reset, the step. -/

namespace Sys2Proof.Machine

/-! ## Operands -/

theorem State.mapped_read_of_store (s : State) (n : Nat) :
    ∀ ea, s.mapped .store n ea = true → s.mapped .read n ea = true := by
  induction n with
  | zero => exact fun _ h => h
  | succ n ih =>
    intro ea h
    simp only [State.mapped, Bool.and_eq_true] at *
    refine ⟨?_, ih _ h.2⟩
    have h1 := h.1
    cases hk : s.product.kindAt (s.addr ea) with
    | none => simp [hk] at h1
    | some k => cases k <;> simp [hk] at h1 ⊢

/-- What can be stored can be read back (20_memory.md R69). -/
theorem State.readable_of_storable {s : State} {sz : Size} {ea : Word} (h : s.storable sz ea = true) :
    s.readable sz ea = true := State.mapped_read_of_store s _ _ h

/-- `(reg)` is the 32-bit register's value (30_encoding.md R85 mode 3). -/
theorem State.indirect_eq (s : State) (a : RegCode) : s.indirect a = s.getReg (s.codeHome a) :=
  State.readPart_long s _

theorem Imm.value_lt (n : Imm) : n.value.toNat < 2 ^ n.size.bits := by
  cases n <;> simp [Imm.value, Imm.size, Size.bits] <;> omega

@[simp] theorem State.readPart_advance (s : State) (p : Part) (n : Nat) : (s.advance n).readPart p = s.readPart p :=
  State.readPart_congr p (by simp)

@[simp] theorem State.flags_advance (s : State) (n : Nat) : (s.advance n).flags = s.flags := rfl

@[simp] theorem State.valueAt_advance (s : State) (sz : Size) (ea : Word) (n : Nat) :
    (s.advance n).valueAt sz ea = s.valueAt sz ea := rfl

/-- A register part written and PC moved: the part holds the value, the rest stays. -/
theorem LoadedWith.writePart (s : State) (p : Part) (v : Word) (n : Nat) (hp : p.inside) (hv : v &&& p.size.mask = v) :
    LoadedWith p v s ((s.writePart p v).advance n) := by
  refine ⟨?_, KeepsRegsExcept.trans (KeepsRegsExcept.writePart s p v) (KeepsRegsExcept.of_getReg fun x => by simp),
    by simp, fun a => by simp, by simp, by simp, by simp, by simp⟩
  rw [State.readPart_advance, State.readPart_writePart_self _ _ _ hp, hv]

/-! ## Values on the stack (43_load.md R146) -/

/-- The value pushed stands at the new XSP. -/
theorem State.valueAt_pushed (s : State) (hm : s.MemInv) (sz : Size) (v : Word) :
    (s.pushed sz v).valueAt sz (s.xsp - BitVec.ofNat 32 sz.bytes) = v &&& sz.mask :=
  State.valueAt_storeBytes_self { s with xsp := s.xsp - BitVec.ofNat 32 sz.bytes } hm sz _ v

/-- A value that shares no byte with the value pushed is as it was. -/
theorem State.valueAt_pushed_outside (s : State) (hm : s.MemInv) (sz sz' : Size) (v ea : Word)
    (h : ∀ a, s.inAccess sz' ea a → ¬ s.inAccess sz (s.xsp - BitVec.ofNat 32 sz.bytes) a) :
    (s.pushed sz v).valueAt sz' ea = s.valueAt sz' ea := by
  unfold State.valueAt
  rw [State.pushed_product, Memory.load_congr _ sz'.bytes s.mem (s.pushed sz v).mem ea]
  exact fun k hk => Memory.read_store_outside _ _ _ _ _ _ hm.2.1 fun l hl e => h _ ⟨k, hk, rfl⟩ ⟨l, hl, e⟩

/-! ## ADD and SUB (42_arithmetic.md R121 to R124) -/

/-- Everything an ADD or SUB to a register part does. -/
theorem aluToPart_spec (op : AluOp) (s : State) (p : Part) (b : Word) (n : Nat) (hp : p.inside) :
    let t := (aluToPart op p b s).advance n
    let out := op.run p.size (s.readPart p) b s.drawn.h
    t.readPart p = out.1 ∧ t.flags = out.2 ∧ OnlyRegsAndF [p] s t ∧ t.pc = s.pc + BitVec.ofNat 32 n := by
  intro t out
  have ho : out.1 &&& p.size.mask = out.1 := Size.and_mask_of_lt _ _ (AluOp.run_lt _ _ _ _ _)
  refine ⟨?_, State.setFlags_flags _ _, ⟨?_, ?_, fun a => ?_, ?_, ?_, ?_, ?_⟩, ?_⟩
  · show ((s.writePart p out.1).setFlags out.2).readPart p = _
    rw [State.readPart_congr (s := s.writePart p out.1) p (by simp), State.readPart_writePart_self _ _ _ hp, ho]
  · exact KeepsRegsExcept.trans (KeepsRegsExcept.writePart s p out.1)
      (KeepsRegsExcept.of_getReg fun x => by simp [t, aluToPart, out])
  · intro i hi
    have h := KeepsSrBut.setFlags (s.writePart p out.1) out.2 i hi
    rwa [State.writePart_sr] at h
  all_goals simp [t, aluToPart]

/-- ADD to a part obeys the flag laws and the frame. -/
theorem AddedTo.aluToPart (s : State) (p : Part) (b : Word) (n : Nat) (hp : p.inside) :
    AddedTo p b s ((aluToPart .add p b s).advance n) := by
  obtain ⟨h1, h2, h3, -⟩ := aluToPart_spec .add s p b n hp
  exact ⟨by rw [h1, AluOp.run_add_toNat], by rw [h2]; exact addAlu_flags _ _ _ _, h3⟩

/-- SUB from a part obeys the flag laws and the frame. -/
theorem SubtractedFrom.aluToPart (s : State) (p : Part) (b : Word) (n : Nat) (hp : p.inside)
    (hb : b.toNat < 2 ^ p.size.bits) : SubtractedFrom p b s ((aluToPart .sub p b s).advance n) := by
  obtain ⟨h1, h2, h3, -⟩ := aluToPart_spec .sub s p b n hp
  exact ⟨by rw [h1, AluOp.run_sub_toNat]; exact subAlu_result _ _ _ _ hb,
    by rw [h2]; exact subAlu_flags _ _ _ _ hb, h3⟩

/-- Everything an ADD or SUB to memory does. -/
theorem aluToMem_eq_next (op : AluOp) (sz : Size) (ea b : Word) (s t : State) :
    aluToMem op sz ea b s = .next t ↔
      s.storable sz ea = true ∧
      t = (s.storeBytes sz.bytes ea (op.run sz (s.valueAt sz ea) b s.drawn.h).1).setFlags
        (op.run sz (s.valueAt sz ea) b s.drawn.h).2 := by
  simp only [aluToMem, Res.andThen_eq_next, memRead_eq_next, memWrite_eq_next, Host.Outcome.next.injEq]
  constructor
  · rintro ⟨v, ⟨-, rfl⟩, s1, ⟨h, rfl⟩, rfl⟩
    exact ⟨h, rfl⟩
  · rintro ⟨h, rfl⟩
    exact ⟨_, ⟨State.readable_of_storable h, rfl⟩, _, ⟨h, rfl⟩, rfl⟩

/-! ## Reset and the step -/

/-- Everything a reset of a running machine does (10_state.md R56, 70_reset_and_hazards.md R190, R191). -/
theorem resetAction_eq_next (s t : State) :
    resetAction s = .next t ↔
      s.mapped .read 3 s.product.vectorBase = true ∧
      t = { State.reset with
              pc := s.mem.vector s.product.addrBits s.product.vectorBase, cr := CtrlRegs.reset s.product.channels,
              mem := s.mem, stored := s.stored, draws := s.draws, env := s.env, product := s.product } := by
  rw [resetAction, Res.andThen_eq_next]
  constructor
  · rintro ⟨⟨⟩, h, ht⟩
    exact ⟨(accessRange_eq_next _ _ _ _).mp h, (Host.Outcome.next.injEq _ _ ▸ ht).symm⟩
  · rintro ⟨h, rfl⟩
    exact ⟨(), (accessRange_eq_next _ _ _ _).mpr h, rfl⟩

theorem runInstr_eq_next (s t : State) : runInstr s = .next t ↔ ∃ i, fetch s = .next i ∧ exec i s = .next t :=
  Res.andThen_eq_next

/-- Everything a step can be: a reset, an interrupt entry, or an instruction run with nothing let in
(60_exceptions.md R165). -/
theorem step_eq_next (s t : State) :
    step s = .next t ↔
      (∃ rest, s.env = .reset :: rest ∧ resetAction s.dropEvent = .next t) ∨
      (∃ rs rest r, s.env = .present rs :: rest ∧ s.accepted rs = some r ∧ takeInterrupt r s.dropEvent = .next t) ∨
      ((s.env = [] ∨ ∃ rs rest, s.env = .present rs :: rest ∧ s.accepted rs = none) ∧
        runInstr s.dropEvent = .next t) := by
  have hnil : s.env = [] → s.dropEvent = s := by
    intro h
    cases s
    simp only [State.dropEvent] at h ⊢
    subst h
    rfl
  unfold step
  cases he : s.env with
  | nil => simp [hnil he]
  | cons e rest =>
    cases e with
    | reset => simp
    | present rs => cases ha : s.accepted rs <;> simp [ha]

/-! ## Observing a run (92_eei_decisions.md D21) -/

theorem State.atEnd_iff (s : State) : s.atEnd = true ↔ s.product.endPc = some (s.addr s.pc) := decide_eq_true_iff

/-- A run is observed at its start when PC is END_PC. -/
theorem observed_of_atEnd {s : State} (h : s.atEnd = true) (n : Nat) : observed n s = .next (some s) := by
  cases n <;> simp [observed, h]

/-- Otherwise within no steps it is not observed, and within one more than `n` it is what the run from the next state is
within `n`. -/
theorem observed_zero {s : State} (h : s.atEnd = false) : observed 0 s = .next none := by simp [observed, h]

theorem observed_succ {s : State} (h : s.atEnd = false) (n : Nat) :
    observed (n + 1) s = Res.andThen (step s) (observed n) := by simp [observed, h]

end Sys2Proof.Machine
end

