-- ==== Sys2Proof/Tests/Slice0.lean ====
section
/-! SUPPORT. Tests: the vectors of spec/95_test_vectors.md, each named in its comment, words written out from
30_encoding.md R87 to R93, and for every statement with hypotheses a witness that meets them. -/

namespace Sys2Proof.Tests

open Machine

/-! ## Helpers -/

def decodesTo (bs : List Byte) (i : Instr) : Bool :=
  match decode bs with
  | .ok j => decide (j = i)
  | .error _ => false

def rejects (bs : List Byte) : Bool :=
  match decode bs with
  | .ok _ => false
  | .error _ => true

/-- The state after reset with PC at 1000H: XSP = 100H, SR = F800H, all of memory RAM. -/
def base : State := { State.reset with pc := 0x00001000#32 }

abbrev xwa (bank : BitVec 2) : Home := .banked bank .xwa
abbrev xbc (bank : BitVec 2) : Home := .banked bank .xbc
abbrev xhl (bank : BitVec 2) : Home := .banked bank .xhl

/-- Bytes put into memory. -/
def poke (ea : Word) (bs : List Byte) (s : State) : State :=
  { s with mem := s.mem.place s.product.addrBits ea bs }

/-- One step with these bytes at PC. -/
def run (bs : List Byte) (s : State) : Res State := step (poke s.pc bs s)

def check (x : Res State) (p : State → Bool) : Bool :=
  match x with
  | .next t => p t
  | _ => false

def isNext {α : Type} (x : Res α) : Bool :=
  match x with
  | .next _ => true
  | _ => false

theorem exists_next {α : Type} {x : Res α} (h : isNext x = true) : ∃ t, x = .next t := by
  cases x with
  | next t => exact ⟨t, rfl⟩
  | _ => exact absurd h (by simp [isNext])

/-- Memory holds these bytes from `a` upward. -/
def holds (s : State) (a : Nat) (bs : List Byte) : Bool :=
  (List.range bs.length).all fun k => some (s.mem.read (a + k)) == bs[k]?

/-! ## Decoding: every row of the opcode table -/

/-- Formats IMP, IMM3, ABS and RI: words written out from R87 to R93. -/
def wordsPlain1 : List (List Byte × Instr) :=
  [([0x02#8], Instr.pushSr),
   ([0x03#8], Instr.popSr),
   ([0x07#8], Instr.reti),
   ([0x0C#8], Instr.incf),
   ([0x0D#8], Instr.decf),
   ([0x0E#8], Instr.ret),
   ([0x14#8], Instr.pushA),
   ([0x15#8], Instr.popA),
   ([0x16#8], Instr.exFF),
   ([0x18#8], Instr.pushF),
   ([0x19#8], Instr.popF)]

theorem test_decode_wordsPlain1 : wordsPlain1.all (fun w => decodesTo w.1 w.2) = true := by decide

def wordsPlain2 : List (List Byte × Instr) :=
  [([0x06#8, 0x05#8], Instr.ei 5#3),
   ([0x17#8, 0x03#8], Instr.ldf 3#3),
   ([0x1C#8, 0x34#8, 0x12#8], Instr.call16 0x1234#16),
   ([0x1D#8, 0x56#8, 0x34#8, 0x12#8], Instr.call24 0x123456#24),
   ([0x21#8, 0x9A#8], Instr.ldRn8 1#3 0x9A#8),
   ([0x33#8, 0x78#8, 0x56#8], Instr.ldRn16 3#3 0x5678#16),
   ([0x46#8, 0x78#8, 0x56#8, 0x34#8, 0x12#8], Instr.ldRn32 6#3 0x12345678#32),
   ([0x2B#8], Instr.pushShort Size.w16 3#3),
   ([0x3F#8], Instr.pushShort Size.l32 7#3),
   ([0x4C#8], Instr.popShort Size.w16 4#3),
   ([0x5A#8], Instr.popShort Size.l32 2#3)]

theorem test_decode_wordsPlain2 : wordsPlain2.all (fun w => decodesTo w.1 w.2) = true := by decide

/-- Format REG, short and long prefixes: words written out from R87 to R93. -/
def wordsReg1 : List (List Byte × Instr) :=
  [([0xCB#8, 0x03#8, 0x9A#8], Instr.ldrn (RegOp.short 3#3) (Imm.n8 0x9A#8)),
   ([0xCB#8, 0x04#8], Instr.pushReg Size.b8 (RegOp.short 3#3)),
   ([0xCB#8, 0x05#8], Instr.popReg Size.b8 (RegOp.short 3#3)),
   ([0xCB#8, 0x10#8], Instr.daa (RegOp.short 3#3)),
   ([0xCB#8, 0x2E#8, 0x22#8], Instr.ldcCrR Size.b8 (RegOp.short 3#3) 0x22#8),
   ([0xCB#8, 0x2F#8, 0x22#8], Instr.ldcRCr Size.b8 (RegOp.short 3#3) 0x22#8),
   ([0xCB#8, 0x86#8], Instr.addRr Size.b8 6#3 (RegOp.short 3#3)),
   ([0xCB#8, 0x8D#8], Instr.ldRr Size.b8 5#3 (RegOp.short 3#3)),
   ([0xCB#8, 0x9C#8], Instr.ldrR Size.b8 (RegOp.short 3#3) 4#3),
   ([0xCB#8, 0xA2#8], Instr.subRr Size.b8 2#3 (RegOp.short 3#3)),
   ([0xCB#8, 0xAF#8], Instr.ldr3 Size.b8 (RegOp.short 3#3) 7#3),
   ([0xCB#8, 0xBE#8], Instr.exRr Size.b8 6#3 (RegOp.short 3#3)),
   ([0xCB#8, 0xC8#8, 0x9A#8], Instr.addrn (RegOp.short 3#3) (Imm.n8 0x9A#8)),
   ([0xCB#8, 0xCA#8, 0x9A#8], Instr.subrn (RegOp.short 3#3) (Imm.n8 0x9A#8))]

theorem test_decode_wordsReg1 : wordsReg1.all (fun w => decodesTo w.1 w.2) = true := by decide

def wordsReg2 : List (List Byte × Instr) :=
  [([0xC7#8, 0xD1#8, 0x03#8, 0x9A#8], Instr.ldrn (RegOp.long ⟨RegFile.prev, 0#2, 1#2⟩) (Imm.n8 0x9A#8)),
   ([0xC7#8, 0xD1#8, 0x04#8], Instr.pushReg Size.b8 (RegOp.long ⟨RegFile.prev, 0#2, 1#2⟩)),
   ([0xC7#8, 0xD1#8, 0x05#8], Instr.popReg Size.b8 (RegOp.long ⟨RegFile.prev, 0#2, 1#2⟩)),
   ([0xC7#8, 0xD1#8, 0x10#8], Instr.daa (RegOp.long ⟨RegFile.prev, 0#2, 1#2⟩)),
   ([0xC7#8, 0xD1#8, 0x2E#8, 0x22#8], Instr.ldcCrR Size.b8 (RegOp.long ⟨RegFile.prev, 0#2, 1#2⟩) 0x22#8),
   ([0xC7#8, 0xD1#8, 0x2F#8, 0x22#8], Instr.ldcRCr Size.b8 (RegOp.long ⟨RegFile.prev, 0#2, 1#2⟩) 0x22#8),
   ([0xC7#8, 0xD1#8, 0x86#8], Instr.addRr Size.b8 6#3 (RegOp.long ⟨RegFile.prev, 0#2, 1#2⟩)),
   ([0xC7#8, 0xD1#8, 0x8D#8], Instr.ldRr Size.b8 5#3 (RegOp.long ⟨RegFile.prev, 0#2, 1#2⟩)),
   ([0xC7#8, 0xD1#8, 0x9C#8], Instr.ldrR Size.b8 (RegOp.long ⟨RegFile.prev, 0#2, 1#2⟩) 4#3),
   ([0xC7#8, 0xD1#8, 0xA2#8], Instr.subRr Size.b8 2#3 (RegOp.long ⟨RegFile.prev, 0#2, 1#2⟩)),
   ([0xC7#8, 0xD1#8, 0xAF#8], Instr.ldr3 Size.b8 (RegOp.long ⟨RegFile.prev, 0#2, 1#2⟩) 7#3),
   ([0xC7#8, 0xD1#8, 0xBE#8], Instr.exRr Size.b8 6#3 (RegOp.long ⟨RegFile.prev, 0#2, 1#2⟩)),
   ([0xC7#8, 0xD1#8, 0xC8#8, 0x9A#8], Instr.addrn (RegOp.long ⟨RegFile.prev, 0#2, 1#2⟩) (Imm.n8 0x9A#8)),
   ([0xC7#8, 0xD1#8, 0xCA#8, 0x9A#8], Instr.subrn (RegOp.long ⟨RegFile.prev, 0#2, 1#2⟩) (Imm.n8 0x9A#8))]

theorem test_decode_wordsReg2 : wordsReg2.all (fun w => decodesTo w.1 w.2) = true := by decide

def wordsReg3 : List (List Byte × Instr) :=
  [([0xDB#8, 0x03#8, 0x78#8, 0x56#8], Instr.ldrn (RegOp.short 3#3) (Imm.n16 0x5678#16)),
   ([0xDB#8, 0x04#8], Instr.pushReg Size.w16 (RegOp.short 3#3)),
   ([0xDB#8, 0x05#8], Instr.popReg Size.w16 (RegOp.short 3#3)),
   ([0xDB#8, 0x2E#8, 0x3C#8], Instr.ldcCrR Size.w16 (RegOp.short 3#3) 0x3C#8),
   ([0xDB#8, 0x2F#8, 0x3C#8], Instr.ldcRCr Size.w16 (RegOp.short 3#3) 0x3C#8),
   ([0xDB#8, 0x86#8], Instr.addRr Size.w16 6#3 (RegOp.short 3#3)),
   ([0xDB#8, 0x8D#8], Instr.ldRr Size.w16 5#3 (RegOp.short 3#3)),
   ([0xDB#8, 0x9C#8], Instr.ldrR Size.w16 (RegOp.short 3#3) 4#3),
   ([0xDB#8, 0xA2#8], Instr.subRr Size.w16 2#3 (RegOp.short 3#3)),
   ([0xDB#8, 0xAF#8], Instr.ldr3 Size.w16 (RegOp.short 3#3) 7#3),
   ([0xDB#8, 0xBE#8], Instr.exRr Size.w16 6#3 (RegOp.short 3#3)),
   ([0xDB#8, 0xC8#8, 0x78#8, 0x56#8], Instr.addrn (RegOp.short 3#3) (Imm.n16 0x5678#16)),
   ([0xDB#8, 0xCA#8, 0x78#8, 0x56#8], Instr.subrn (RegOp.short 3#3) (Imm.n16 0x5678#16))]

theorem test_decode_wordsReg3 : wordsReg3.all (fun w => decodesTo w.1 w.2) = true := by decide

def wordsReg4 : List (List Byte × Instr) :=
  [([0xD7#8, 0x36#8, 0x03#8, 0x78#8, 0x56#8], Instr.ldrn (RegOp.long ⟨RegFile.abs 3#2, 1#2, 2#2⟩) (Imm.n16 0x5678#16)),
   ([0xD7#8, 0x36#8, 0x04#8], Instr.pushReg Size.w16 (RegOp.long ⟨RegFile.abs 3#2, 1#2, 2#2⟩)),
   ([0xD7#8, 0x36#8, 0x05#8], Instr.popReg Size.w16 (RegOp.long ⟨RegFile.abs 3#2, 1#2, 2#2⟩)),
   ([0xD7#8, 0x36#8, 0x2E#8, 0x3C#8], Instr.ldcCrR Size.w16 (RegOp.long ⟨RegFile.abs 3#2, 1#2, 2#2⟩) 0x3C#8),
   ([0xD7#8, 0x36#8, 0x2F#8, 0x3C#8], Instr.ldcRCr Size.w16 (RegOp.long ⟨RegFile.abs 3#2, 1#2, 2#2⟩) 0x3C#8),
   ([0xD7#8, 0x36#8, 0x86#8], Instr.addRr Size.w16 6#3 (RegOp.long ⟨RegFile.abs 3#2, 1#2, 2#2⟩)),
   ([0xD7#8, 0x36#8, 0x8D#8], Instr.ldRr Size.w16 5#3 (RegOp.long ⟨RegFile.abs 3#2, 1#2, 2#2⟩)),
   ([0xD7#8, 0x36#8, 0x9C#8], Instr.ldrR Size.w16 (RegOp.long ⟨RegFile.abs 3#2, 1#2, 2#2⟩) 4#3),
   ([0xD7#8, 0x36#8, 0xA2#8], Instr.subRr Size.w16 2#3 (RegOp.long ⟨RegFile.abs 3#2, 1#2, 2#2⟩)),
   ([0xD7#8, 0x36#8, 0xAF#8], Instr.ldr3 Size.w16 (RegOp.long ⟨RegFile.abs 3#2, 1#2, 2#2⟩) 7#3),
   ([0xD7#8, 0x36#8, 0xBE#8], Instr.exRr Size.w16 6#3 (RegOp.long ⟨RegFile.abs 3#2, 1#2, 2#2⟩)),
   ([0xD7#8, 0x36#8, 0xC8#8, 0x78#8, 0x56#8], Instr.addrn (RegOp.long ⟨RegFile.abs 3#2, 1#2, 2#2⟩) (Imm.n16 0x5678#16)),
   ([0xD7#8, 0x36#8, 0xCA#8, 0x78#8, 0x56#8], Instr.subrn (RegOp.long ⟨RegFile.abs 3#2, 1#2, 2#2⟩) (Imm.n16 0x5678#16))]

theorem test_decode_wordsReg4 : wordsReg4.all (fun w => decodesTo w.1 w.2) = true := by decide

def wordsReg5 : List (List Byte × Instr) :=
  [([0xEB#8, 0x03#8, 0x78#8, 0x56#8, 0x34#8, 0x12#8], Instr.ldrn (RegOp.short 3#3) (Imm.n32 0x12345678#32)),
   ([0xEB#8, 0x04#8], Instr.pushReg Size.l32 (RegOp.short 3#3)),
   ([0xEB#8, 0x05#8], Instr.popReg Size.l32 (RegOp.short 3#3)),
   ([0xEB#8, 0x2E#8, 0x14#8], Instr.ldcCrR Size.l32 (RegOp.short 3#3) 0x14#8),
   ([0xEB#8, 0x2F#8, 0x14#8], Instr.ldcRCr Size.l32 (RegOp.short 3#3) 0x14#8),
   ([0xEB#8, 0x86#8], Instr.addRr Size.l32 6#3 (RegOp.short 3#3)),
   ([0xEB#8, 0x8D#8], Instr.ldRr Size.l32 5#3 (RegOp.short 3#3)),
   ([0xEB#8, 0x9C#8], Instr.ldrR Size.l32 (RegOp.short 3#3) 4#3),
   ([0xEB#8, 0xA2#8], Instr.subRr Size.l32 2#3 (RegOp.short 3#3)),
   ([0xEB#8, 0xAF#8], Instr.ldr3 Size.l32 (RegOp.short 3#3) 7#3),
   ([0xEB#8, 0xC8#8, 0x78#8, 0x56#8, 0x34#8, 0x12#8], Instr.addrn (RegOp.short 3#3) (Imm.n32 0x12345678#32)),
   ([0xEB#8, 0xCA#8, 0x78#8, 0x56#8, 0x34#8, 0x12#8], Instr.subrn (RegOp.short 3#3) (Imm.n32 0x12345678#32))]

theorem test_decode_wordsReg5 : wordsReg5.all (fun w => decodesTo w.1 w.2) = true := by decide

def wordsReg6 : List (List Byte × Instr) :=
  [([0xE7#8, 0xFC#8, 0x03#8, 0x78#8, 0x56#8, 0x34#8, 0x12#8], Instr.ldrn (RegOp.long ⟨RegFile.outside, 3#2, 0#2⟩) (Imm.n32 0x12345678#32)),
   ([0xE7#8, 0xFC#8, 0x04#8], Instr.pushReg Size.l32 (RegOp.long ⟨RegFile.outside, 3#2, 0#2⟩)),
   ([0xE7#8, 0xFC#8, 0x05#8], Instr.popReg Size.l32 (RegOp.long ⟨RegFile.outside, 3#2, 0#2⟩)),
   ([0xE7#8, 0xFC#8, 0x2E#8, 0x14#8], Instr.ldcCrR Size.l32 (RegOp.long ⟨RegFile.outside, 3#2, 0#2⟩) 0x14#8),
   ([0xE7#8, 0xFC#8, 0x2F#8, 0x14#8], Instr.ldcRCr Size.l32 (RegOp.long ⟨RegFile.outside, 3#2, 0#2⟩) 0x14#8),
   ([0xE7#8, 0xFC#8, 0x86#8], Instr.addRr Size.l32 6#3 (RegOp.long ⟨RegFile.outside, 3#2, 0#2⟩)),
   ([0xE7#8, 0xFC#8, 0x8D#8], Instr.ldRr Size.l32 5#3 (RegOp.long ⟨RegFile.outside, 3#2, 0#2⟩)),
   ([0xE7#8, 0xFC#8, 0x9C#8], Instr.ldrR Size.l32 (RegOp.long ⟨RegFile.outside, 3#2, 0#2⟩) 4#3),
   ([0xE7#8, 0xFC#8, 0xA2#8], Instr.subRr Size.l32 2#3 (RegOp.long ⟨RegFile.outside, 3#2, 0#2⟩)),
   ([0xE7#8, 0xFC#8, 0xAF#8], Instr.ldr3 Size.l32 (RegOp.long ⟨RegFile.outside, 3#2, 0#2⟩) 7#3),
   ([0xE7#8, 0xFC#8, 0xC8#8, 0x78#8, 0x56#8, 0x34#8, 0x12#8], Instr.addrn (RegOp.long ⟨RegFile.outside, 3#2, 0#2⟩) (Imm.n32 0x12345678#32)),
   ([0xE7#8, 0xFC#8, 0xCA#8, 0x78#8, 0x56#8, 0x34#8, 0x12#8], Instr.subrn (RegOp.long ⟨RegFile.outside, 3#2, 0#2⟩) (Imm.n32 0x12345678#32))]

theorem test_decode_wordsReg6 : wordsReg6.all (fun w => decodesTo w.1 w.2) = true := by decide

/-- Formats SRC and DST: words written out from R87 to R93. -/
def wordsMem1 : List (List Byte × Instr) :=
  [([0x84#8, 0x23#8], Instr.ldRm Size.b8 3#3 4#3),
   ([0x84#8, 0x85#8], Instr.addRm Size.b8 5#3 4#3),
   ([0x84#8, 0x8E#8], Instr.addmR Size.b8 4#3 6#3),
   ([0x84#8, 0xA1#8], Instr.subRm Size.b8 1#3 4#3),
   ([0x84#8, 0xAF#8], Instr.submR Size.b8 4#3 7#3),
   ([0x94#8, 0x23#8], Instr.ldRm Size.w16 3#3 4#3),
   ([0x94#8, 0x85#8], Instr.addRm Size.w16 5#3 4#3),
   ([0x94#8, 0x8E#8], Instr.addmR Size.w16 4#3 6#3),
   ([0x94#8, 0xA1#8], Instr.subRm Size.w16 1#3 4#3),
   ([0x94#8, 0xAF#8], Instr.submR Size.w16 4#3 7#3),
   ([0xA4#8, 0x23#8], Instr.ldRm Size.l32 3#3 4#3)]

theorem test_decode_wordsMem1 : wordsMem1.all (fun w => decodesTo w.1 w.2) = true := by decide

def wordsMem2 : List (List Byte × Instr) :=
  [([0xA4#8, 0x85#8], Instr.addRm Size.l32 5#3 4#3),
   ([0xA4#8, 0x8E#8], Instr.addmR Size.l32 4#3 6#3),
   ([0xA4#8, 0xA1#8], Instr.subRm Size.l32 1#3 4#3),
   ([0xA4#8, 0xAF#8], Instr.submR Size.l32 4#3 7#3),
   ([0xB3#8, 0x42#8], Instr.ldmR Size.b8 3#3 2#3),
   ([0xB3#8, 0x52#8], Instr.ldmR Size.w16 3#3 2#3),
   ([0xB3#8, 0x62#8], Instr.ldmR Size.l32 3#3 2#3)]

theorem test_decode_wordsMem2 : wordsMem2.all (fun w => decodesTo w.1 w.2) = true := by decide

/-- The words the spec refuses: B6, B18, DA5, E1, E2, E3, E4, E7. -/
theorem test_decode_refuses :
    [[0x17#8, 0x08#8], [0xEB#8, 0xB9#8], [0xD9#8, 0x10#8], [0x00#8], [0xC7#8, 0x40#8, 0x88#8], [0xF8#8, 0x88#8],
      [0x9C#8, 0x05#8, 0x23#8], [0x06#8, 0x08#8]].all rejects = true := by decide

/-- E5, E6, E8. -/
theorem test_decode_long_and_prefix :
    (decodesTo [0xE7#8, 0xE0#8, 0x88#8] (.ldRr .l32 0#3 (.long ⟨.cur, 0#2, 0#2⟩)) &&
      decodesTo [0xD7#8, 0xE5#8, 0x88#8] (.ldRr .w16 0#3 (.long ⟨.cur, 1#2, 1#2⟩)) &&
      decodesTo [0xCA#8, 0xA1#8] (.subRr .b8 1#3 (.short 2#3))) = true := by decide

/-- A word of the opcode table, its first byte the most significant (98_reader.md): LD HL,5678H. -/
theorem test_decodeTableWord : decodeTableWord 24 0x337856 = some (.ldRn16 3#3 0x5678#16) := by decide

/-- The same word placed, and run as the first instruction after reset. -/
theorem test_withFetchWord :
    check (step (State.reset.withFetchWord 24 0x337856)) (fun t => t.getReg (xhl 0#2) == 0x00005678#32) = true := by
  decide

/-! ## Well-formedness: each check refuses an ill-formed term -/

/-- PUSH R and POP R have no 8-bit form (R93). -/
theorem test_wellFormed_pushShort : Instr.wellFormed (.pushShort .b8 3#3) = false := by decide
theorem test_wellFormed_popShort : Instr.wellFormed (.popShort .b8 3#3) = false := by decide

/-- EX R,r has no 32-bit form (R95). -/
theorem test_wellFormed_exRr : Instr.wellFormed (.exRr .l32 1#3 (.short 3#3)) = false := by decide

theorem test_wellFormed_others :
    (Instr.wellFormed (.pushShort .w16 3#3) && Instr.wellFormed (.popShort .l32 3#3) &&
      Instr.wellFormed (.exRr .b8 1#3 (.short 1#3))) = true := by decide

/-! ## State and memory -/

theorem test_reset_memory_wf : Memory.wf State.reset.mem := by decide

/-- A product of 16 address pins: the address wraps at 10000H. -/
theorem test_sixteen_pins :
    check (run [0x94#8, 0x23#8] (poke 0xFFFF#32 [0x33#8, 0x22#8]
        { base.setReg .xix 0x0012FFFF#32 with product := { base.product with addrBits := 16 } }))
      (fun t => t.getReg (xhl 0#2) == 0x2233#32) = true := by decide

/-- S10. -/
theorem test_reset : State.reset.xsp = 0x100#32 ∧ State.reset.sr = 0xF800#16 := by decide

/-- Writing the blank byte removes the entry. -/
theorem test_memory_canonical :
    Memory.write (Memory.write [(3, 0x11#8)] 5 0x22#8) 5 0xFF#8 = [(3, 0x11#8)] := by decide

/-! ## Bank switching and exchange: B2, B4, B8, B10, B12, B14, B15 -/

theorem test_ldf : check (run [0x17#8, 0x05#8] base) (fun t => t.rfp == 1#3 && t.pc == 0x1002#32) = true := by decide

theorem test_incf_wraps :
    check (run [0x0C#8] (base.setBank 3#2)) (fun t => t.rfp == 0#3 && t.pc == 0x1001#32 && t.f == 0#8) = true := by decide

theorem test_decf_wraps : check (run [0x0D#8] base) (fun t => t.rfp == 3#3 && t.f == 0#8) = true := by decide

theorem test_exFF :
    check (run [0x16#8] { base.setF 0x01#8 with fAlt := 0x40#8 })
      (fun t => t.sr == 0xF840#16 && t.fAlt == 0x01#8) = true := by decide

theorem test_exRr_previous :
    check (run [0xC7#8, 0xD0#8, 0xB9#8]
        (((base.setBank 1#2).setReg (xwa 1#2) 0xAABBCC11#32).setReg (xwa 0#2) 0xDDEEFF22#32))
      (fun t => t.getReg (xwa 1#2) == 0xAABBCC22#32 && t.getReg (xwa 0#2) == 0xDDEEFF11#32 && t.rfp == 1#3 &&
        t.pc == 0x1003#32) = true := by decide

theorem test_exRr_previous_of_zero :
    check (run [0xC7#8, 0xD0#8, 0xB9#8] ((base.setReg (xwa 0#2) 0x11#32).setReg (xwa 3#2) 0x22#32))
      (fun t => t.getReg (xwa 0#2) == 0x22#32 && t.getReg (xwa 3#2) == 0x11#32) = true := by decide

/-! ## Interrupt mask, call and return: I1, I4, I6, I7, I9, I10, I11, I12 -/

theorem test_ei : check (run [0x06#8, 0x03#8] base) (fun t => t.sr == 0xB800#16 && t.pc == 0x1002#32) = true := by decide

theorem test_ei_keeps :
    check (run [0x06#8, 0x05#8] ((base.setBank 2#2).setF 0xC1#8)) (fun t => t.sr == 0xDAC1#16) = true := by decide

theorem test_call16 :
    check (run [0x1C#8, 0x00#8, 0x20#8] base)
      (fun t => t.xsp == 0xFC#32 && holds t 0xFC [0x03#8, 0x10#8, 0x00#8, 0x00#8] && t.pc == 0x2000#32) = true := by
  decide

theorem test_call24_top_byte :
    check (run [0x1D#8, 0x00#8, 0x20#8, 0x00#8] { base with pc := 0x12001000#32 })
      (fun t => holds t 0xFC [0x04#8, 0x10#8, 0x00#8, 0x12#8] && t.pc == 0x2000#32) = true := by decide

theorem test_ret :
    check (run [0x0E#8] (poke 0xFC#32 [0x04#8, 0x10#8, 0x00#8, 0x12#8] { base with xsp := 0xFC#32 }))
      (fun t => t.pc == 0x12001004#32 && t.xsp == 0x100#32 && t.sr == 0xF800#16) = true := by decide

/-- I10. -/
theorem test_reti :
    check (run [0x07#8] (poke 0xFA#32 [0x41#8, 0xA8#8, 0x04#8, 0x10#8, 0x00#8, 0x00#8]
        { base.setIntnest 1#16 with xsp := 0xFA#32, sr := 0xDB00#16 }))
      (fun t => t.sr == 0xA841#16 && t.pc == 0x1004#32 && t.xsp == 0x100#32 && t.cr.intnest == 0#16) = true := by decide

/-- I12. -/
theorem test_reti_fixed_bits :
    check (run [0x07#8] (poke 0xFA#32 [0x03#8, 0x2C#8, 0x04#8, 0x10#8, 0x00#8, 0x00#8] { base with xsp := 0xFA#32 }))
      (fun t => t.sr == 0xA803#16 && t.cr.intnest == 0xFFFF#16) = true := by decide

/-- I11 and L34: MAX would become 0. -/
theorem test_max_zero :
    run [0x07#8] (poke 0xFA#32 [0x00#8, 0xA4#8] { base with xsp := 0xFA#32 }) = .fault .maxCleared ∧
      run [0x03#8] (poke 0xFA#32 [0x00#8, 0x00#8] { base with xsp := 0xFA#32 }) = .fault .maxCleared := ⟨rfl, rfl⟩

/-! ## Arithmetic -/

/-- The result and flags of a vector, whatever H is at 32 bits. -/
def agrees (out : Nat × Flags) (r : Nat) (fl : Flags) : Bool := out.1 == r && decide (out.2 = fl)

/-- A1 to A11: S Z H V N C. -/
theorem test_add_vectors :
    (agrees (addAlu .b8 0x00 0x00 true) 0x00 ⟨false, true, false, false, false, false⟩ &&
      agrees (addAlu .b8 0x7F 0x01 true) 0x80 ⟨true, false, true, true, false, false⟩ &&
      agrees (addAlu .b8 0xFF 0x01 true) 0x00 ⟨false, true, true, false, false, true⟩ &&
      agrees (addAlu .b8 0x80 0x80 true) 0x00 ⟨false, true, false, true, false, true⟩ &&
      agrees (addAlu .b8 0x0F 0x01 true) 0x10 ⟨false, false, true, false, false, false⟩ &&
      agrees (addAlu .b8 0x80 0x7F true) 0xFF ⟨true, false, false, false, false, false⟩ &&
      agrees (addAlu .b8 0x15 0x27 true) 0x3C ⟨false, false, false, false, false, false⟩ &&
      agrees (addAlu .w16 0x7FFF 0x0001 true) 0x8000 ⟨true, false, true, true, false, false⟩ &&
      agrees (addAlu .w16 0xFFFF 0x0001 true) 0x0000 ⟨false, true, true, false, false, true⟩ &&
      agrees (addAlu .w16 0x8000 0x8000 true) 0x0000 ⟨false, true, false, true, false, true⟩ &&
      agrees (addAlu .w16 0x00F0 0x0010 true) 0x0100 ⟨false, false, false, false, false, false⟩) = true := by decide

/-- A13 to A15: H is the free bit. -/
theorem test_add_vectors_long : ∀ d : Bool,
    (agrees (addAlu .l32 0x7FFFFFFF 0x00000001 d) 0x80000000 ⟨true, false, d, true, false, false⟩ &&
      agrees (addAlu .l32 0xFFFFFFFF 0x00000001 d) 0x00000000 ⟨false, true, d, false, false, true⟩ &&
      agrees (addAlu .l32 0x00010000 0x0000FFFF d) 0x0001FFFF ⟨false, false, d, false, false, false⟩) = true := by decide

/-- M1 to M5, M7, M8. -/
theorem test_sub_vectors :
    (agrees (subAlu .b8 0x00 0x01 true) 0xFF ⟨true, false, true, false, true, true⟩ &&
      agrees (subAlu .b8 0x80 0x01 true) 0x7F ⟨false, false, true, true, true, false⟩ &&
      agrees (subAlu .b8 0x10 0x01 true) 0x0F ⟨false, false, true, false, true, false⟩ &&
      agrees (subAlu .b8 0x55 0x55 true) 0x00 ⟨false, true, false, false, true, false⟩ &&
      agrees (subAlu .b8 0x7F 0xFF true) 0x80 ⟨true, false, false, true, true, true⟩ &&
      agrees (subAlu .w16 0x0000 0x0001 true) 0xFFFF ⟨true, false, true, false, true, true⟩ &&
      agrees (subAlu .w16 0x8000 0x0001 true) 0x7FFF ⟨false, false, true, true, true, false⟩) = true := by decide

/-- M10. -/
theorem test_sub_vectors_long : ∀ d : Bool,
    agrees (subAlu .l32 0x00000000 0x00000001 d) 0xFFFFFFFF ⟨true, false, d, false, true, true⟩ = true := by decide

/-- DA1 to DA4, under the candidate of G22: a, N H C, then r and S Z H P C. -/
theorem test_daa_vectors :
    daaFn Config.product 0x3C#8 false false false = ⟨0x42#8, false, false, true, true, false⟩ ∧
      daaFn Config.product 0x9A#8 false false false = ⟨0x00#8, false, true, true, true, true⟩ ∧
      daaFn Config.product 0x2D#8 true true false = ⟨0x27#8, false, false, false, true, false⟩ ∧
      daaFn Config.product 0x00#8 false false false = ⟨0x00#8, false, true, false, true, false⟩ := by decide

/-- A12: the upper half of XHL is kept. -/
theorem test_addRr : ∃ t, run [0xDC#8, 0x83#8] ((base.setReg (xhl 0#2) 0xAABB1234#32).setReg .xix 0x1111#32) = .next t ∧
    t.flags = ⟨false, false, false, false, false, false⟩ ∧ t.getReg (xhl 0#2) = 0xAABB2345#32 :=
  ⟨_, rfl, (State.setFlags_flags _ _).trans (by decide), by decide⟩

/-- A16. -/
theorem test_addrn : ∃ t, run [0xC9#8, 0xC8#8, 0x01#8] (base.setReg (xwa 0#2) 0xFF#32) = .next t ∧
    t.flags = ⟨false, true, true, false, false, true⟩ ∧ t.getReg (xwa 0#2) = 0#32 ∧ t.pc = 0x1003#32 :=
  ⟨_, rfl, (State.setFlags_flags _ _).trans (by decide), by decide, by decide⟩

/-- A19. -/
theorem test_addRm : ∃ t, run [0x94#8, 0x83#8]
      (poke 0x2000#32 [0xFF#8, 0x7F#8] ((base.setReg (xhl 0#2) 1#32).setReg .xix 0x2000#32)) = .next t ∧
    t.flags = ⟨true, false, true, true, false, false⟩ ∧ t.getReg (xhl 0#2) = 0x8000#32 ∧
    t.valueAt .w16 0x2000#32 = 0x7FFF#32 :=
  ⟨_, rfl, (State.setFlags_flags _ _).trans (by decide), by decide, by decide⟩

/-- A20. -/
theorem test_addmR : ∃ t, run [0x84#8, 0x89#8]
      (poke 0x2000#32 [0xFF#8] ((base.setReg (xwa 0#2) 1#32).setReg .xix 0x2000#32)) = .next t ∧
    t.flags = ⟨false, true, true, false, false, true⟩ ∧ t.valueAt .b8 0x2000#32 = 0#32 ∧ t.getReg (xwa 0#2) = 1#32 :=
  ⟨_, rfl, (State.setFlags_flags _ _).trans (by decide), by decide, by decide⟩

/-- M9. -/
theorem test_subRr : ∃ t, run [0xDB#8, 0xA3#8] (base.setReg (xhl 0#2) 0x1234#32) = .next t ∧
    t.flags = ⟨false, true, false, false, true, false⟩ ∧ t.getReg (xhl 0#2) = 0#32 :=
  ⟨_, rfl, (State.setFlags_flags _ _).trans (by decide), by decide⟩

/-- M11. -/
theorem test_subrn : ∃ t, run [0xC9#8, 0xCA#8, 0x01#8] base = .next t ∧
    t.flags = ⟨true, false, true, false, true, true⟩ ∧ t.getReg (xwa 0#2) = 0xFF#32 :=
  ⟨_, rfl, (State.setFlags_flags _ _).trans (by decide), by decide⟩

/-- M12. -/
theorem test_subRm : ∃ t, run [0x84#8, 0xA1#8]
      (poke 0x2000#32 [0x01#8] ((base.setReg (xwa 0#2) 0x10#32).setReg .xix 0x2000#32)) = .next t ∧
    t.flags = ⟨false, false, true, false, true, false⟩ ∧ t.getReg (xwa 0#2) = 0x0F#32 :=
  ⟨_, rfl, (State.setFlags_flags _ _).trans (by decide), by decide⟩

/-- M13. -/
theorem test_submR : ∃ t, run [0x94#8, 0xAB#8]
      (poke 0x2000#32 [0x00#8, 0x00#8] ((base.setReg (xhl 0#2) 1#32).setReg .xix 0x2000#32)) = .next t ∧
    t.flags = ⟨true, false, true, false, true, true⟩ ∧ t.valueAt .w16 0x2000#32 = 0xFFFF#32 :=
  ⟨_, rfl, (State.setFlags_flags _ _).trans (by decide), by decide⟩

/-- DA3: N and H set before, 42 - 15 = 27. -/
theorem test_daa : ∃ t, run [0xC9#8, 0x10#8] ((base.setReg (xwa 0#2) 0x2D#32).setF 0x12#8) = .next t ∧
    t.flags = ⟨false, false, false, true, true, false⟩ ∧ t.getReg (xwa 0#2) = 0x27#32 :=
  ⟨_, rfl, (State.setFlags_flags _ _).trans (by decide), by decide⟩

/-- A product whose DAA_FN differs from the candidate at one argument. -/
def daaOther : State :=
  { base with product := { base.product with
      daaRows := [⟨⟨0x2D#8, true, true, false⟩, ⟨0x80#8, true, true⟩⟩] } }

/-- R126: the register, H and C are the parameter's, S, Z and P the result's, N stays. -/
theorem test_daa_parameter :
    ∃ t, run [0xC9#8, 0x10#8] ((daaOther.setReg (xwa 0#2) 0x2D#32).setF 0x12#8) = .next t ∧
    t.flags = ⟨true, false, true, false, true, true⟩ ∧ t.getReg (xwa 0#2) = 0x80#32 :=
  ⟨_, rfl, (State.setFlags_flags _ _).trans (by decide), by decide⟩

/-! ## Load, control registers: L1 to L22 -/

theorem test_ldRr :
    check (run [0xDC#8, 0x8B#8] ((base.setReg .xix 0x1234#32).setReg (xhl 0#2) 0xAABBCCDD#32))
      (fun t => t.getReg (xhl 0#2) == 0xAABB1234#32 && t.sr == 0xF800#16 && t.pc == 0x1002#32) = true := by decide

/-- B19, after the INCF. -/
theorem test_ldRr_previous :
    check (run [0xD7#8, 0xD0#8, 0x88#8] ((base.setBank 1#2).setReg (xwa 0#2) 0x1234#32))
      (fun t => t.getReg (xwa 1#2) == 0x1234#32 && t.getReg (xwa 0#2) == 0x1234#32) = true := by decide

theorem test_ldrR :
    check (run [0xDB#8, 0x9C#8] (base.setReg .xix 0x1234#32)) (fun t => t.getReg (xhl 0#2) == 0x1234#32) = true := by
  decide

theorem test_ldRn8 :
    check (run [0x21#8, 0x12#8] (base.setReg (xwa 0#2) 0xAABBCCDD#32))
      (fun t => t.getReg (xwa 0#2) == 0xAABBCC12#32 && t.pc == 0x1002#32) = true := by decide

theorem test_ldRn16 :
    check (run [0x33#8, 0x78#8, 0x56#8] base) (fun t => t.getReg (xhl 0#2) == 0x5678#32 && t.pc == 0x1003#32) = true := by
  decide

theorem test_ldRn32 :
    check (run [0x40#8, 0x78#8, 0x56#8, 0x34#8, 0x12#8] base)
      (fun t => t.getReg (xwa 0#2) == 0x12345678#32 && t.pc == 0x1005#32) = true := by decide

theorem test_ldr3 :
    check (run [0xDB#8, 0xAD#8] (base.setReg (xhl 0#2) 0xFFFF#32))
      (fun t => t.getReg (xhl 0#2) == 5#32 && t.pc == 0x1002#32) = true := by decide

/-- L8: bank 1 through its absolute name while bank 0 is current. -/
theorem test_ldrn_absolute :
    check (run [0xD7#8, 0x14#8, 0x03#8, 0x34#8, 0x12#8] base)
      (fun t => t.getReg (xbc 1#2) == 0x1234#32 && t.getReg (xbc 0#2) == 0#32 && t.pc == 0x1005#32) = true := by decide

/-- L10: the top byte of the address is ignored. -/
theorem test_ldRm :
    check (run [0x91#8, 0x23#8] (poke 0x345678#32 [0x33#8, 0x22#8] (base.setReg (xbc 0#2) 0x12345678#32)))
      (fun t => t.getReg (xhl 0#2) == 0x2233#32 && t.getReg (xbc 0#2) == 0x12345678#32) = true := by decide

/-- L18: the address wraps at the top of the space. -/
theorem test_ldRm_wraps :
    check (run [0x94#8, 0x23#8] (poke 0xFFFFFF#32 [0x33#8, 0x22#8] (base.setReg .xix 0x00FFFFFF#32)))
      (fun t => t.getReg (xhl 0#2) == 0x2233#32) = true := by decide

theorem test_ldmR :
    check (run [0xB4#8, 0x60#8] ((base.setReg .xix 0x2000#32).setReg (xwa 0#2) 0x12345678#32))
      (fun t => holds t 0x2000 [0x78#8, 0x56#8, 0x34#8, 0x12#8] && t.sr == 0xF800#16) = true := by decide

theorem test_ldmR_byte :
    check (run [0xB3#8, 0x41#8] ((base.setReg (xhl 0#2) 0x2000#32).setReg (xwa 0#2) 0x775A#32))
      (fun t => holds t 0x2000 [0x5A#8, 0xFF#8]) = true := by decide

theorem test_ldcCrR :
    check (run [0xE8#8, 0x2E#8, 0x00#8] (base.setReg (xwa 0#2) 0x1000#32))
      (fun t => t.getCr (.dmas 0) == 0x1000#32 && t.pc == 0x1003#32) = true := by decide

theorem test_ldcRCr :
    check (run [0xD8#8, 0x2F#8, 0x3C#8] (base.setIntnest 1#16)) (fun t => t.getReg (xwa 0#2) == 1#32) = true := by decide

/-- L23, L24. -/
theorem test_ldc_refused :
    run [0xE8#8, 0x2E#8, 0x01#8] base = .refused (.noSuchControlRegister 0x01#8 .l32) ∧
      run [0xD8#8, 0x2E#8, 0x00#8] base = .refused (.noSuchControlRegister 0x00#8 .w16) := ⟨rfl, rfl⟩

/-! ## Stack: L26 to L35 -/

theorem test_pushShort :
    check (run [0x2B#8] (base.setReg (xhl 0#2) 0x2233#32))
      (fun t => t.xsp == 0xFE#32 && holds t 0xFE [0x33#8, 0x22#8]) = true := by decide

theorem test_popShort :
    check (run [0x5C#8] (poke 0xFC#32 [0x78#8, 0x56#8, 0x34#8, 0x12#8] { base with xsp := 0xFC#32 }))
      (fun t => t.xix == 0x12345678#32 && t.xsp == 0x100#32) = true := by decide

theorem test_pushReg :
    check (run [0xC8#8, 0x04#8] (base.setReg (xwa 0#2) 0x7700#32)) (fun t => t.xsp == 0xFF#32 && holds t 0xFF [0x77#8])
      = true := by decide

/-- POP SP at 16 bits: XSP moves up, then its lower half is written (log 21). -/
theorem test_popReg_sp :
    check (run [0xDF#8, 0x05#8] (poke 0xFE#32 [0x34#8, 0x12#8] { base with xsp := 0x000100FE#32 }))
      (fun t => t.xsp == 0x0001FFFF#32) = true := by decide

theorem test_pushA :
    check (run [0x14#8] (base.setReg (xwa 0#2) 0x5A#32)) (fun t => t.xsp == 0xFF#32 && holds t 0xFF [0x5A#8]) = true := by
  decide

theorem test_popA :
    check (run [0x15#8] (poke 0xFF#32 [0x5A#8] { base.setReg (xwa 0#2) 0x11223344#32 with xsp := 0xFF#32 }))
      (fun t => t.getReg (xwa 0#2) == 0x1122335A#32 && t.xsp == 0x100#32) = true := by decide

theorem test_pushF :
    check (run [0x18#8] (base.setF 0xC1#8)) (fun t => t.xsp == 0xFF#32 && holds t 0xFF [0xC1#8] && t.f == 0xC1#8)
      = true := by decide

theorem test_popF :
    check (run [0x19#8] (poke 0xFF#32 [0xC1#8] { base with xsp := 0xFF#32 }))
      (fun t => t.sr == 0xF8C1#16 && t.xsp == 0x100#32) = true := by decide

theorem test_pushSr :
    check (run [0x02#8] { base with sr := 0xB841#16 }) (fun t => t.xsp == 0xFE#32 && holds t 0xFE [0x41#8, 0xB8#8])
      = true := by decide

theorem test_popSr :
    check (run [0x03#8] (poke 0xFE#32 [0x00#8, 0xA9#8] { base.setIntnest 5#16 with xsp := 0xFE#32 }))
      (fun t => t.sr == 0xA900#16 && t.xsp == 0x100#32 && t.cr.intnest == 5#16) = true := by decide

/-! ## Interrupts and reset: X1, X3, X4, X6, the acceptance table -/

/-- X1: level 4, V = 28H. -/
theorem test_interrupt_entry :
    check (step (poke 0xFFFF28#32 [0x00#8, 0x40#8, 0x00#8, 0x00#8]
        { base with pc := 0x3002#32, sr := 0xB800#16, env := [.present [⟨.l4, 0x0A#6⟩]] }))
      (fun t => holds t 0xFA [0x00#8, 0xB8#8, 0x02#8, 0x30#8, 0x00#8, 0x00#8] && t.xsp == 0xFA#32 && t.sr == 0xD800#16 &&
        t.cr.intnest == 1#16 && t.pc == 0x4000#32) = true := by decide

/-- X3 and X4, and the rows 0, 3 and 7 of the acceptance table. -/
theorem test_acceptance :
    ([0, 3, 7].map fun iff => [Level.l1, .l2, .l3, .l4, .l5, .l6, .l7].map fun l =>
        (base.setIff (BitVec.ofNat 3 iff)).letsIn ⟨l, 0#6⟩) =
      [[true, true, true, true, true, true, true], [false, false, true, true, true, true, true],
        [false, false, false, false, false, false, true]] := by decide

/-- A level 7 presented at the boundary an entry leaves is taken there, before the handler runs (log 36). -/
theorem test_entry_after_entry :
    check (Res.andThen (step { base with sr := 0x8800#16, env := [.present [⟨.l1, 1#6⟩], .present [⟨.l7, 2#6⟩]] }) step)
      (fun t => t.xsp == 0xF4#32 && t.cr.intnest == 2#16 && t.iff == 7#3) = true := by decide

/-- Of two of the highest level the first is taken. -/
theorem test_accepted_first :
    (base.setIff 2#3).accepted [⟨.l3, 1#6⟩, ⟨.l5, 2#6⟩, ⟨.l5, 3#6⟩] = some ⟨.l5, 2#6⟩ := by decide

/-- X6. -/
theorem test_reset_action :
    check (step (poke 0xFFFF00#32 [0x00#8, 0x10#8, 0x00#8] { base with sr := 0xA9C1#16, env := [.reset] }))
      (fun t => t.pc == 0x1000#32 && t.xsp == 0x100#32 && t.sr == 0xF800#16) = true := by decide

/-- Text the program stored is refused (R70). -/
theorem test_stored_text :
    run [0x0C#8] { base with stored := [0x1000] } = .refused (.storedText 0x1000) := rfl

/-! ## Witnesses: states and operands that meet the hypotheses of the statements, one for each clause -/

/-- A product with RAM below 100H, ROM at 100H to 1FFH, I/O at 200H to 2FFH, nothing above. -/
def mixed : State :=
  { base with product := { base.product with memMap := [⟨0, 0x100, .ram⟩, ⟨0x100, 0x100, .rom⟩, ⟨0x200, 0x100, .io⟩] } }

/-- Two requests are presented, then nothing. -/
def presented : State := { base with env := [.present [⟨.l3, 1#6⟩, ⟨.l7, 63#6⟩]] }

/-- One instruction stands at PC and nothing happens at the boundary. -/
def incfAtPc : State := poke 0x1000#32 [0x0C#8] base

theorem witness_EncodeThenDecode : Instr.wellFormed (.exRr .w16 7#3 (.long ⟨.abs 3#2, 3#2, 2#2⟩)) = true := by decide

theorem witness_DecodeThenEncode : decode [0x17#8, 0x07#8, 0xFF#8] = .ok (.ldf 7#3) := rfl

theorem witness_DecodedIsWhole :
    decode [0xE7#8, 0xFC#8, 0x03#8, 0x78#8, 0x56#8, 0x34#8, 0x12#8] =
      .ok (.ldrn (.long ⟨.outside, 3#2, 0#2⟩) (.n32 0x12345678#32)) := rfl

/-- The ends of each range. -/
theorem witness_ReservedFormsRefused :
    (0xF7 ≤ (0xF7#8).toNat ∧ 0xF7 ≤ (0xFF#8).toNat) ∧
      (0x40 ≤ (0x40#8).toNat ∧ (0x40#8).toNat ≤ 0xCF ∧ 0x40 ≤ (0xCF#8).toNat ∧ (0xCF#8).toNat ≤ 0xCF) ∧
      (0xB8 ≤ (0xB8#8).toNat ∧ (0xB8#8).toNat ≤ 0xBF ∧ 0xB8 ≤ (0xBF#8).toNat ∧ (0xBF#8).toNat ≤ 0xBF) ∧
      (8 ≤ (0x08#8).toNat ∧ 8 ≤ (0xFF#8).toNat) ∧ ((0x00#8).toNat < 8 ∧ (0x07#8).toNat < 8) := by decide

theorem witness_CurrentBankIsRfp : (3#3).toNat < 4 := by decide

/-- The ends of the range that names nothing. -/
theorem witness_RegisterCodes :
    (0x40 ≤ (0x40#8).toNat ∧ (0x40#8).toNat ≤ 0xCF ∧ 0x40 ≤ (0xCF#8).toNat ∧ (0xCF#8).toNat ≤ 0xCF) ∧
      Size.w16 ≠ .b8 ∧ Size.l32 ≠ .b8 := by decide

/-- D1H is W', RW0 is 01H, QIXH is F3H; at 16 bits 13H is QWA1, at 32 bits DFH is XHL' (R30, R31, R90). -/
theorem test_byCode :
    base.byCode .b8 0xD1#8 = some ⟨xwa 3#2, 1#2, .b8⟩ ∧ base.byCode .b8 0x01#8 = some ⟨xwa 0#2, 1#2, .b8⟩ ∧
      base.byCode .b8 0xF3#8 = some ⟨.xix, 3#2, .b8⟩ ∧ base.byCode .w16 0x13#8 = some ⟨xwa 1#2, 2#2, .w16⟩ ∧
      base.byCode .l32 0xDF#8 = some ⟨xhl 3#2, 0#2, .l32⟩ := by decide

/-- The four bytes wrap at the top of the space. -/
theorem witness_LoadAfterStore : base.MemInv ∧ base.storable .l32 0xAAFFFFFE#32 = true := by decide

theorem witness_LittleEndianUnaligned :
    base.product.addrBits ≤ 32 ∧ base.readable .b8 0xFFFFFF#32 = true ∧ base.readable .w16 0xFFFFFF#32 = true ∧ base.readable .l32 0x000001#32 = true := by
  decide

/-- The last byte of the access is the first that can not be touched: below 300H, 200H, 100H and at PC. -/
theorem witness_AccessStops :
    (mixed.mapped .read 0 0x300#32 = true ∧ mixed.product.kindAt (mixed.addr (0x300#32 + 0#32)) = none) ∧
      (mixed.mapped .read 3 0x1FD#32 = true ∧ mixed.product.kindAt (mixed.addr (0x1FD#32 + 3#32)) = some .io) ∧
      (let s : State := { mixed with product := { mixed.product with memMap := [⟨0, 0x100, .ram⟩] } }
       s.mapped .store 1 0xFF#32 = true ∧ s.product.kindAt (s.addr (0xFF#32 + 1#32)) = none) ∧
      (mixed.mapped .store 1 0xFF#32 = true ∧ mixed.product.kindAt (mixed.addr (0xFF#32 + 1#32)) = some .rom) ∧
      mixed.product.kindAt (mixed.addr 0x200#32) = some .io := by decide

/-- LDF with its second byte in I/O; a first byte that is not mapped. -/
theorem witness_AccessStops_fetch :
    (let s : State := poke 0x1FF#32 [0x17#8] { mixed with pc := 0x1FF#32 }
     s.env = [] ∧ s.mapped .fetch 1 s.pc = true ∧ decode (s.fetchBytes 1 s.pc) = .error .truncated ∧
       s.product.kindAt (s.addr (s.pc + 1#32)) = some .io) ∧
      (mixed.env = [] ∧ decode (mixed.fetchBytes 0 mixed.pc) = .error .truncated ∧
        mixed.product.kindAt (mixed.addr (mixed.pc + 0#32)) = none) :=
  ⟨⟨rfl, by decide, rfl, by decide⟩, rfl, rfl, by decide⟩

/-- An access stops at its last byte as at its first. -/
theorem test_access_stops :
    memRead .l32 0x1FD#32 mixed = .refused (.ioAccess 0x200) ∧ memWrite .w16 0xFF#32 0#32 mixed = .fault (.romStore 0x100) ∧
      step (poke 0x1FF#32 [0x17#8] { mixed with pc := 0x1FF#32 }) = .refused (.ioAccess 0x200) := ⟨rfl, rfl, rfl⟩

theorem witness_ExSwapsRegisters : Size.b8 ≠ .l32 ∧ Size.w16 ≠ .l32 := by decide

/-- The level just let in. -/
theorem witness_EiTakesEffectAtOnce :
    let s : State := { base with env := [.present [⟨.l3, 1#6⟩]] }
    (∃ t, exec (.ei 3#3) s = .next t) ∧ s.env = .present [⟨.l3, 1#6⟩] :: [] ∧
      (s.setIff 3#3).accepted [⟨.l3, 1#6⟩] = some ⟨.l3, 1#6⟩ :=
  ⟨⟨_, rfl⟩, rfl, by decide⟩

theorem witness_RetiReturns :
    let s := poke 0x100#32 [0x00#8, 0xA8#8] base
    s.readable .w16 s.xsp = true ∧ s.readable .l32 (s.xsp + 2#32) = true ∧
      (s.valueAt .w16 s.xsp).getLsbD 11 = true := by decide

theorem witness_MaxZeroFaults :
    let s := poke 0x100#32 [0xFF#8, 0xF7#8] base
    s.readable .w16 s.xsp = true ∧ (s.valueAt .w16 s.xsp).getLsbD 11 = false ∧
      s.readable .l32 (s.xsp + 2#32) = true := by decide

/-- The return address wraps below address 0. -/
theorem witness_CallPushesReturnAddress :
    let s : State := { base with xsp := 2#32 }
    s.MemInv ∧ s.storable .l32 (s.xsp - 4#32) = true := by decide

theorem witness_RetPopsPc : base.readable .l32 base.xsp = true := by decide

theorem witness_VectorIsThreeBytes : Config.product.addrBits ≤ 32 := by decide

theorem witness_CallThenRetReturns : (∃ n, Instr.call16 0xFFFF#16 = .call16 n) ∧ base.MemInv ∧ base.storable .l32 (base.xsp - 4#32) = true :=
  ⟨⟨_, rfl⟩, by decide⟩

theorem witness_AddToRegister : base.readable .l32 (base.getReg (base.codeHome 7#3)) = true := by decide

theorem witness_AddToMemory : base.MemInv ∧ base.storable .b8 (base.getReg (base.codeHome 7#3)) = true := by decide

theorem witness_SubFromRegister : base.readable .w16 (base.getReg (base.codeHome 0#3)) = true := by decide

theorem witness_SubFromMemory : base.MemInv ∧ base.storable .l32 (base.getReg (base.codeHome 0#3)) = true := by
  decide

theorem witness_FlagLaws :
    base.readable .l32 (base.getReg (base.codeHome 7#3)) = true ∧ base.MemInv ∧
      base.storable .l32 (base.getReg (base.codeHome 7#3)) = true := by decide

theorem witness_DaaAdjusts :
    (let row : DaaRow := ⟨⟨0x2D#8, true, true, false⟩, ⟨0x80#8, true, true⟩⟩
     row ∈ daaOther.product.daaRows ∧ ∀ row' ∈ daaOther.product.daaRows, row'.args = row.args → row' = row) ∧
      Config.product.daaRows = [] := by decide

theorem witness_DaaCorrectsBcd :
    (∀ x, daaResult Config.product x = daaCandidate x) ∧ (0 < 100 ∧ 99 < 100 : Prop) :=
  ⟨daaResult_of_no_rows _ rfl, by decide⟩

theorem witness_LdReadsMemory : base.readable .w16 (base.getReg (base.codeHome 7#3)) = true := by decide

theorem witness_LdStoresMemory : base.MemInv ∧ base.storable .l32 (base.getReg (base.codeHome 7#3)) = true := by
  decide

/-- A product with one micro DMA channel and a CR_MAP of its own. -/
def oneChannel : State :=
  { base with
    cr := CtrlRegs.reset 1
    product := { base.product with channels := 1, crMap := [⟨0x77#8, .dmam 0, .w16⟩, ⟨0x78#8, .dmam 1, .w16⟩] } }

/-- The last channel of four, and the only channel of one. -/
theorem witness_LdcMoves :
    (base.CrInv ∧ base.product.ctrlReg .b8 0x2E#8 = some (.dmam 3) ∧ CtrlReg.intnest ≠ .dmam 3) ∧
      (oneChannel.CrInv ∧ oneChannel.product.ctrlReg .w16 0x77#8 = some (.dmam 0)) := by decide

/-- A channel the product does not have is refused, and so is a number that is not in its CR_MAP. -/
theorem witness_ControlRegisterNumbers :
    oneChannel.product.ctrlReg .w16 0x77#8 = some (.dmam 0) ∧ oneChannel.product.ctrlReg .w16 0x78#8 = none ∧
      oneChannel.product.ctrlReg .w16 0x3C#8 = none ∧
      (let e : CrEntry := ⟨0x77#8, .dmam 0, .w16⟩
       e ∈ oneChannel.product.crMap ∧ (∀ e' ∈ oneChannel.product.crMap, e'.number = e.number → e' = e) ∧
         e.reg.existsIn oneChannel.product e.size = true) ∧
      base.product.ctrlReg .b8 0x3C#8 = none ∧ base.product.ctrlReg .l32 0xFF#8 = none ∧ (3 < 4 : Prop) := by decide

theorem test_ldc_one_channel :
    check (run [0xD8#8, 0x2E#8, 0x77#8] (oneChannel.setReg (xwa 0#2) 0x12345678#32))
      (fun t => t.getCr (.dmam 0) == 0x5678#32) = true := by decide

theorem witness_PushStoresRegister :
    base.MemInv ∧ base.storable .l32 (base.xsp - BitVec.ofNat 32 Size.l32.bytes) = true ∧ Size.l32 ≠ .b8 ∧
      base.storable .b8 (base.xsp - 1#32) = true := by decide

theorem witness_PushStoresStatus :
    base.MemInv ∧ base.storable .b8 (base.xsp - 1#32) = true ∧ base.storable .w16 (base.xsp - 2#32) = true := by
  decide

theorem witness_PopLoadsRegister :
    base.readable .l32 base.xsp = true ∧ Size.w16 ≠ .b8 ∧ base.readable .b8 base.xsp = true := by decide

theorem witness_PopLoadsStatus :
    base.readable .b8 base.xsp = true ∧
      (let s := poke 0x100#32 [0x00#8, 0x08#8] base
       s.readable .w16 s.xsp = true ∧ (s.valueAt .w16 s.xsp).getLsbD 11 = true) := by decide

theorem witness_PushThenPopMoves :
    base.MemInv ∧ base.storable .w16 (base.xsp - BitVec.ofNat 32 Size.w16.bytes) = true ∧
      (base.opPart .w16 (.short 6#3)).home ≠ .xsp := by decide

/-- LDF 3 in the last byte of the space and the first, and a request the mask does not let in. -/
theorem witness_StepRunsTheInstructionAtPc :
    let s : State := poke 0xFFFFFF#32 [0x17#8, 0x03#8] { base with pc := 0x00FFFFFF#32 }
    let u : State := { s with env := [.present [⟨.l6, 1#6⟩]] }
    Instr.wellFormed (.ldf 3#3) = true ∧
      (∀ k < (encode (.ldf 3#3)).length,
        (encode (.ldf 3#3))[k]? = some (s.mem.read (s.addr (s.pc + BitVec.ofNat 32 k))) ∧
          s.addr (s.pc + BitVec.ofNat 32 k) ∉ s.stored) ∧
      s.mapped .fetch (encode (.ldf 3#3)).length s.pc = true ∧ s.env = [] ∧
      u.accepted [⟨.l6, 1#6⟩] = none := by decide

theorem witness_StepTakesEvents :
    presented.env = .present [⟨.l3, 1#6⟩, ⟨.l7, 63#6⟩] :: [] ∧
      presented.accepted [⟨.l3, 1#6⟩, ⟨.l7, 63#6⟩] = some ⟨.l7, 63#6⟩ ∧
      ({ base with env := [.reset] } : State).env = .reset :: [] := ⟨rfl, by decide, rfl⟩

theorem witness_HighestRequestAccepted :
    base.accepted [⟨.l3, 1#6⟩, ⟨.l7, 63#6⟩] = some ⟨.l7, 63#6⟩ ∧ base.accepted [⟨.l6, 1#6⟩] = none := by decide

/-- The last slot of the vector table. -/
theorem witness_InterruptEntry :
    base.MemInv ∧ base.storable .l32 (base.xsp - 4#32) = true ∧ base.storable .w16 (base.xsp - 6#32) = true ∧
      base.readable .l32 (base.product.vectorBase + BitVec.ofNat 32 (4 * (63#6).toNat)) = true := by decide

theorem witness_MaskRaisedAboveLevel :
    (∃ t, takeInterrupt ⟨.l6, 0#6⟩ base = .next t) ∧ Level.l6.number < 7 ∧
      (∃ t, takeInterrupt ⟨.l7, 63#6⟩ base = .next t) ∧ Level.l7.number = 7 :=
  ⟨exists_next (by decide), by decide, exists_next (by decide), by decide⟩

theorem witness_EntryThenRetiRestores : base.Inv ∧ ∃ t, takeInterrupt ⟨.l1, 10#6⟩ base = .next t :=
  ⟨by decide, exists_next (by decide)⟩

theorem witness_ResetValues : base.mapped .read 3 base.product.vectorBase = true := by decide

theorem witness_UndecodableRefused :
    base.env = [] ∧ decode (base.fetchBytes 7 base.pc) = .error (.reservedSize 0xFF#8) ∧
      DecodeError.reservedSize 0xFF#8 ≠ .truncated := ⟨rfl, rfl, by decide⟩

/-- The last byte of the store; the last byte of the instruction. -/
theorem witness_StoredTextRefused :
    (∃ t, memWrite .w16 0xFFFFFF#32 0x1234#32 base = .next t) ∧ base.inAccess .w16 0xFFFFFF#32 0 ∧
      (let s : State := { poke 0x1000#32 [0x06#8, 0x03#8] base with stored := [0x1001] }
       s.env = [] ∧ decode (s.fetchBytes 7 s.pc) = .ok (.ei 3#3) ∧ 1 < Instr.length (.ei 3#3) ∧
         s.addr (s.pc + BitVec.ofNat 32 1) ∈ s.stored) :=
  ⟨exists_next (by decide), ⟨1, by decide, by decide⟩, rfl, rfl, by decide, by decide⟩

theorem witness_StepKeepsInvariant : incfAtPc.Inv ∧ ∃ t, step incfAtPc = .next t :=
  ⟨by decide, exists_next (by decide)⟩

theorem witness_OnlyExReachesSecondFlags : Instr.popSr ≠ .exFF ∧
    ∃ t, exec .popSr (poke 0x100#32 [0x00#8, 0x08#8] base) = .next t := ⟨by decide, exists_next (by decide)⟩

theorem witness_SrFieldWriters :
    (∃ t, exec .popF base = .next t) ∧ Instr.popF.writesRfp = false ∧ Instr.popF.writesIff = false ∧
      (∃ t, exec .incf base = .next t) ∧ Instr.incf.writesF = false :=
  ⟨exists_next (by decide), rfl, rfl, exists_next (by decide), rfl⟩

theorem witness_ControlRegisterWriters :
    (∃ t, exec (.ldcRCr .w16 (.short 0#3) 0x3C#8) base = .next t) ∧
      (∀ sz r n, Instr.ldcRCr .w16 (.short 0#3) 0x3C#8 ≠ .ldcCrR sz r n) ∧
      Instr.ldcRCr .w16 (.short 0#3) 0x3C#8 ≠ .reti ∧
      (∃ t, exec .reti (poke 0x100#32 [0x00#8, 0x08#8] base) = .next t) :=
  ⟨exists_next (by decide), fun _ _ _ h => (nomatch h), by decide, exists_next (by decide)⟩

theorem witness_OnlyStoringInstructionsWriteMemory :
    Instr.stores .popA = false ∧ ∃ t, exec .popA base = .next t := ⟨rfl, exists_next (by decide)⟩

/-- PUSH A in RAM, seen from an address of ROM. -/
theorem witness_OnlyRamChanges :
    let s : State := { poke 0x80#32 [0x14#8] mixed with pc := 0x80#32 }
    s.MemInv ∧ (∃ t, step s = .next t) ∧ s.product.kindAt 0x100 ≠ some .ram :=
  ⟨by decide, exists_next (by decide), by decide⟩

/-- The address just past the INCF is END_PC. -/
def incfThenEnd : State := { incfAtPc with product := { incfAtPc.product with endPc := some 0x1001 } }

/-- D21: not observed at 1000H, observed at 1001H after one step. -/
theorem test_observed :
    check ((observed 0 incfThenEnd).andThen fun o => .next (o.getD { base with pc := 0#32 })) (fun t => t.pc == 0#32) &&
      check ((observed 1 incfThenEnd).andThen fun o => .next (o.getD base)) (fun t => t.pc == 0x1001#32 && t.rfp == 1#3)
      = true := by decide

theorem witness_StepKeepsProduct :
    (∃ t, step { incfAtPc with env := [.present [], .reset] } = .next t) ∧
      (∃ t, observed 1 incfThenEnd = .next (some t)) ∧ incfAtPc.product.endPc = none :=
  ⟨exists_next (by decide), ⟨_, rfl⟩, rfl⟩

end Sys2Proof.Tests
end

section
/-! Loads as bytes: the value memory holds, written as the concatenation of its bytes (20_memory.md R61 to R63). -/

namespace Sys2Proof.Machine

/-- A byte below a number, as in a little-endian load, is that byte appended to the number's word. -/
theorem ofNat_byte_add (w x : Nat) (b : Byte) :
    BitVec.ofNat (w + 8) (b.toNat + 256 * x) = BitVec.ofNat w x ++ b := by
  apply BitVec.eq_of_toNat_eq
  have hb : b.toNat < 2 ^ 8 := b.isLt
  have hdiv : (b.toNat + 256 * x) / 2 ^ 8 = x := by omega
  rw [BitVec.toNat_append, BitVec.toNat_ofNat, BitVec.toNat_ofNat, Nat.shiftLeft_eq, Nat.mul_comm _ (2 ^ 8),
    ← Nat.two_pow_add_eq_or_of_lt hb, Nat.pow_add, Nat.mul_comm (2 ^ w), Nat.mod_mul,
    hdiv]
  omega

/-- A load of one byte is the byte at its address, which is counted from `ea` in the space of `bits` address bits. -/
theorem Memory.ofNat_load_one (m : Memory) {bits : Nat} (hb : bits ≤ 32) (ea : Word) (k : Nat) :
    BitVec.ofNat 8 (m.load bits 1 (ea + BitVec.ofNat 32 k)) = m.read ((ea.toNat + k) % 2 ^ bits) := by
  rw [Memory.load_succ, cut_add bits hb, Memory.load, Nat.mul_zero, Nat.add_zero, BitVec.ofNat_toNat,
    BitVec.setWidth_eq]

/-- The lowest byte of a longer load is its least significant one (R62). -/
theorem Memory.ofNat_load_succ (m : Memory) {bits : Nat} (hb : bits ≤ 32) (w n : Nat) (ea : Word) (k : Nat) :
    BitVec.ofNat (w + 8) (m.load bits (n + 1) (ea + BitVec.ofNat 32 k)) =
      BitVec.ofNat w (m.load bits n (ea + BitVec.ofNat 32 (k + 1))) ++ m.read ((ea.toNat + k) % 2 ^ bits) := by
  rw [Memory.load_succ, ofNat_byte_add, cut_add bits hb, BitVec.ofNat_add k 1, BitVec.add_assoc]

/-- A load narrower than a word is zero-extended. -/
theorem Memory.setWidth_ofNat_load (m : Memory) (bits n w : Nat) (ea : Word) (hn : 256 ^ n ≤ 2 ^ w) :
    (BitVec.ofNat w (m.load bits n ea)).setWidth 32 = BitVec.ofNat 32 (m.load bits n ea) := by
  apply BitVec.eq_of_toNat_eq
  rw [BitVec.toNat_setWidth, BitVec.toNat_ofNat, BitVec.toNat_ofNat,
    Nat.mod_eq_of_lt (Nat.lt_of_lt_of_le (Memory.load_lt bits n m ea) hn)]

section
variable (s : State) (ea : Word) (h : s.product.addrBits ≤ 32)
include h

theorem State.valueAt_b8 :
    s.valueAt .b8 ea = (s.mem.read ((ea.toNat + 0) % 2 ^ s.product.addrBits)).setWidth 32 := by
  rw [← Memory.ofNat_load_one s.mem h, BitVec.add_zero]
  exact (Memory.setWidth_ofNat_load _ _ 1 8 _ (by decide)).symm

theorem State.valueAt_w16 :
    s.valueAt .w16 ea = (s.mem.read ((ea.toNat + 1) % 2 ^ s.product.addrBits) ++
      s.mem.read ((ea.toNat + 0) % 2 ^ s.product.addrBits)).setWidth 32 := by
  rw [← Memory.ofNat_load_one s.mem h, ← Memory.ofNat_load_succ s.mem h 8, BitVec.add_zero]
  exact (Memory.setWidth_ofNat_load _ _ 2 16 _ (by decide)).symm

theorem State.valueAt_l32 :
    s.valueAt .l32 ea = s.mem.read ((ea.toNat + 3) % 2 ^ s.product.addrBits) ++
      s.mem.read ((ea.toNat + 2) % 2 ^ s.product.addrBits) ++
      s.mem.read ((ea.toNat + 1) % 2 ^ s.product.addrBits) ++
      s.mem.read ((ea.toNat + 0) % 2 ^ s.product.addrBits) := by
  rw [← Memory.ofNat_load_one s.mem h, ← Memory.ofNat_load_succ s.mem h 8, ← Memory.ofNat_load_succ s.mem h 16,
    ← Memory.ofNat_load_succ s.mem h 24, BitVec.add_zero]
  rfl

end

/-- Settles O11: a load where memory is mapped answers the value there, which the laws above write as its bytes. -/
theorem littleEndianUnaligned : Obligations.LittleEndianUnaligned := by
  intro s hs
  refine ⟨fun ea hr => ?_, fun ea hr => ?_, fun ea hr => ?_⟩
  · rw [memRead_of_readable hr, State.valueAt_b8 s ea hs]
  · rw [memRead_of_readable hr, State.valueAt_w16 s ea hs]
  · rw [memRead_of_readable hr, State.valueAt_l32 s ea hs]

end Sys2Proof.Machine
end

section
/-! Register names: what the 3-bit and 8-bit codes name, and a register part as bits of its register
(10_state.md R20 to R31, 30_encoding.md R88 to R90). -/

namespace Sys2Proof

/-- The byte an 8-bit code starts at depends on its low two bits alone. -/
theorem LongReg.laneAt_eq_codeLane (c : LongReg) (sz : Size) : c.laneAt sz = Machine.codeLane sz c.lane := by
  cases sz with
  | w16 =>
    have h : ∀ l : BitVec 2, l &&& 2#2 = l.extractLsb' 1 1 ++ 0#1 := by decide
    exact h c.lane
  | _ => rfl

/-- The codes 40H to CFH name nothing (R90). -/
theorem LongReg.ofCode_eq_none {c : Byte} (hlo : 0x40 ≤ c.toNat) (hhi : c.toNat ≤ 0xCF) : LongReg.ofCode c = none := by
  unfold LongReg.ofCode
  simp only
  split
  case h_8 => rfl
  all_goals omega

/-- A 3-bit code is its low two bits, and the bit that says whether they name a register of a bank. -/
theorem regCode_cases (R : RegCode) : (∃ k : BitVec 2, R = 0#1 ++ k) ∨ ∃ k : BitVec 2, R = 1#1 ++ k := by
  revert R
  decide

/-- A 3-bit code is the pair it belongs to, and the bit that says which of the pair (R88 at 8 bits). -/
theorem regCode_pair_cases (R : RegCode) : (∃ k : BitVec 2, R = k ++ 0#1) ∨ ∃ k : BitVec 2, R = k ++ 1#1 := by
  revert R
  decide

end Sys2Proof

namespace Sys2Proof.Machine

/-! ## What a code names -/

theorem BankReg.exists_ofCode (r : BankReg) : ∃ k, BankReg.ofCode k = r := by
  cases r
  · exact ⟨0#2, rfl⟩
  · exact ⟨1#2, rfl⟩
  · exact ⟨2#2, rfl⟩
  · exact ⟨3#2, rfl⟩

section
variable (s : State)

theorem State.curBank_eq_rfp : s.curBank = s.rfp.setWidth 2 := by
  apply BitVec.eq_of_getLsbD_eq
  intro i hi
  have h3 : i < 3 := by omega
  simp [State.curBank, State.rfp, hi, h3]

/-- The previous bank counts down from the current one, from 0 to 3 (R30). -/
theorem State.prevBank_toNat : s.prevBank.toNat = (s.curBank.toNat + 3) % 4 := by
  have h : ∀ b : BitVec 2, (b - 1#2).toNat = (b.toNat + 3) % 4 := by decide
  exact h s.curBank

theorem State.opPart_long (sz : Size) (c : LongReg) :
    s.opPart sz (.long c) = ⟨s.longHome c, codeLane sz c.lane, sz⟩ := by
  rw [State.opPart, LongReg.laneAt_eq_codeLane]

/-- An 8-bit code names the part that starts at its byte of its register (R90). -/
theorem State.byCode_code (sz : Size) (c : LongReg) :
    s.byCode sz c.code = some ⟨s.longHome c, codeLane sz c.lane, sz⟩ := by
  rw [State.byCode, LongReg.ofCode_code, Option.map_some, State.opPart_long]

/-- The 3-bit codes 0 to 3 are registers of the current bank, 4 to 7 the registers outside the banks (R88). -/
theorem State.codeHome_banked (k : BitVec 2) : s.codeHome (0#1 ++ k) = .banked s.curBank (BankReg.ofCode k) := by
  rcases bitVec2_cases k with rfl | rfl | rfl | rfl <;> rfl

theorem State.codeHome_outside (k : BitVec 2) : s.codeHome (1#1 ++ k) = Home.outsideOfCode k := by
  rcases bitVec2_cases k with rfl | rfl | rfl | rfl <;> rfl

/-- At 16 and 32 bits a 3-bit code is the lower part of its register. -/
theorem State.codePart_wide {sz : Size} (hsz : sz ≠ .b8) (R : RegCode) : s.codePart sz R = ⟨s.codeHome R, 0#2, sz⟩ := by
  cases sz with
  | b8 => exact absurd rfl hsz
  | _ => rfl

/-- At 8 bits an even 3-bit code is the upper byte of a pair, an odd one the lower (R22, R88). -/
theorem State.codePart_upper (k : BitVec 2) :
    s.codePart .b8 (k ++ 0#1) = ⟨.banked s.curBank (BankReg.ofCode k), 1#2, .b8⟩ := by
  rcases bitVec2_cases k with rfl | rfl | rfl | rfl <;> rfl

theorem State.codePart_lower (k : BitVec 2) :
    s.codePart .b8 (k ++ 1#1) = ⟨.banked s.curBank (BankReg.ofCode k), 0#2, .b8⟩ := by
  rcases bitVec2_cases k with rfl | rfl | rfl | rfl <;> rfl

/-- Every plain byte name, and every name with a code below 4, is of a register of the current bank (R29, R88). -/
theorem State.codePart_home_banked {sz : Size} {R : RegCode} (h : sz = .b8 ∨ R.toNat < 4) :
    ∃ r, (s.codePart sz R).home = .banked s.curBank r := by
  by_cases hsz : sz = .b8
  · subst hsz
    exact ⟨_, rfl⟩
  · have hR : R.toNat < 4 := h.resolve_left hsz
    rw [State.codePart_wide s hsz]
    obtain ⟨k, rfl⟩ | ⟨k, rfl⟩ := regCode_cases R
    · exact ⟨_, s.codeHome_banked k⟩
    · revert hR
      rcases bitVec2_cases k with rfl | rfl | rfl | rfl <;> exact fun hR => absurd hR (by decide)

/-- What a 3-bit code names, an 8-bit code of the current bank or of the registers outside the banks names (R88, R90). -/
theorem State.exists_long_eq_short (sz : Size) (R : RegCode) :
    ∃ c : LongReg, s.opPart sz (.long c) = s.opPart sz (.short R) := by
  by_cases hsz : sz = .b8
  · subst hsz
    obtain ⟨k, rfl⟩ | ⟨k, rfl⟩ := regCode_pair_cases R
    · exact ⟨⟨.cur, k, 1#2⟩, (s.codePart_upper k).symm⟩
    · exact ⟨⟨.cur, k, 0#2⟩, (s.codePart_lower k).symm⟩
  · have hshort : s.opPart sz (.short R) = ⟨s.codeHome R, 0#2, sz⟩ := s.codePart_wide hsz R
    have hlane : codeLane sz 0#2 = 0#2 := by cases sz <;> decide
    rw [hshort]
    obtain ⟨k, rfl⟩ | ⟨k, rfl⟩ := regCode_cases R
    · exact ⟨⟨.cur, k, 0#2⟩, by rw [s.opPart_long, hlane, s.codeHome_banked]; rfl⟩
    · exact ⟨⟨.outside, k, 0#2⟩, by rw [s.opPart_long, hlane, s.codeHome_outside]; rfl⟩

/-- Every byte of every register has an 8-bit code (R90). -/
theorem State.exists_long_byte (h : Home) (k : BitVec 2) : ∃ c : LongReg, s.opPart .b8 (.long c) = ⟨h, k, .b8⟩ := by
  cases h with
  | banked b r =>
    obtain ⟨i, rfl⟩ := r.exists_ofCode
    exact ⟨⟨.abs b, i, k⟩, rfl⟩
  | xix => exact ⟨⟨.outside, 0#2, k⟩, rfl⟩
  | xiy => exact ⟨⟨.outside, 1#2, k⟩, rfl⟩
  | xiz => exact ⟨⟨.outside, 2#2, k⟩, rfl⟩
  | xsp => exact ⟨⟨.outside, 3#2, k⟩, rfl⟩

/-! ## A part as bits of its register -/

theorem State.readPart_byte (h : Home) (k : BitVec 2) : (s.readPart ⟨h, k, .b8⟩).setWidth 8 = s.regByte h k := by
  apply BitVec.eq_of_getLsbD_eq
  intro i hi
  rw [BitVec.getLsbD_setWidth, State.readPart_getLsbD, regByte_getLsbD]
  simp [Size.bits, hi]

theorem State.readPart_half (h : Home) :
    s.readPart ⟨h, 0#2, .w16⟩ = ((s.getReg h).setWidth 16).setWidth 32 := by
  apply BitVec.eq_of_getLsbD_eq
  intro i hi
  rw [State.readPart_getLsbD, BitVec.getLsbD_setWidth, BitVec.getLsbD_setWidth]
  by_cases hlow : i < 16 <;> simp [Size.bits, hi, hlow]

/-- The lower half of a register is its byte 1 above its byte 0 (R22). -/
theorem State.lowHalf_eq_bytes (h : Home) : (s.getReg h).setWidth 16 = s.regByte h 1#2 ++ s.regByte h 0#2 := by
  apply BitVec.eq_of_getLsbD_eq
  intro i hi
  rw [BitVec.getLsbD_setWidth, BitVec.getLsbD_append, regByte_getLsbD, regByte_getLsbD]
  by_cases hlow : i < 8
  · simp [hi, hlow]
  · have hup : i - 8 < 8 := by omega
    have hat : 8 + (i - 8) = i := by omega
    simp [hi, hlow, hup, hat]

/-- A 16-bit write replaces the lower half of the register and leaves the upper (R21, R25). -/
theorem State.getReg_writePart_half (h : Home) (v : Word) :
    (s.writePart ⟨h, 0#2, .w16⟩ v).getReg h = (s.getReg h).extractLsb' 16 16 ++ v.setWidth 16 := by
  apply BitVec.eq_of_getLsbD_eq
  intro i hi
  rw [State.writePart, State.getReg_setReg_self, Part.put_getLsbD, BitVec.getLsbD_append]
  by_cases hlow : i < 16
  · simp [Size.bits, hi, hlow]
  · have hup : i - 16 < 16 := by omega
    have hat : 16 + (i - 16) = i := by omega
    simp [Size.bits, hlow, hup, hat]

end

/-! ## The obligations about register names -/

/-- Settles O8: each 8-bit code through its file, register and byte; the 3-bit codes case by case. -/
theorem registerCodes : Obligations.RegisterCodes := by
  refine ⟨⟨rfl, rfl, rfl, rfl⟩, ⟨rfl, rfl, rfl, rfl⟩, fun s sz b k l => ⟨?_, ?_, ?_⟩, fun s sz c hlo hhi => ?_,
    fun s k => ⟨s.codePart_upper k, s.codePart_lower k⟩, fun s sz hsz => ?_, State.exists_long_eq_short,
    State.exists_long_byte, fun s k => ?_⟩
  · exact s.byCode_code sz ⟨.abs b, k, l⟩
  · exact s.byCode_code sz ⟨.cur, k, l⟩
  · exact s.byCode_code sz ⟨.outside, k, l⟩
  · rw [State.byCode, LongReg.ofCode_eq_none hlo hhi, Option.map_none]
  · simp only [s.codePart_wide hsz]
    exact ⟨rfl, rfl, rfl, rfl, rfl, rfl, rfl, rfl⟩
  · have hwide : s.codePart .w16 (0#1 ++ k) = ⟨.banked s.curBank (BankReg.ofCode k), 0#2, .w16⟩ := by
      rw [s.codePart_wide (by decide), s.codeHome_banked]
    rw [hwide, s.codePart_upper, s.codePart_lower, s.readPart_byte, s.readPart_byte, s.readPart_half,
      s.lowHalf_eq_bytes]

/-- Settles O9: a part lies inside its register, so it reads back; a 16-bit register is the lower half of its home. -/
theorem partsAreAliases : Obligations.PartsAreAliases := by
  refine ⟨fun s sz r v => ⟨?_, KeepsRegsExcept.writePart s _ v⟩, fun s R => s.readPart_half _,
    fun s R v => s.getReg_writePart_half _ v⟩
  rw [State.readPart_writePart_self s _ v (s.opPart_inside sz r), State.opPart_size]

/-- Settles O6: by the names of the 3-bit codes; a write of RFP writes SR alone. -/
theorem currentBankIsRfp : Obligations.CurrentBankIsRfp :=
  ⟨State.curBank_eq_rfp,
    fun s => ⟨s.codeHome_banked 0#2, s.codeHome_banked 1#2, s.codeHome_banked 2#2, s.codeHome_banked 3#2⟩,
    fun s _ _ h => s.codePart_home_banked h,
    fun s b => ⟨s.setBank_curBank b, s.setBank_getReg b⟩⟩

/-- Settles O7: D0H to DFH are the codes of the previous bank's file. -/
theorem previousBank : Obligations.PreviousBank :=
  ⟨State.prevBank_toNat, fun s sz k l => s.byCode_code sz ⟨.prev, k, l⟩⟩

end Sys2Proof.Machine
end

section
/-! The state a reset leaves (10_state.md R56). -/

namespace Sys2Proof.Machine

/-- The fields of SR after reset (R56). -/
theorem State.reset_status :
    State.reset.sr.getLsbD 11 = true ∧ State.reset.iff = 7#3 ∧ State.reset.rfp = 0#3 := by decide

/-- Settles O50: a reset takes every field of R56 from `State.reset`, and PC from the vector. -/
theorem resetValues : Obligations.ResetValues := by
  obtain ⟨hmax, hiff, hrfp⟩ := State.reset_status
  exact ⟨fun s hs => ⟨_, (resetAction_eq_next s _).mpr ⟨hs, rfl⟩, rfl, hmax, hiff, hrfp, rfl⟩,
    rfl, hmax, hiff, hrfp, rfl⟩

end Sys2Proof.Machine
end

section
/-! The flags ADD, SUB and DAA leave, by their result (10_state.md R40 to R45, 42_arithmetic.md R126). -/

namespace Sys2Proof.Machine

/-- The sign bit of a result is that bit of the word that carries it. -/
theorem topBit_eq_getLsbD (sz : Size) (n : Nat) : topBit sz n = (BitVec.ofNat 32 n).getLsbD (sz.bits - 1) := by
  have h32 : sz.bits - 1 < 32 := by cases sz <;> decide
  rw [topBit, BitVec.getLsbD_ofNat, decide_eq_true h32, Bool.true_and]

/-- A result that fits its size is zero exactly when the word that carries it is. -/
theorem beq_zero_eq_ofNat_beq (sz : Size) {n : Nat} (hn : n < 2 ^ sz.bits) : (n == 0) = (BitVec.ofNat 32 n == 0#32) := by
  have h32 : n < 2 ^ 32 := Nat.lt_of_lt_of_le hn (Size.pow_le sz)
  rw [Bool.eq_iff_iff, beq_iff_eq, beq_iff_eq, ← BitVec.toNat_inj, BitVec.toNat_ofNat, Nat.mod_eq_of_lt h32]
  rfl

/-- ADD and SUB of two values leave the flags their result asks for (R40, R41, R42, R44, R45). -/
theorem AluOp.run_aluFlags (op : AluOp) (sz : Size) (a b : Word) (u : Bool) :
    AluFlags op sz a.toNat b.toNat (op.run sz a b u).1 u (op.run sz a b u).2 := by
  have hpos : 0 < 2 ^ sz.bits := Nat.two_pow_pos _
  cases op with
  | add =>
    exact ⟨topBit_eq_getLsbD sz _, beq_zero_eq_ofNat_beq sz (Nat.mod_lt _ hpos), rfl, rfl, by cases sz <;> rfl⟩
  | sub =>
    exact ⟨topBit_eq_getLsbD sz _, beq_zero_eq_ofNat_beq sz (Nat.mod_lt _ hpos), rfl, rfl, by cases sz <;> rfl⟩

/-- ADD and SUB to a register part: the flags by what the part then holds. -/
theorem aluToPart_aluFlags (op : AluOp) (s : State) {p : Part} {sz : Size} (hp : p.inside) (hsz : p.size = sz)
    (b : Word) (n : Nat) :
    let t := (aluToPart op p b s).advance n
    AluFlags op sz (s.readPart p).toNat b.toNat (t.readPart p) s.drawn.h t.flags := by
  subst hsz
  obtain ⟨hread, hflags, -⟩ := aluToPart_spec op s p b n hp
  simp only [hread, hflags]
  exact AluOp.run_aluFlags ..

@[simp] theorem State.valueAt_setFlags (s : State) (fl : Flags) (sz : Size) (ea : Word) :
    (s.setFlags fl).valueAt sz ea = s.valueAt sz ea := rfl

/-- ADD and SUB to memory complete where memory can be stored to: the flags by what memory then holds. -/
theorem aluToMem_aluFlags (op : AluOp) {s : State} (hm : s.MemInv) {sz : Size} {ea : Word}
    (hst : s.storable sz ea = true) (b : Word) (n : Nat) :
    ∃ t, ((aluToMem op sz ea b s).andThen fun s1 => .next (s1.advance n)) = .next t ∧
      AluFlags op sz (s.valueAt sz ea).toNat b.toNat (t.valueAt sz ea) s.drawn.h t.flags := by
  refine ⟨_, Res.andThen_eq_next.mpr ⟨_, (aluToMem_eq_next ..).mpr ⟨hst, rfl⟩, rfl⟩, ?_⟩
  have hfits := Size.and_mask_of_lt sz _ (AluOp.run_lt op sz (s.valueAt sz ea) b s.drawn.h)
  have hval := State.valueAt_storeBytes_self s hm sz ea (op.run sz (s.valueAt sz ea) b s.drawn.h).1
  rw [State.valueAt_advance, State.valueAt_setFlags, hval, hfits, State.flags_advance, State.setFlags_flags]
  exact AluOp.run_aluFlags ..

/-- ADD and SUB from memory to a register part complete where memory can be read. -/
theorem memRead_aluToPart_aluFlags (op : AluOp) {s : State} {p : Part} {sz : Size} {ea : Word} (hp : p.inside)
    (hsz : p.size = sz) (hr : s.readable sz ea = true) (n : Nat) :
    ∃ t, ((memRead sz ea s).andThen fun b => .next ((aluToPart op p b s).advance n)) = .next t ∧
      AluFlags op sz (s.readPart p).toNat (s.valueAt sz ea).toNat (t.readPart p) s.drawn.h t.flags :=
  ⟨_, Res.andThen_eq_next.mpr ⟨_, memRead_of_readable hr, rfl⟩, aluToPart_aluFlags op s hp hsz _ n⟩

/-- What DAA writes, whatever DAA_FN is: the register and the flags from the product's DAA_FN, N kept (R126). -/
theorem execDaa_reads (r : RegOp) (s : State) :
    ∃ t, exec (.daa r) s = .next t ∧
      let o := daaFn s.product ((s.readPart (s.opPart .b8 r)).setWidth 8) s.flags.n s.flags.h s.flags.c
      t.readPart (s.opPart .b8 r) = o.r.setWidth 32 ∧
      t.flags = { s := o.s, z := o.z, h := o.h, v := o.p, n := s.flags.n, c := o.c } := by
  refine ⟨_, rfl, ?_, ?_⟩
  · have hfits : ∀ v : Byte, v.setWidth 32 &&& Size.b8.mask = v.setWidth 32 := fun v =>
      Size.and_mask_of_lt .b8 _ (by rw [BitVec.toNat_setWidth]; exact Nat.lt_of_le_of_lt (Nat.mod_le _ _) v.isLt)
    rw [State.readPart_advance, State.readPart_congr _ (State.setFlags_getReg _ _ _),
      State.readPart_writePart_self _ _ _ (s.opPart_inside .b8 r), State.opPart_size, hfits]
  · rw [State.flags_advance, State.setFlags_flags]

/-- S and Z of DAA_FN are those of its result (R126), also as a word that carries it. -/
theorem daaFn_sign_zero (q : Product) (a : Byte) (n h c : Bool) :
    let o := daaFn q a n h c
    o.s = (o.r.setWidth 32).getLsbD 7 ∧ o.z = (o.r.setWidth 32 == 0#32) := by
  intro o
  have hzero : (o.r.setWidth 32 == 0#32) = (o.r == 0#8) := by
    rw [Bool.eq_iff_iff, beq_iff_eq, beq_iff_eq, ← BitVec.toNat_inj, BitVec.toNat_setWidth_of_le (by decide)]
    exact BitVec.toNat_inj (y := 0#8)
  exact ⟨by rw [BitVec.getLsbD_setWidth]; exact BitVec.msb_eq_getLsbD_last o.r, hzero.symm⟩

/-- Settles O30: each form is `aluToPart` or `aluToMem` on its operands; DAA takes S and Z from DAA_FN. -/
theorem flagLaws : Obligations.FlagLaws := by
  refine ⟨fun sz R r s => ?_, fun r n s => ?_, fun sz R a s hr => ?_, fun sz a R s hm hst => ?_, fun r s => ?_⟩
  · have h := fun op => aluToPart_aluFlags op s (s.codePart_inside sz R) (s.codePart_size sz R)
      (s.readPart (s.opPart sz r))
    exact ⟨⟨_, rfl, h .add _⟩, ⟨_, rfl, h .sub _⟩⟩
  · have h := fun op => aluToPart_aluFlags op s (s.opPart_inside n.size r) (s.opPart_size n.size r) n.value
    exact ⟨⟨_, rfl, h .add _⟩, ⟨_, rfl, h .sub _⟩⟩
  · rw [← State.indirect_eq] at hr ⊢
    have h := fun op => memRead_aluToPart_aluFlags op (s.codePart_inside sz R) (s.codePart_size sz R) hr
    exact ⟨h .add _, h .sub _⟩
  · rw [← State.indirect_eq] at hst ⊢
    have h := fun op => aluToMem_aluFlags op hm hst (s.readPart (s.codePart sz R))
    exact ⟨h .add _, h .sub _⟩
  · obtain ⟨t, ht, hread, hflags⟩ := execDaa_reads r s
    refine ⟨t, ht, ?_⟩
    rw [hread, hflags]
    exact daaFn_sign_zero ..

end Sys2Proof.Machine
end

section
/-! The second flag register F' (10_state.md R46): what a state with another F' does. -/

namespace Sys2Proof.Machine

/-- The state with another value in F'. -/
def State.setFAlt (s : State) (f' : Byte) : State := { s with fAlt := f' }

/-- A result with its value changed, a stop left as it is. -/
def Res.map {α β : Type} (g : α → β) (x : Res α) : Res β := x.andThen fun a => .next (g a)

section
variable {α β γ : Type}

@[simp] theorem Res.map_next (g : α → β) (a : α) : Res.map g (.next a) = .next (g a) := rfl
@[simp] theorem Res.map_fault (g : α → β) (r : Fault) : Res.map g (.fault r) = .fault r := rfl
@[simp] theorem Res.map_refused (g : α → β) (r : Refusal) : Res.map g (.refused r) = .refused r := rfl

@[simp] theorem Res.map_andThen (g : β → γ) (x : Res α) (k : α → Res β) :
    Res.map g (x.andThen k) = x.andThen fun a => Res.map g (k a) := by cases x <;> rfl

@[simp] theorem Res.andThen_map (g : α → β) (x : Res α) (k : β → Res γ) :
    (Res.map g x).andThen k = x.andThen fun a => k (g a) := by cases x <;> rfl

end

/-! ## No register, field or byte of memory depends on F' -/

section
variable (s : State) (f' : Byte)

@[simp] theorem State.setFAlt_product : (s.setFAlt f').product = s.product := rfl
@[simp] theorem State.setFAlt_xsp : (s.setFAlt f').xsp = s.xsp := rfl
@[simp] theorem State.setFAlt_f : (s.setFAlt f').f = s.f := rfl
@[simp] theorem State.setFAlt_srImage : (s.setFAlt f').srImage = s.srImage := rfl
@[simp] theorem State.setFAlt_curBank : (s.setFAlt f').curBank = s.curBank := rfl
@[simp] theorem State.setFAlt_flags : (s.setFAlt f').flags = s.flags := rfl
@[simp] theorem State.setFAlt_drawn : (s.setFAlt f').drawn = s.drawn := rfl
@[simp] theorem State.setFAlt_partA : (s.setFAlt f').partA = s.partA := rfl
@[simp] theorem State.setFAlt_getReg (h : Home) : (s.setFAlt f').getReg h = s.getReg h := by cases h <;> rfl
@[simp] theorem State.setFAlt_getCr (c : CtrlReg) : (s.setFAlt f').getCr c = s.getCr c := by cases c <;> rfl
@[simp] theorem State.setFAlt_codePart (sz : Size) (R : RegCode) : (s.setFAlt f').codePart sz R = s.codePart sz R := by
  cases sz <;> rfl
@[simp] theorem State.setFAlt_opPart (sz : Size) (r : RegOp) : (s.setFAlt f').opPart sz r = s.opPart sz r := by
  cases r with
  | short R => exact s.setFAlt_codePart f' sz R
  | long c => rfl
@[simp] theorem State.setFAlt_readPart (p : Part) : (s.setFAlt f').readPart p = s.readPart p :=
  State.readPart_congr p (s.setFAlt_getReg f' _)
@[simp] theorem State.setFAlt_indirect (a : RegCode) : (s.setFAlt f').indirect a = s.indirect a :=
  s.setFAlt_readPart f' _

/-! ## Every write leaves F', whatever it holds -/

@[simp] theorem State.setReg_setFAlt (h : Home) (v : Word) : (s.setFAlt f').setReg h v = (s.setReg h v).setFAlt f' := by
  cases h <;> rfl
@[simp] theorem State.writePart_setFAlt (p : Part) (v : Word) :
    (s.setFAlt f').writePart p v = (s.writePart p v).setFAlt f' := by simp [State.writePart]
@[simp] theorem State.setF_setFAlt (f : Byte) : (s.setFAlt f').setF f = (s.setF f).setFAlt f' := rfl
@[simp] theorem State.setIff_setFAlt (l : BitVec 3) : (s.setFAlt f').setIff l = (s.setIff l).setFAlt f' := rfl
@[simp] theorem State.setBank_setFAlt (b : BitVec 2) : (s.setFAlt f').setBank b = (s.setBank b).setFAlt f' := rfl
@[simp] theorem State.setFlags_setFAlt (fl : Flags) : (s.setFAlt f').setFlags fl = (s.setFlags fl).setFAlt f' := rfl
@[simp] theorem State.setCr_setFAlt (c : CtrlReg) (v : Word) : (s.setFAlt f').setCr c v = (s.setCr c v).setFAlt f' := by
  cases c <;> rfl
@[simp] theorem State.advance_setFAlt (n : Nat) : (s.setFAlt f').advance n = (s.advance n).setFAlt f' := rfl
theorem State.setFAlt_with_xsp (x : Word) :
    ({ s.setFAlt f' with xsp := x } : State) = ({ s with xsp := x } : State).setFAlt f' := rfl
@[simp] theorem State.storeBytes_setFAlt (n : Nat) (ea v : Word) :
    (s.setFAlt f').storeBytes n ea v = (s.storeBytes n ea v).setFAlt f' := rfl
@[simp] theorem aluToPart_setFAlt (op : AluOp) (p : Part) (b : Word) :
    aluToPart op p b (s.setFAlt f') = (aluToPart op p b s).setFAlt f' := by simp [aluToPart]

/-! ## The shared operations -/

@[simp] theorem accessRange_setFAlt (k : Access) (n : Nat) :
    ∀ ea, accessRange k n ea (s.setFAlt f') = accessRange k n ea s := by
  induction n with
  | zero => exact fun _ => rfl
  | succ n ih => exact fun ea => congrArg (Res.andThen (access k (s.addr ea) s)) (funext fun _ => ih (ea + 1#32))

@[simp] theorem memRead_setFAlt (sz : Size) (ea : Word) : memRead sz ea (s.setFAlt f') = memRead sz ea s :=
  congrArg (Res.andThen · _) (accessRange_setFAlt s f' .read _ ea)

@[simp] theorem memWrite_setFAlt (sz : Size) (ea v : Word) :
    memWrite sz ea v (s.setFAlt f') = (memWrite sz ea v s).map (·.setFAlt f') := by simp [memWrite]

@[simp] theorem push_setFAlt (sz : Size) (v : Word) : push sz v (s.setFAlt f') = (push sz v s).map (·.setFAlt f') :=
  memWrite_setFAlt { s with xsp := s.xsp - BitVec.ofNat 32 sz.bytes } f' sz _ v

@[simp] theorem pop_setFAlt (sz : Size) :
    pop sz (s.setFAlt f') = (pop sz s).map fun out => (out.1, out.2.setFAlt f') := by
  simp only [pop, memRead_setFAlt, Res.map_andThen]
  rfl

@[simp] theorem loadSr_setFAlt (image : Half) : loadSr image (s.setFAlt f') = (loadSr image s).map (·.setFAlt f') := by
  unfold loadSr
  split <;> rfl

@[simp] theorem aluToMem_setFAlt (op : AluOp) (sz : Size) (ea b : Word) :
    aluToMem op sz ea b (s.setFAlt f') = (aluToMem op sz ea b s).map (·.setFAlt f') := by simp [aluToMem]

@[simp] theorem returnFromInterrupt_setFAlt :
    returnFromInterrupt (s.setFAlt f') = (returnFromInterrupt s).map (·.setFAlt f') := by
  simp only [returnFromInterrupt, State.setFAlt_with_xsp, memRead_setFAlt, loadSr_setFAlt, Res.map_andThen,
    Res.andThen_map, Res.map_next, State.setFAlt_xsp]
  rfl

@[simp] theorem pushPart_setFAlt (p : Part) (n : Nat) :
    pushPart p n (s.setFAlt f') = (pushPart p n s).map (·.setFAlt f') := by simp [pushPart]

@[simp] theorem popPart_setFAlt (p : Part) (n : Nat) :
    popPart p n (s.setFAlt f') = (popPart p n s).map (·.setFAlt f') := by simp [popPart]

@[simp] theorem callTo_setFAlt (target : Word) (n : Nat) :
    callTo target n (s.setFAlt f') = (callTo target n s).map (·.setFAlt f') := by
  simp only [callTo, State.advance_setFAlt, push_setFAlt, Res.map_andThen, Res.andThen_map]
  rfl

/-- An instruction other than EX F,F' does the same whatever F' holds, and carries F' along (R46). -/
theorem exec_setFAlt {i : Instr} (hi : i ≠ .exFF) : exec i (s.setFAlt f') = Res.map (·.setFAlt f') (exec i s) := by
  cases i with
  | exFF => exact absurd rfl hi
  | addRr | subRr | addrn | subrn | addRm | subRm | addmR | submR | daa =>
    simp [exec, execAddRr, execSubRr, execAddrn, execSubrn, execAddRm, execSubRm, execAddmR, execSubmR, execDaa]
  | ldf | incf | decf | ei => simp [exec, execLdf, execIncf, execDecf, execEi]
  | exRr sz R r =>
    simp only [exec, execExRr]
    split <;> simp
  | reti => exact returnFromInterrupt_setFAlt s f'
  | call16 | call24 => exact callTo_setFAlt ..
  | ret =>
    simp only [exec, execRet, pop_setFAlt, Res.map_andThen, Res.andThen_map]
    rfl
  | ldRr | ldrR | ldRn8 | ldRn16 | ldRn32 | ldrn | ldr3 | ldRm | ldmR =>
    simp [exec, execLdRr, execLdrR, execLdRn8, execLdRn16, execLdRn32, execLdrn, execLdr3, execLdRm, execLdmR]
  | ldcCrR sz r cr | ldcRCr sz r cr =>
    simp only [exec, execLdcCrR, execLdcRCr, State.setFAlt_product]
    split <;> simp
  | pushA | popA | pushReg | popReg => simp [exec, execPushA, execPopA, execPushReg, execPopReg]
  | pushShort sz R | popShort sz R =>
    simp only [exec, execPushShort, execPopShort]
    split <;> simp
  | pushF | popF | pushSr | popSr => simp [exec, execPushF, execPopF, execPushSr, execPopSr]

end

/-- Settles O55: EX F,F' by its fields; the rest because F' is carried along. -/
theorem onlyExReachesSecondFlags : Obligations.OnlyExReachesSecondFlags := by
  have hcarry : ∀ (i : Instr) (s t : State) (f' : Byte), i ≠ .exFF → exec i s = .next t →
      exec i (s.setFAlt f') = .next (t.setFAlt f') := fun i s t f' hi ht => by
    rw [exec_setFAlt s f' hi, ht, Res.map_next]
  refine ⟨fun s => ⟨_, rfl, s.setF_f s.fAlt, rfl⟩, fun i s t hi ht => ?_, hcarry⟩
  have hsame : Host.Outcome.next t = Host.Outcome.next (t.setFAlt s.fAlt) := ht.symm.trans (hcarry i s t s.fAlt hi ht)
  calc t.fAlt = (t.setFAlt s.fAlt).fAlt := congrArg State.fAlt (Host.Outcome.next.inj hsame)
    _ = s.fAlt := rfl

end Sys2Proof.Machine
end

section
/-! DAA (42_arithmetic.md R126, 92 D25): its frame, the parity of its result, and the rows of DAA_FN. -/

namespace Sys2Proof.Machine

/-- A register part and the flags written, and PC moved: nothing else changes. -/
theorem OnlyRegsAndF.writePart_setFlags (s : State) (p : Part) (v : Word) (fl : Flags) (n : Nat) :
    OnlyRegsAndF [p] s (((s.writePart p v).setFlags fl).advance n) := by
  refine ⟨?_, fun i hi => ?_, fun a => by simp, by simp, by simp, by simp, by simp⟩
  · exact (KeepsRegsExcept.writePart s p v).trans (KeepsRegsExcept.of_getReg fun h => by simp)
  · have h := KeepsSrBut.setFlags (s.writePart p v) fl i hi
    rwa [State.writePart_sr] at h

/-- DAA leaves everything but its register, F and PC, which moves past it (R126, 10_state.md R49). -/
theorem execDaa_frame {r : RegOp} {s t : State} (h : exec (.daa r) s = .next t) :
    OnlyRegsAndF [s.opPart .b8 r] s t ∧ PastInstr (.daa r) s t := by
  obtain rfl := Host.Outcome.next.inj h
  obtain ⟨hlen, -⟩ := Laws.EncodeLength.daa r
  refine ⟨OnlyRegsAndF.writePart_setFlags .., ?_⟩
  rw [PastInstr, hlen]
  simp

/-- The population count of the low `n` bits is the number of places below `n` that hold a 1. -/
theorem cpopNatRec_eq_length_filter {w : Nat} (x : BitVec w) (n : Nat) :
    x.cpopNatRec n 0 = ((List.range n).filter fun i => x.getLsbD i).length := by
  induction n with
  | zero => rfl
  | succ n ih =>
    rw [BitVec.cpopNatRec_succ, BitVec.cpopNatRec_add (acc := 0), ih, List.range_succ, List.filter_append,
      List.length_append]
    cases hbit : x.getLsbD n <;> simp [hbit]

/-- P counts the 1 bits of the result (10_state.md R43). -/
theorem evenParity_eq_length_filter (b : Byte) :
    evenParity b = (((List.range 8).filter fun i => b.getLsbD i).length % 2 == 0) := by
  rw [evenParity, BitVec.toNat_cpop, cpopNatRec_eq_length_filter]

/-- The only row of DAA_FN for its argument is what DAA_FN answers there (R126, D25). -/
theorem daaResult_of_row (q : Product) (row : DaaRow) (hmem : row ∈ q.daaRows)
    (honly : ∀ row' ∈ q.daaRows, row'.args = row.args → row' = row) : daaResult q row.args = row.out := by
  have hfind : q.daaRows.find? (fun row' => row'.args = row.args) = some row := by
    cases hfound : q.daaRows.find? (fun row' => row'.args = row.args) with
    | none => exact absurd (by simp) (List.find?_eq_none.mp hfound row hmem)
    | some row' =>
      have hargs : row'.args = row.args := by simpa using List.find?_some hfound
      rw [honly row' (List.mem_of_find?_eq_some hfound) hargs]
  rw [daaResult, hfind]

/-- Settles O31: the writes and the frame of `execDaa`; S, Z and P by the definition of `daaComplete`, P counted bit by
bit; the rows of the parameter through `find?`. -/
theorem daaAdjusts : Obligations.DaaAdjusts := by
  refine ⟨fun r s => ?_, fun q a n h c => ?_, daaResult_of_row, fun q x hrows => daaResult_of_no_rows q hrows x⟩
  · obtain ⟨t, ht, hread, hflags⟩ := execDaa_reads r s
    obtain ⟨hframe, hpc⟩ := execDaa_frame ht
    exact ⟨t, ht, hread, hflags, hframe, hpc⟩
  · exact ⟨BitVec.msb_eq_getLsbD_last (daaFn q a n h c).r, rfl, evenParity_eq_length_filter _⟩

end Sys2Proof.Machine
end

section
/-! The mask an interrupt entry leaves (60_exceptions.md R168). -/

namespace Sys2Proof.Machine

/-- The mask after entry counts one above the level, and stops at 7. -/
theorem Level.maskAfter_toNat (l : Level) : l.maskAfter.toNat = min (l.number + 1) 7 := by cases l <;> rfl

/-- An entry writes IFF by the level alone (R167, R168). -/
theorem takeInterrupt_iff {r : Request} {s t : State} (h : takeInterrupt r s = .next t) :
    t.iff = r.level.maskAfter := by
  obtain ⟨-, -, -, rfl⟩ := (takeInterrupt_eq_next r s t).mp h
  exact State.setIff_iff s.entered r.level.maskAfter

/-- Settles O48: IFF is the mask after the level, one above it and at most 7. -/
theorem maskRaisedAboveLevel : Obligations.MaskRaisedAboveLevel := by
  intro r s t h
  have hmask : t.iff.toNat = min (r.level.number + 1) 7 := by rw [takeInterrupt_iff h, Level.maskAfter_toNat]
  refine ⟨fun hlevel => ?_, fun hlevel => BitVec.eq_of_toNat_eq ?_⟩
  · omega
  · rw [hmask, hlevel]
    rfl

end Sys2Proof.Machine
end

section
/-! What a step does with the product and with the environment's events (60_exceptions.md R165; log 5, log 18), and
where a run is observed (R178, 92 D21). -/

namespace Sys2Proof.Machine

/-- The parameters of the product and the environment's events are as they were. -/
def KeepsProductAndEnv (s t : State) : Prop := t.product = s.product ∧ t.env = s.env

@[simp] theorem State.pushed_env (s : State) (sz : Size) (v : Word) : (s.pushed sz v).env = s.env := rfl
@[simp] theorem State.popped_env (s : State) (sz : Size) : (s.popped sz).env = s.env := rfl
@[simp] theorem aluToPart_product (op : AluOp) (p : Part) (b : Word) (s : State) :
    (aluToPart op p b s).product = s.product := by simp [aluToPart]
@[simp] theorem aluToPart_env (op : AluOp) (p : Part) (b : Word) (s : State) :
    (aluToPart op p b s).env = s.env := by simp [aluToPart]

theorem pushPart_keepsProductAndEnv (p : Part) (n : Nat) (s t : State) (h : pushPart p n s = .next t) :
    KeepsProductAndEnv s t := by
  obtain ⟨s1, hs1, ⟨⟩⟩ := Res.andThen_eq_next.mp h
  obtain ⟨-, rfl⟩ := (push_eq_next ..).mp hs1
  exact ⟨rfl, rfl⟩

theorem popPart_keepsProductAndEnv (p : Part) (n : Nat) (s t : State) (h : popPart p n s = .next t) :
    KeepsProductAndEnv s t := by
  obtain ⟨out, hout, ⟨⟩⟩ := Res.andThen_eq_next.mp h
  obtain ⟨-, rfl⟩ := (pop_eq_next ..).mp hout
  constructor <;> simp

theorem callTo_keepsProductAndEnv (target : Word) (n : Nat) (s t : State) (h : callTo target n s = .next t) :
    KeepsProductAndEnv s t := by
  obtain ⟨s1, hs1, ⟨⟩⟩ := Res.andThen_eq_next.mp h
  obtain ⟨-, rfl⟩ := (push_eq_next ..).mp hs1
  exact ⟨rfl, rfl⟩

theorem returnFromInterrupt_keepsProductAndEnv (s t : State) (h : returnFromInterrupt s = .next t) :
    KeepsProductAndEnv s t := by
  obtain ⟨-, -, -, rfl⟩ := (returnFromInterrupt_eq_next s t).mp h
  exact ⟨rfl, rfl⟩

theorem takeInterrupt_keepsProductAndEnv (r : Request) (s t : State) (h : takeInterrupt r s = .next t) :
    KeepsProductAndEnv s t := by
  obtain ⟨-, -, -, rfl⟩ := (takeInterrupt_eq_next r s t).mp h
  exact ⟨rfl, rfl⟩

theorem resetAction_keepsProductAndEnv (s t : State) (h : resetAction s = .next t) : KeepsProductAndEnv s t := by
  obtain ⟨-, rfl⟩ := (resetAction_eq_next s t).mp h
  exact ⟨rfl, rfl⟩

/-- No instruction changes a parameter or uses up an event. -/
theorem exec_keepsProductAndEnv (i : Instr) (s : State) : ∀ t, exec i s = .next t → KeepsProductAndEnv s t := by
  cases i with
  | addRr | subRr | addrn | subrn | daa =>
    simp [exec, execAddRr, execSubRr, execAddrn, execSubrn, execDaa, KeepsProductAndEnv]
  | addRm | subRm => simp [exec, execAddRm, execSubRm, Res.andThen_eq_next, memRead_eq_next, KeepsProductAndEnv]
  | addmR | submR => simp [exec, execAddmR, execSubmR, Res.andThen_eq_next, aluToMem_eq_next, KeepsProductAndEnv]
  | ldf | incf | decf | exFF | ei => simp [exec, execLdf, execIncf, execDecf, execExFF, execEi, KeepsProductAndEnv]
  | exRr sz R r =>
    simp only [exec, execExRr]
    split <;> simp [KeepsProductAndEnv]
  | reti => exact returnFromInterrupt_keepsProductAndEnv s
  | call16 | call24 => exact callTo_keepsProductAndEnv _ _ s
  | ret => simp [exec, execRet, Res.andThen_eq_next, pop_eq_next, KeepsProductAndEnv]
  | ldRr | ldrR | ldRn8 | ldRn16 | ldRn32 | ldrn | ldr3 =>
    simp [exec, execLdRr, execLdrR, execLdRn8, execLdRn16, execLdRn32, execLdrn, execLdr3, KeepsProductAndEnv]
  | ldRm | ldmR =>
    simp [exec, execLdRm, execLdmR, Res.andThen_eq_next, memRead_eq_next, memWrite_eq_next, KeepsProductAndEnv]
  | ldcCrR sz r cr | ldcRCr sz r cr =>
    simp only [exec, execLdcCrR, execLdcRCr]
    split <;> simp [KeepsProductAndEnv]
  | pushA | pushReg => exact pushPart_keepsProductAndEnv _ _ s
  | popA | popReg => exact popPart_keepsProductAndEnv _ _ s
  | pushShort sz R =>
    simp only [exec, execPushShort]
    split
    · simp
    · exact pushPart_keepsProductAndEnv _ _ s
  | popShort sz R =>
    simp only [exec, execPopShort]
    split
    · simp
    · exact popPart_keepsProductAndEnv _ _ s
  | pushF | pushSr => simp [exec, execPushF, execPushSr, Res.andThen_eq_next, push_eq_next, KeepsProductAndEnv]
  | popF | popSr =>
    simp [exec, execPopF, execPopSr, Res.andThen_eq_next, pop_eq_next, loadSr_eq_next, KeepsProductAndEnv]

/-- Whatever a step is, it uses up the event of its boundary and leaves the parameters. -/
theorem step_product_env {s t : State} (h : step s = .next t) : t.product = s.product ∧ t.env = s.env.tail := by
  rcases (step_eq_next s t).mp h with ⟨_, _, hreset⟩ | ⟨_, _, r, _, _, hentry⟩ | ⟨_, hrun⟩
  · exact resetAction_keepsProductAndEnv _ t hreset
  · exact takeInterrupt_keepsProductAndEnv r _ t hentry
  · obtain ⟨i, _, hexec⟩ := (runInstr_eq_next _ t).mp hrun
    exact exec_keepsProductAndEnv i _ t hexec

/-- A run that starts at END_PC is observed at its start. -/
theorem eq_of_observed_of_atEnd {n : Nat} {s t : State} (hend : s.atEnd = true)
    (h : observed n s = .next (some t)) : t = s := by
  rw [observed_of_atEnd hend] at h
  cases h
  rfl

/-- A run is observed at END_PC, with the parameters it started with: each step keeps them (D21, log 35). -/
theorem observed_product_atEnd (n : Nat) : ∀ {s t : State}, observed n s = .next (some t) →
    t.product = s.product ∧ t.atEnd = true := by
  induction n with
  | zero =>
    intro s t h
    cases hend : s.atEnd with
    | true =>
      obtain rfl := eq_of_observed_of_atEnd hend h
      exact ⟨rfl, hend⟩
    | false => exact nomatch (observed_zero hend).symm.trans h
  | succ n ih =>
    intro s t h
    cases hend : s.atEnd with
    | true =>
      obtain rfl := eq_of_observed_of_atEnd hend h
      exact ⟨rfl, hend⟩
    | false =>
      rw [observed_succ hend] at h
      obtain ⟨u, hstep, hrest⟩ := Res.andThen_eq_next.mp h
      obtain ⟨hproduct, hatEnd⟩ := ih hrest
      exact ⟨hproduct.trans (step_product_env hstep).1, hatEnd⟩

theorem observed_endPc {n : Nat} {s t : State} (h : observed n s = .next (some t)) :
    s.product.endPc = some (t.addr t.pc) := by
  obtain ⟨hproduct, hend⟩ := observed_product_atEnd n h
  rw [← hproduct]
  exact t.atEnd_iff.mp hend

/-- Settles O60: by the kinds of step, and by induction over the steps of a run. -/
theorem stepKeepsProduct : Obligations.StepKeepsProduct := by
  refine ⟨fun s t => step_product_env, fun n s t h => ⟨(observed_product_atEnd n h).1, observed_endPc h⟩,
    fun n s t hnone h => ?_⟩
  have hsome := observed_endPc h
  rw [hnone] at hsome
  cases hsome

end Sys2Proof.Machine
end

section
/-! EI and the boundary after it (60_exceptions.md R164, R166, 70_reset_and_hazards.md R194): the acceptance test looks at
the mask alone, and EI writes the mask before that test. -/

namespace Sys2Proof.Machine

theorem execEi_eq_next {n : BitVec 3} {s t : State} :
    exec (.ei n) s = .next t ↔ t = (s.setIff n).advance (Instr.ei n).length := by
  rw [exec, execEi, Host.Outcome.next.injEq, eq_comm]

/-- Whether a request is let in is a matter of IFF alone (R164). -/
theorem State.letsIn_congr {s t : State} (h : t.iff = s.iff) (r : Request) : t.letsIn r = s.letsIn r := by
  rw [State.letsIn, State.letsIn, h]

/-- States with one mask accept the same request of any list (R166). -/
theorem State.accepted_congr {s t : State} (h : t.iff = s.iff) (rs : List Request) : t.accepted rs = s.accepted rs := by
  induction rs with
  | nil => rfl
  | cons r rs ih => rw [State.accepted, State.accepted, ih, State.letsIn_congr h]

/-- A boundary with a request the mask lets in is the entry of that interrupt, whether or not the entry completes
(R165). -/
theorem step_of_accepted {s : State} {rs : List Request} {rest : List EnvEvent} {r : Request}
    (henv : s.env = .present rs :: rest) (hr : s.accepted rs = some r) :
    step s = takeInterrupt r { s with env := rest } := by
  simp only [step, henv, hr, State.dropEvent, List.tail_cons]

/-- Settles O20: EI leaves the events and sets the mask, and the next boundary's test looks at no more than these. -/
theorem eiTakesEffectAtOnce : Obligations.EiTakesEffectAtOnce := by
  intro n s t rs r rest hexec henv hr
  have ht : t = (s.setIff n).advance (Instr.ei n).length := execEi_eq_next.mp hexec
  have hiff : t.iff = (s.setIff n).iff := by rw [ht]; rfl
  have henvt : t.env = .present rs :: rest := by rw [ht]; exact henv
  have hrt : t.accepted rs = some r := (State.accepted_congr hiff rs).trans hr
  exact ⟨hiff.trans (State.setIff_iff s n), step_of_accepted henvt hrt⟩

end Sys2Proof.Machine
end

section
/-! The encoder and the decoder are inverses (30_encoding.md R86 to R95): each stage of the decoder reads the bytes the
encoder writes, and no others. -/

namespace Sys2Proof

/-! ## The decoder reads what the encoder writes -/

/-- Every instruction's bytes are as many as its length, one to seven (R86, R94). -/
theorem encode_length (i : Instr) : Laws.EncodeLength.Statement i := by
  cases i with
  | pushSr => exact Laws.EncodeLength.pushSr
  | popSr => exact Laws.EncodeLength.popSr
  | reti => exact Laws.EncodeLength.reti
  | incf => exact Laws.EncodeLength.incf
  | decf => exact Laws.EncodeLength.decf
  | ret => exact Laws.EncodeLength.ret
  | pushA => exact Laws.EncodeLength.pushA
  | popA => exact Laws.EncodeLength.popA
  | exFF => exact Laws.EncodeLength.exFF
  | pushF => exact Laws.EncodeLength.pushF
  | popF => exact Laws.EncodeLength.popF
  | ei => exact Laws.EncodeLength.ei _
  | ldf => exact Laws.EncodeLength.ldf _
  | call16 => exact Laws.EncodeLength.call16 _
  | call24 => exact Laws.EncodeLength.call24 _
  | ldRn8 => exact Laws.EncodeLength.ldRn8 ..
  | ldRn16 => exact Laws.EncodeLength.ldRn16 ..
  | ldRn32 => exact Laws.EncodeLength.ldRn32 ..
  | pushShort => exact Laws.EncodeLength.pushShort ..
  | popShort => exact Laws.EncodeLength.popShort ..
  | ldrn => exact Laws.EncodeLength.ldrn ..
  | pushReg => exact Laws.EncodeLength.pushReg ..
  | popReg => exact Laws.EncodeLength.popReg ..
  | daa => exact Laws.EncodeLength.daa _
  | ldcCrR => exact Laws.EncodeLength.ldcCrR ..
  | ldcRCr => exact Laws.EncodeLength.ldcRCr ..
  | addRr => exact Laws.EncodeLength.addRr ..
  | ldRr => exact Laws.EncodeLength.ldRr ..
  | ldrR => exact Laws.EncodeLength.ldrR ..
  | subRr => exact Laws.EncodeLength.subRr ..
  | ldr3 => exact Laws.EncodeLength.ldr3 ..
  | exRr => exact Laws.EncodeLength.exRr ..
  | addrn => exact Laws.EncodeLength.addrn ..
  | subrn => exact Laws.EncodeLength.subrn ..
  | ldRm => exact Laws.EncodeLength.ldRm ..
  | addRm => exact Laws.EncodeLength.addRm ..
  | addmR => exact Laws.EncodeLength.addmR ..
  | subRm => exact Laws.EncodeLength.subRm ..
  | submR => exact Laws.EncodeLength.submR ..
  | ldmR => exact Laws.EncodeLength.ldmR ..

/-- A register code or 3-bit constant is one of eight, so a goal about one is eight goals that evaluate. -/
theorem regCode_eight {P : RegCode → Prop} (h0 : P 0#3) (h1 : P 1#3) (h2 : P 2#3) (h3 : P 3#3) (h4 : P 4#3)
    (h5 : P 5#3) (h6 : P 6#3) (h7 : P 7#3) (R : RegCode) : P R := by
  rcases bitVec3_cases R with rfl | rfl | rfl | rfl | rfl | rfl | rfl | rfl <;> assumption

/-- The bytes after the register's leading bytes, read by the operation byte (R93). -/
theorem decode_of_prefix {sz : Size} {r : RegOp} {tail rest : List Byte} {i : Instr}
    (h : decodeRegOp sz r (tail ++ rest) = .ok i) : decode ((encodePrefix sz r ++ tail) ++ rest) = .ok i := by
  rw [List.append_assoc, decode_encodePrefix, h]

/-- A one-byte opcode with a register code, and the constant after it (R92, R93). -/
theorem decode_ldRn16 (R : RegCode) (b0 b1 : Byte) (rest : List Byte) :
    decode (opByte 0x06#5 R :: b0 :: b1 :: rest) = .ok (.ldRn16 R (le16 b0 b1)) := by
  induction R using regCode_eight <;> rfl

theorem decode_ldRn32 (R : RegCode) (b0 b1 b2 b3 : Byte) (rest : List Byte) :
    decode (opByte 0x08#5 R :: b0 :: b1 :: b2 :: b3 :: rest) = .ok (.ldRn32 R (le32 b0 b1 b2 b3)) := by
  induction R using regCode_eight <;> rfl

/-- The prefixes of the memory forms (R91). -/
theorem decode_encodeSrc (sz : Size) (a : RegCode) (bs : List Byte) :
    decode (encodeSrc sz a :: bs) = decodeSrc sz a bs := by
  cases sz <;> induction a using regCode_eight <;> rfl

theorem decode_encodeDst (a : RegCode) (bs : List Byte) : decode (encodeDst a :: bs) = decodeDst a bs := by
  induction a using regCode_eight <;> rfl

/-- Settles O1, by the shape of the instruction: the register's bytes and the constants by their own laws, every 3-bit
field by its eight values. -/
theorem encodeThenDecode : Obligations.EncodeThenDecode := by
  intro i rest hwf
  cases i with
  | pushSr | popSr | reti | incf | decf | ret | pushA | popA | exFF | pushF | popF => rfl
  | ei R | ldf R | ldRn8 R n => induction R using regCode_eight <;> rfl
  | call16 n => exact congrArg (Except.ok ∘ Instr.call16) (le16_byteOf n)
  | call24 n => exact congrArg (Except.ok ∘ Instr.call24) (le24_byteOf n)
  | ldRn16 R n => exact (decode_ldRn16 ..).trans (by rw [le16_byteOf])
  | ldRn32 R n => exact (decode_ldRn32 ..).trans (by rw [le32_byteOf])
  | pushShort sz R | popShort sz R =>
    cases sz with
    | b8 => exact nomatch hwf
    | w16 | l32 => induction R using regCode_eight <;> rfl
  | ldrn r n | addrn r n | subrn r n => exact decode_of_prefix (decodeImm_encodeImm _ n rest)
  | pushReg | popReg | daa | ldcCrR | ldcRCr => exact decode_of_prefix rfl
  | addRr sz R r | ldRr sz R r | ldrR sz r R | subRr sz R r | ldr3 sz r R =>
    refine decode_of_prefix ?_
    induction R using regCode_eight <;> rfl
  | exRr sz R r =>
    refine decode_of_prefix ?_
    cases sz with
    | l32 => exact nomatch hwf
    | b8 | w16 => induction R using regCode_eight <;> rfl
  | ldRm sz R a | addRm sz R a | addmR sz a R | subRm sz R a | submR sz a R =>
    refine (decode_encodeSrc ..).trans ?_
    induction R using regCode_eight <;> rfl
  | ldmR sz a R =>
    cases sz <;> refine (decode_encodeDst ..).trans ?_ <;> induction R using regCode_eight <;> rfl

/-! ## The bytes the decoder read are those the encoder writes -/

/-- A constant or a number of one byte. -/
theorem decodeCr_spec {mk : Byte → Instr} {bs : List Byte} {i : Instr} (h : decodeCr mk bs = .ok i) :
    ∃ x, i = mk x ∧ [x] <+: bs := by
  cases bs with
  | nil => cases h
  | cons x bs => cases h; exact ⟨x, rfl, ⟨bs, rfl⟩⟩

/-- What the decoder read after a register's bytes is what the encoder writes there. -/
theorem decodeRegOp_spec {sz : Size} {r : RegOp} {bs : List Byte} {i : Instr} (h : decodeRegOp sz r bs = .ok i) :
    ∃ tail, encode i = encodePrefix sz r ++ tail ∧ tail <+: bs := by
  cases bs with
  | nil => cases h
  | cons op bs =>
    simp only [decodeRegOp] at h
    split at h
    case h_1 hop | h_7 hop | h_8 hop =>
      obtain rfl := byte_of_toNat hop
      obtain ⟨n, rfl, rfl, hn⟩ := decodeImm_spec h
      exact ⟨_, rfl, (List.prefix_cons_inj _).mpr hn⟩
    case h_2 hop | h_3 hop =>
      obtain rfl := byte_of_toNat hop
      cases h
      exact ⟨_, rfl, ⟨bs, rfl⟩⟩
    case h_4 hop =>
      obtain rfl := byte_of_toNat hop
      split at h
      case isTrue hsz => subst hsz; cases h; exact ⟨_, rfl, ⟨bs, rfl⟩⟩
      case isFalse => cases h
    case h_5 hop | h_6 hop =>
      obtain rfl := byte_of_toNat hop
      obtain ⟨x, rfl, hx⟩ := decodeCr_spec h
      exact ⟨_, rfl, (List.prefix_cons_inj _).mpr hx⟩
    case h_9 =>
      split at h
      case h_7 => cases h
      case h_6 hop =>
        split at h
        case isTrue => cases h
        case isFalse => cases h; exact ⟨_, rfl, bs, congrArg (· :: bs) (opByte_of_div op _ hop)⟩
      all_goals
        rename_i hop
        cases h
        exact ⟨_, rfl, bs, congrArg (· :: bs) (opByte_of_div op _ hop)⟩

/-- A leading byte is its high five bits and the register's code (R89, R91). -/
theorem prefixByte_of_div {b : Byte} {k : Nat} {hi : BitVec 5} (hb : b.toNat / 8 = k) (hk : hi = BitVec.ofNat 5 k) :
    hi ++ b.setWidth 3 = b := by
  rw [hk]
  exact opByte_of_div b k hb

theorem decodeShort_spec {sz : Size} {k : Nat} {b : Byte} {bs : List Byte} {i : Instr} (hb : b.toNat / 8 = k)
    (hk : 3#2 ++ sz.zz ++ 1#1 = BitVec.ofNat 5 k) (h : decodeRegOp sz (.short (b.setWidth 3)) bs = .ok i) :
    encode i <+: b :: bs := by
  obtain ⟨tail, hi, htail⟩ := decodeRegOp_spec h
  rw [hi, encodePrefix, prefixByte_of_div hb hk]
  exact (List.prefix_cons_inj b).mpr htail

/-- A long register's first byte is followed by the register's code (R89, R90). -/
theorem decodeLong_spec {sz : Size} {bs : List Byte} {i : Instr} (h : decodeLong sz bs = .ok i) :
    encode i <+: (3#2 ++ sz.zz ++ 7#4 : Byte) :: bs := by
  cases bs with
  | nil => cases h
  | cons c bs =>
    simp only [decodeLong] at h
    split at h
    case h_1 r hr =>
      obtain ⟨tail, hi, htail⟩ := decodeRegOp_spec h
      rw [hi, ← LongReg.code_of_ofCode hr]
      exact (List.prefix_cons_inj _).mpr ((List.prefix_cons_inj _).mpr htail)
    case h_2 => cases h

/-- What the decoder read after a memory operand's byte is the operation byte the encoder writes there. -/
theorem decodeSrc_spec {sz : Size} {k : Nat} {b : Byte} {bs : List Byte} {i : Instr} (hb : b.toNat / 8 = k)
    (hk : 2#2 ++ sz.zz ++ 0#1 = BitVec.ofNat 5 k) (h : decodeSrc sz (b.setWidth 3) bs = .ok i) :
    encode i <+: b :: bs := by
  have hprefix : encodeSrc sz (b.setWidth 3) = b := prefixByte_of_div hb hk
  cases bs with
  | nil => cases h
  | cons op bs =>
    simp only [decodeSrc] at h
    split at h
    case h_6 => cases h
    all_goals
      rename_i hop
      cases h
      rw [encode, hprefix, opByte_of_div op _ hop]
      exact ⟨bs, rfl⟩

theorem decodeDst_spec {b : Byte} {bs : List Byte} {i : Instr} (hb : b.toNat / 8 = 0x16)
    (h : decodeDst (b.setWidth 3) bs = .ok i) : encode i <+: b :: bs := by
  have hprefix : encodeDst (b.setWidth 3) = b := prefixByte_of_div hb rfl
  cases bs with
  | nil => cases h
  | cons op bs =>
    simp only [decodeDst] at h
    split at h
    case h_4 => cases h
    all_goals
      rename_i hop
      cases h
      rw [encode, hprefix, opByte_of_div op _ hop]
      exact ⟨bs, rfl⟩

/-- Bits 7 to 3 of the second byte of EI and LDF are its value from 8 upward. -/
theorem highBits_eq_zero_iff (n : Byte) : n.extractLsb' 3 5 = 0#5 ↔ n.toNat < 8 := by
  have hlt : n.toNat < 256 := n.isLt
  rw [← BitVec.toNat_inj, BitVec.extractLsb'_toNat, Nat.shiftRight_eq_div_pow, BitVec.toNat_ofNat]
  omega

/-- The second byte of EI and LDF is its low three bits (R93, R95). -/
theorem decodeImm3_spec {mk : BitVec 3 → Instr} {bs : List Byte} {i : Instr} (h : decodeImm3 mk bs = .ok i) :
    ∃ n, i = mk n ∧ [opByte 0#5 n] <+: bs := by
  cases bs with
  | nil => cases h
  | cons x bs =>
    simp only [decodeImm3] at h
    split at h
    case isTrue hx =>
      have hdiv : x.toNat / 8 = 0 := Nat.div_eq_of_lt ((highBits_eq_zero_iff x).mp hx)
      cases h
      exact ⟨_, rfl, bs, congrArg (· :: bs) (opByte_of_div x 0 hdiv)⟩
    case isFalse => cases h

/-! ## The modes no row admits are named and refused (R91, 92 D12) -/

theorem decodeIndex8_ne_ok (a : RegCode) (bs : List Byte) (i : Instr) : decodeIndex8 a bs ≠ .ok i := by
  cases bs <;> exact nofun

theorem decodeRegIndex_ne_ok (mk : LongReg → LongReg → MemMode) (bs : List Byte) (i : Instr) :
    decodeRegIndex mk bs ≠ .ok i := by
  unfold decodeRegIndex
  split
  · split <;> exact nofun
  · exact nofun

theorem decodeModeByte_ne_ok (bs : List Byte) (i : Instr) : decodeModeByte bs ≠ .ok i := by
  unfold decodeModeByte
  split
  · exact nofun
  · split
    · exact decodeRegIndex_ne_ok _ _ i
    · exact decodeRegIndex_ne_ok _ _ i
    · split <;> exact nofun
    · split
      case h_2 => split <;> exact nofun
      all_goals exact nofun

theorem decodeStep_ne_ok (mk : LongReg → StepSize → MemMode) (bs : List Byte) (i : Instr) :
    decodeStep mk bs ≠ .ok i := by
  unfold decodeStep
  split
  · exact nofun
  · split <;> exact nofun

theorem decodeRefusedMode_ne_ok (b : Byte) (bs : List Byte) (i : Instr) : decodeRefusedMode b bs ≠ .ok i := by
  unfold decodeRefusedMode
  split
  case h_4 => exact decodeModeByte_ne_ok _ i
  case h_5 | h_6 => exact decodeStep_ne_ok _ _ i
  case h_7 => exact nofun
  all_goals split <;> exact nofun

/-- A first byte that carries a register code, and the constant after it. -/
theorem prefix_of_div {b : Byte} {k : Nat} {tail bs : List Byte} (hb : b.toNat / 8 = k) (htail : tail <+: bs) :
    opByte (BitVec.ofNat 5 k) (b.setWidth 3) :: tail <+: b :: bs := by
  rw [opByte_of_div b k hb]
  exact (List.prefix_cons_inj b).mpr htail

theorem decodeImm16_spec {mk : Half → Instr} {bs : List Byte} {i : Instr} (h : decodeImm16 mk bs = .ok i) :
    ∃ n, i = mk n ∧ [byteOf 0 n, byteOf 1 n] <+: bs := by
  unfold decodeImm16 at h
  split at h
  case h_1 b0 b1 bs =>
    obtain ⟨h0, h1⟩ := byteOf_le16 b0 b1
    cases h
    exact ⟨_, rfl, bs, by rw [h0, h1]; rfl⟩
  case h_2 => cases h

theorem decodeImm32_spec {mk : Word → Instr} {bs : List Byte} {i : Instr} (h : decodeImm32 mk bs = .ok i) :
    ∃ n, i = mk n ∧ [byteOf 0 n, byteOf 1 n, byteOf 2 n, byteOf 3 n] <+: bs := by
  unfold decodeImm32 at h
  split at h
  case h_1 b0 b1 b2 b3 bs =>
    obtain ⟨h0, h1, h2, h3⟩ := byteOf_le32 b0 b1 b2 b3
    cases h
    exact ⟨_, rfl, bs, by rw [h0, h1, h2, h3]; rfl⟩
  case h_2 => cases h

/-- Settles O2, by the first byte: one opcode, or a byte that carries a register code, each stage by its own law. -/
theorem decodeThenEncode : Obligations.DecodeThenEncode := by
  intro bs i h
  cases bs with
  | nil => cases h
  | cons b bs =>
    simp only [decode] at h
    split at h
    case h_3 hb | h_11 hb =>
      obtain rfl := byte_of_toNat hb
      obtain ⟨n, rfl, hn⟩ := decodeImm3_spec h
      exact (List.prefix_cons_inj _).mpr hn
    case h_14 hb =>
      obtain rfl := byte_of_toNat hb
      obtain ⟨n, rfl, hn⟩ := decodeImm16_spec h
      exact (List.prefix_cons_inj _).mpr hn
    case h_15 hb =>
      obtain rfl := byte_of_toNat hb
      split at h
      case h_1 b0 b1 b2 bs =>
        obtain ⟨h0, h1, h2⟩ := byteOf_le24 b0 b1 b2
        cases h
        exact (List.prefix_cons_inj _).mpr ⟨bs, by rw [h0, h1, h2]; rfl⟩
      case h_2 => cases h
    case h_16 hb | h_17 hb | h_18 hb =>
      obtain rfl := byte_of_toNat hb
      exact decodeLong_spec h
    case h_19 => cases h
    case h_20 =>
      split at h
      case h_1 hb =>
        split at h
        case h_1 n bs => cases h; exact prefix_of_div hb ⟨bs, rfl⟩
        case h_2 => cases h
      case h_2 hb | h_4 hb | h_6 hb | h_7 hb => cases h; exact prefix_of_div hb (List.nil_prefix)
      case h_3 hb =>
        obtain ⟨n, rfl, hn⟩ := decodeImm16_spec h
        exact prefix_of_div hb hn
      case h_5 hb =>
        obtain ⟨n, rfl, hn⟩ := decodeImm32_spec h
        exact prefix_of_div hb hn
      case h_8 hb | h_9 hb | h_10 hb =>
        exact decodeSrc_spec hb rfl h
      case h_11 hb =>
        exact decodeDst_spec hb h
      case h_12 | h_13 | h_14 | h_15 => exact absurd h (decodeIndex8_ne_ok _ _ i)
      case h_16 hb | h_17 hb | h_18 hb =>
        exact decodeShort_spec hb rfl h
      case h_20 | h_21 | h_22 | h_23 => exact absurd h (decodeRefusedMode_ne_ok _ _ i)
      case h_19 | h_24 => cases h
    all_goals
      rename_i hb
      obtain rfl := byte_of_toNat hb
      cases h
      exact ⟨bs, rfl⟩

/-! ## What decodes is an instruction of the table -/

/-- The encoder gives a term of a size its instruction does not have the bytes of another size, so such bytes decode to
another instruction (R95). -/
theorem wellFormed_of_decode {bs : List Byte} {i : Instr} (h : decode bs = .ok i) : i.wellFormed = true := by
  obtain ⟨rest, rfl⟩ := decodeThenEncode bs i h
  cases hwf : i.wellFormed with
  | true => rfl
  | false =>
    have hother : decode (encode i ++ rest) ≠ .ok i := by
      cases i with
      | pushShort sz R | popShort sz R =>
        cases sz with
        | b8 => induction R using regCode_eight <;> exact nofun
        | w16 | l32 => exact nomatch hwf
      | exRr sz R r =>
        cases sz with
        | l32 =>
          rw [encode, List.append_assoc, decode_encodePrefix]
          induction R using regCode_eight <;> exact nofun
        | b8 | w16 => exact nomatch hwf
      | _ => exact nomatch hwf
    exact absurd h hother

/-- Settles O3: the bytes begin with the encoding (O2), which is as long as the instruction. -/
theorem decodedIsWhole : Obligations.DecodedIsWhole := by
  intro bs i h
  obtain ⟨hlen, hpos, hmax⟩ := encode_length i
  have hle : i.length ≤ bs.length := hlen ▸ (decodeThenEncode bs i h).length_le
  exact ⟨wellFormed_of_decode h, hpos, hmax, hle⟩

/-! ## The reserved field values (R95, 92 D12) -/

/-- A byte is its high five bits, as a number, and its low three. -/
theorem eq_opByte_of_div {b : Byte} {k : Nat} (h : b.toNat / 8 = k) :
    ∃ R : RegCode, b = opByte (BitVec.ofNat 5 k) R :=
  ⟨b.setWidth 3, (opByte_of_div b k h).symm⟩

/-- A register's leading byte with zz = 11. -/
theorem decode_reservedSize {b : Byte} (hb : 0xF7 ≤ b.toNat) (bs : List Byte) :
    decode (b :: bs) = .error (.reservedSize b) := by
  have hlt : b.toNat < 256 := b.isLt
  by_cases h : b.toNat = 0xF7
  · obtain rfl := byte_of_toNat h
    rfl
  · obtain ⟨R, rfl⟩ := eq_opByte_of_div (b := b) (k := 0x1F) (by omega)
    induction R using regCode_eight <;> rfl

/-- A register code that names nothing. -/
theorem decode_noSuchRegister {b c : Byte} (hb : b = 0xC7#8 ∨ b = 0xD7#8 ∨ b = 0xE7#8) (hlo : 0x40 ≤ c.toNat)
    (hhi : c.toNat ≤ 0xCF) (bs : List Byte) : decode (b :: c :: bs) = .error (.noSuchRegister c) := by
  have hlong : ∀ sz, decodeLong sz (c :: bs) = .error (.noSuchRegister c) := fun sz => by
    rw [decodeLong, LongReg.ofCode_eq_none hlo hhi]
  rcases hb with rfl | rfl | rfl <;> exact hlong _

/-- DAA has no form at 16 and 32 bits, EX R,r none at 32 bits. -/
theorem decode_daa_wide {sz : Size} (hsz : sz ≠ .b8) (r : RegOp) (bs : List Byte) :
    decode (encodePrefix sz r ++ 0x10#8 :: bs) = .error (.sizeNotAdmitted 0x10#8 sz) := by
  rw [decode_encodePrefix]
  exact if_neg hsz

theorem decode_exRr_long {op : Byte} (hlo : 0xB8 ≤ op.toNat) (hhi : op.toNat ≤ 0xBF) (r : RegOp) (bs : List Byte) :
    decode (encodePrefix .l32 r ++ op :: bs) = .error (.sizeNotAdmitted op .l32) := by
  obtain ⟨R, rfl⟩ := eq_opByte_of_div (b := op) (k := 0x17) (by omega)
  rw [decode_encodePrefix]
  induction R using regCode_eight <;> rfl

theorem decodeImm3_of_lt (mk : BitVec 3 → Instr) {n : Byte} (hn : n.toNat < 8) (bs : List Byte) :
    decodeImm3 mk (n :: bs) = .ok (mk (n.setWidth 3)) := if_pos ((highBits_eq_zero_iff n).mpr hn)

theorem decodeImm3_of_ge (mk : BitVec 3 → Instr) {n : Byte} (hn : 8 ≤ n.toNat) (bs : List Byte) :
    decodeImm3 mk (n :: bs) = .error (.reservedBits n) :=
  if_neg fun h => absurd ((highBits_eq_zero_iff n).mp h) (by omega)

/-- Settles O4: each reserved value at the stage of the decoder that meets it; a term without bytes by its meaning. -/
theorem reservedFormsRefused : Obligations.ReservedFormsRefused :=
  ⟨fun _ bs hb => decode_reservedSize hb bs, fun _ _ bs hb hlo hhi => decode_noSuchRegister hb hlo hhi bs,
    fun r bs => decode_daa_wide (by decide) r bs, fun r bs => decode_daa_wide (by decide) r bs,
    fun r _ bs hlo hhi => decode_exRr_long hlo hhi r bs,
    fun _ bs hn => ⟨decodeImm3_of_ge _ hn bs, decodeImm3_of_ge _ hn bs⟩,
    fun _ bs hn => ⟨decodeImm3_of_lt _ hn bs, decodeImm3_of_lt _ hn bs⟩,
    fun _ _ => ⟨rfl, rfl⟩, fun _ _ _ => rfl⟩

/-- Settles O5: each word is evaluated. -/
theorem printedWordsDecode : Obligations.PrintedWordsDecode :=
  ⟨rfl, rfl, rfl, rfl, rfl, rfl, rfl, rfl, rfl, rfl, rfl⟩

end Sys2Proof
end

section
/-! What an instruction can do to memory, SR and the control registers, said once for all of them (10_state.md R34 to
R38, R51, 20_memory.md R62), and what follows for every step. -/

namespace Sys2Proof.Machine

/-- What an instruction does to memory and the record of stored bytes: nothing, or one store. -/
inductive MemEffect (i : Instr) (s t : State) : Prop where
  | same (hmem : t.mem = s.mem) (hstored : t.stored = s.stored)
  | store (hi : i.stores = true) (sz : Size) (ea v : Word) (hst : s.storable sz ea = true)
      (hmem : t.mem = (s.storeBytes sz.bytes ea v).mem) (hstored : t.stored = (s.storeBytes sz.bytes ea v).stored)

/-- What an instruction does to SR: nothing, a write of one field, or a load of a whole image. -/
inductive SrEffect (i : Instr) (s t : State) : Prop where
  | same (h : t.sr = s.sr)
  | f (hi : i.writesF = true) (f : Byte) (h : t.sr = (s.setF f).sr)
  | iff (hi : i.writesIff = true) (level : BitVec 3) (h : t.sr = (s.setIff level).sr)
  | bank (hi : i.writesRfp = true) (bank : BitVec 2) (h : t.sr = (s.setBank bank).sr)
  | image (hf : i.writesF = true) (hiff : i.writesIff = true) (hrfp : i.writesRfp = true) (image : Half)
      (h : t.sr = srLoaded image)

/-- What an instruction does to the control registers: nothing, LDC's write of one, or RETI's write of INTNEST. -/
inductive CrEffect (i : Instr) (s t : State) : Prop where
  | same (h : t.cr = s.cr)
  | ldc (sz : Size) (r : RegOp) (n : Byte) (hi : i = .ldcCrR sz r n) (c : CtrlReg) (v : Word)
      (h : t.cr = (s.setCr c v).cr)
  | reti (hi : i = .reti) (v : Half) (h : t.cr = (s.setIntnest v).cr)

/-- What an instruction does to the state but for the registers, PC, F' and the bits drawn. -/
structure Effect (i : Instr) (s t : State) : Prop where
  mem : MemEffect i s t
  sr : SrEffect i s t
  cr : CrEffect i s t

section
variable {i : Instr} {s : State}

/-- A register part written. -/
theorem Effect.writePart (p : Part) (v : Word) (n : Nat) : Effect i s ((s.writePart p v).advance n) :=
  ⟨.same (by simp) (by simp), .same (by simp), .same (by simp)⟩

/-- A register part and the flags written. -/
theorem Effect.writePart_setFlags (hi : i.writesF = true) (p : Part) (v : Word) (fl : Flags) (n : Nat) :
    Effect i s (((s.writePart p v).setFlags fl).advance n) :=
  have hsr : (((s.writePart p v).setFlags fl).advance n).sr = (s.setF (fl.pack s.drawn.b5 s.drawn.b3)).sr := by
    simp [State.setFlags, State.setF, State.drawn]
  ⟨.same (by simp) (by simp), .f hi _ hsr, .same (by simp)⟩

/-- A push, whatever PC then is. -/
theorem Effect.push (hi : i.stores = true) {sz : Size} {v : Word} {s1 : State} (h : push sz v s = .next s1)
    (pc : Word) : Effect i s { s1 with pc := pc } := by
  obtain ⟨hst, rfl⟩ := (push_eq_next ..).mp h
  exact ⟨.store hi sz _ v hst rfl rfl, .same rfl, .same rfl⟩

theorem Effect.pushPart (hi : i.stores = true) {p : Part} {n : Nat} {t : State} (h : pushPart p n s = .next t) :
    Effect i s t := by
  obtain ⟨s1, hpush, ⟨⟩⟩ := Res.andThen_eq_next.mp h
  exact Effect.push hi hpush _

theorem Effect.callTo (hi : i.stores = true) {target : Word} {n : Nat} {t : State} (h : callTo target n s = .next t) :
    Effect i s t := by
  obtain ⟨s1, hpush, ⟨⟩⟩ := Res.andThen_eq_next.mp h
  exact Effect.push hi hpush _

theorem Effect.popPart {p : Part} {n : Nat} {t : State} (h : popPart p n s = .next t) : Effect i s t := by
  obtain ⟨out, hpop, ⟨⟩⟩ := Res.andThen_eq_next.mp h
  obtain ⟨-, rfl⟩ := (pop_eq_next ..).mp hpop
  exact ⟨.same (by simp) (by simp), .same (by simp), .same (by simp)⟩

/-- ADD and SUB to memory. -/
theorem Effect.aluToMem (hst : i.stores = true) (hf : i.writesF = true) {op : AluOp} {sz : Size} {ea b : Word} {n : Nat}
    {t : State} (h : ((aluToMem op sz ea b s).andThen fun s1 => .next (s1.advance n)) = .next t) : Effect i s t := by
  obtain ⟨s1, halu, ⟨⟩⟩ := Res.andThen_eq_next.mp h
  obtain ⟨hs, rfl⟩ := (aluToMem_eq_next ..).mp halu
  exact ⟨.store hst sz ea _ hs rfl rfl, .f hf _ rfl, .same rfl⟩

end

/-- Everything an instruction that completes does to memory, SR and the control registers. -/
theorem exec_effect {i : Instr} {s t : State} (h : exec i s = .next t) : Effect i s t := by
  cases i with
  | ldRr | ldrR | ldRn8 | ldRn16 | ldRn32 | ldrn | ldr3 =>
    obtain rfl := Host.Outcome.next.inj h
    exact Effect.writePart ..
  | ldRm =>
    obtain ⟨v, -, ⟨⟩⟩ := Res.andThen_eq_next.mp h
    exact Effect.writePart ..
  | addRr | subRr | addrn | subrn | daa =>
    obtain rfl := Host.Outcome.next.inj h
    exact Effect.writePart_setFlags rfl ..
  | addRm | subRm =>
    obtain ⟨v, -, ⟨⟩⟩ := Res.andThen_eq_next.mp h
    exact Effect.writePart_setFlags rfl ..
  | addmR | submR => exact Effect.aluToMem rfl rfl h
  | ldmR =>
    obtain ⟨s1, hwrite, ⟨⟩⟩ := Res.andThen_eq_next.mp h
    obtain ⟨hst, rfl⟩ := (memWrite_eq_next ..).mp hwrite
    exact ⟨.store rfl _ _ _ hst rfl rfl, .same rfl, .same rfl⟩
  | ldf | incf | decf =>
    obtain rfl := Host.Outcome.next.inj h
    exact ⟨.same rfl rfl, .bank rfl _ rfl, .same rfl⟩
  | ei =>
    obtain rfl := Host.Outcome.next.inj h
    exact ⟨.same rfl rfl, .iff rfl _ rfl, .same rfl⟩
  | exFF =>
    obtain rfl := Host.Outcome.next.inj h
    exact ⟨.same rfl rfl, .f rfl _ rfl, .same rfl⟩
  | exRr =>
    rw [exec, execExRr] at h
    split at h
    · cases h
    · cases h
      exact ⟨.same (by simp) (by simp), .same (by simp), .same (by simp)⟩
  | reti =>
    obtain ⟨-, -, -, rfl⟩ := (returnFromInterrupt_eq_next s t).mp h
    exact ⟨.same rfl rfl, .image rfl rfl rfl _ rfl, .reti rfl _ rfl⟩
  | call16 | call24 => exact Effect.callTo rfl h
  | ret =>
    obtain ⟨out, hpop, ⟨⟩⟩ := Res.andThen_eq_next.mp h
    obtain ⟨-, rfl⟩ := (pop_eq_next ..).mp hpop
    exact ⟨.same rfl rfl, .same rfl, .same rfl⟩
  | ldcCrR sz r n =>
    rw [exec, execLdcCrR] at h
    split at h
    · cases h
      exact ⟨.same (by simp) (by simp), .same (by simp), .ldc sz r n rfl _ _ rfl⟩
    · cases h
  | ldcRCr =>
    rw [exec, execLdcRCr] at h
    split at h
    · cases h
      exact Effect.writePart ..
    · cases h
  | pushA | pushReg => exact Effect.pushPart rfl h
  | popA | popReg => exact Effect.popPart h
  | pushShort =>
    rw [exec, execPushShort] at h
    split at h
    · cases h
    · exact Effect.pushPart rfl h
  | popShort =>
    rw [exec, execPopShort] at h
    split at h
    · cases h
    · exact Effect.popPart h
  | pushF | pushSr =>
    obtain ⟨s1, hpush, ⟨⟩⟩ := Res.andThen_eq_next.mp h
    exact Effect.push rfl hpush _
  | popF =>
    obtain ⟨out, hpop, ⟨⟩⟩ := Res.andThen_eq_next.mp h
    obtain ⟨-, rfl⟩ := (pop_eq_next ..).mp hpop
    exact ⟨.same rfl rfl, .f rfl _ rfl, .same rfl⟩
  | popSr =>
    obtain ⟨out, hpop, h⟩ := Res.andThen_eq_next.mp h
    obtain ⟨-, rfl⟩ := (pop_eq_next ..).mp hpop
    obtain ⟨s1, hload, ⟨⟩⟩ := Res.andThen_eq_next.mp h
    obtain ⟨-, rfl⟩ := (loadSr_eq_next ..).mp hload
    exact ⟨.same rfl rfl, .image rfl rfl rfl _ rfl, .same rfl⟩

/-! ## Which instructions write what -/

theorem of_true_of_false {b : Bool} {P : Prop} (htrue : b = true) (hfalse : b = false) : P :=
  nomatch htrue.symm.trans hfalse

/-- Settles O58: an instruction that does not store has no other effect on memory. -/
theorem onlyStoringInstructionsWriteMemory : Obligations.OnlyStoringInstructionsWriteMemory := by
  intro i s t hi h
  cases (exec_effect h).mem with
  | same hmem hstored => exact ⟨hmem, hstored⟩
  | store hstores => exact of_true_of_false hstores hi

/-- Settles O57: RETI's write is of INTNEST alone. -/
theorem controlRegisterWriters : Obligations.ControlRegisterWriters := by
  intro i s t h
  cases (exec_effect h).cr with
  | same hcr => exact ⟨fun _ _ => hcr, fun _ => by rw [hcr]⟩
  | ldc sz r n hi => exact ⟨fun hldc _ => absurd hi (hldc sz r n), fun hreti => (nomatch hi.symm.trans hreti)⟩
  | reti hi v hcr => exact ⟨fun _ hreti => absurd hi hreti, fun _ => by rw [hcr]; rfl⟩

/-- The fields of SR are SR's alone. -/
theorem State.fields_congr {s t : State} (h : t.sr = s.sr) : t.rfp = s.rfp ∧ t.iff = s.iff ∧ t.f = s.f := by
  rw [State.rfp, State.iff, State.f, h]
  exact ⟨rfl, rfl, rfl⟩

/-- Settles O56: a write of one field of SR leaves the others. -/
theorem srFieldWriters : Obligations.SrFieldWriters := by
  intro i s t h
  cases (exec_effect h).sr with
  | same hsr =>
    obtain ⟨hrfp, hiff, hf⟩ := State.fields_congr hsr
    exact ⟨fun _ => hrfp, fun _ => hiff, fun _ => hf⟩
  | f hi f hsr =>
    obtain ⟨hrfp, hiff, -⟩ := State.fields_congr hsr
    exact ⟨fun _ => hrfp.trans (s.setF_rfp f), fun _ => hiff.trans (s.setF_iff f), of_true_of_false hi⟩
  | iff hi l hsr =>
    obtain ⟨hrfp, -, hf⟩ := State.fields_congr hsr
    exact ⟨fun _ => hrfp.trans (s.setIff_rfp l), of_true_of_false hi, fun _ => hf.trans (s.setIff_f l)⟩
  | bank hi b hsr =>
    obtain ⟨-, hiff, hf⟩ := State.fields_congr hsr
    exact ⟨of_true_of_false hi, fun _ => hiff.trans (s.setBank_iff b), fun _ => hf.trans (s.setBank_f b)⟩
  | image hf hiff hrfp => exact ⟨of_true_of_false hrfp, of_true_of_false hiff, of_true_of_false hf⟩

/-! ## The invariant -/

theorem SrEffect.legal {i : Instr} {s t : State} (h : SrEffect i s t) (hs : SrLegal s.sr) : SrLegal t.sr := by
  cases h with
  | same h => rw [h]; exact hs
  | f _ f h => rw [h]; exact s.setF_legal f hs
  | iff _ l h => rw [h]; exact s.setIff_legal l hs
  | bank _ b h => rw [h]; exact s.setBank_legal b hs
  | image _ _ _ image h => rw [h]; exact srLoaded_legal image

/-- No write changes how many micro DMA channels there are. -/
theorem CrEffect.dma_length {i : Instr} {s t : State} (h : CrEffect i s t) : t.cr.dma.length = s.cr.dma.length := by
  cases h with
  | same h => rw [h]
  | ldc _ _ _ _ c v h =>
    rw [h]
    cases c <;> simp [State.setCr, State.setDma]
  | reti _ v h => rw [h]; rfl

theorem MemEffect.memInv {i : Instr} {s t : State} (h : MemEffect i s t) (hproduct : t.product = s.product)
    (hs : s.MemInv) : t.MemInv := by
  cases h with
  | same hmem => rw [State.MemInv, hproduct, hmem]; exact hs
  | store _ sz ea v _ hmem => rw [State.MemInv, hproduct, hmem]; exact State.MemInv.storeBytes hs sz.bytes ea v

theorem MemEffect.stored_wf {i : Instr} {s t : State} (h : MemEffect i s t) (hs : AddrSet.wf s.stored) :
    AddrSet.wf t.stored := by
  cases h with
  | same _ hstored => rw [hstored]; exact hs
  | store _ sz ea v _ _ hstored => rw [hstored]; exact AddrSet.wf_insertRange _ _ _ _ hs

/-- An instruction that completes keeps the invariant. -/
theorem exec_keepsInv {i : Instr} {s t : State} (hs : s.Inv) (h : exec i s = .next t) : t.Inv := by
  obtain ⟨hlegal, hmeminv, hstored, hcrinv⟩ := hs
  obtain ⟨hmem, hsr, hcr⟩ := exec_effect h
  obtain ⟨hproduct, -⟩ := exec_keepsProductAndEnv i s t h
  refine ⟨hsr.legal hlegal, hmem.memInv hproduct hmeminv, hmem.stored_wf hstored, ?_⟩
  rw [State.CrInv, hcr.dma_length, hproduct]
  exact hcrinv

/-- An interrupt entry keeps the invariant: it pushes twice and writes IFF and INTNEST. -/
theorem takeInterrupt_keepsInv {r : Request} {s t : State} (hs : s.Inv) (h : takeInterrupt r s = .next t) : t.Inv := by
  obtain ⟨-, -, -, rfl⟩ := (takeInterrupt_eq_next r s t).mp h
  have hentered : s.entered.Inv := (hs.pushed .l32 s.pc).pushed .w16 _
  exact hentered.withLegalSr (State.setIff_legal s.entered _ hentered.1) rfl rfl rfl rfl

/-- SR after reset has its fixed bits as they must be (10_state.md R56). -/
theorem State.reset_legal : SrLegal State.reset.sr := by decide

theorem resetAction_keepsInv {s t : State} (hs : s.Inv) (h : resetAction s = .next t) : t.Inv := by
  obtain ⟨-, hmeminv, hstored, -⟩ := hs
  obtain ⟨-, rfl⟩ := (resetAction_eq_next s t).mp h
  exact ⟨State.reset_legal, hmeminv, hstored, List.length_replicate⟩

/-- Settles O53: by the kinds of step. -/
theorem stepKeepsInvariant : Obligations.StepKeepsInvariant := by
  intro s t hs h
  have hdrop : s.dropEvent.Inv := hs
  rcases (step_eq_next s t).mp h with ⟨_, _, hreset⟩ | ⟨_, _, r, _, _, hentry⟩ | ⟨_, hrun⟩
  · exact resetAction_keepsInv hdrop hreset
  · exact takeInterrupt_keepsInv hdrop hentry
  · obtain ⟨i, _, hexec⟩ := (runInstr_eq_next _ t).mp hrun
    exact exec_keepsInv hdrop hexec

/-- Settles O54: reset leaves memory and the set of stored addresses empty. -/
theorem resetMeetsInvariant : Obligations.ResetMeetsInvariant :=
  ⟨State.reset_legal, ⟨by decide, ⟨.nil, by simp [State.reset]⟩, by simp [State.reset]⟩, .nil, rfl⟩

/-! ## Memory outside RAM (20_memory.md R66, 92 D4) -/

/-- Each byte of an access that can be stored to is RAM. -/
theorem State.kindAt_of_mapped_store {s : State} (n : Nat) : ∀ {ea : Word}, s.mapped .store n ea = true →
    ∀ k < n, s.product.kindAt (s.addr (ea + BitVec.ofNat 32 k)) = some .ram := by
  induction n with
  | zero => exact fun _ _ hk => absurd hk (Nat.not_lt_zero _)
  | succ n ih =>
    intro ea h
    rw [State.mapped, Bool.and_eq_true] at h
    obtain ⟨hfirst, hrest⟩ := h
    refine (forall_lt_succ_addr (P := fun x => s.product.kindAt (s.addr x) = some .ram) n ea).mpr ⟨?_, ih hrest⟩
    revert hfirst
    split
    case h_1 hram => exact fun _ => hram
    case h_2 => exact nofun
    case h_3 => exact nofun

/-- A store where memory can be stored to leaves what is not RAM. -/
theorem State.read_storeBytes_of_not_ram {s : State} (hs : s.MemInv) {sz : Size} {ea : Word} (v : Word)
    (hst : s.storable sz ea = true) {a : Addr} (ha : s.product.kindAt a ≠ some .ram) :
    (s.storeBytes sz.bytes ea v).mem.read a = s.mem.read a := by
  refine KeepsMemoryExcept.storeBytes s hs sz ea v a ?_
  rintro ⟨k, hk, rfl⟩
  exact ha (State.kindAt_of_mapped_store _ hst k hk)

theorem State.read_pushed_of_not_ram {s : State} (hs : s.MemInv) {sz : Size} (v : Word)
    (hst : s.storable sz (s.xsp - BitVec.ofNat 32 sz.bytes) = true) {a : Addr} (ha : s.product.kindAt a ≠ some .ram) :
    (s.pushed sz v).mem.read a = s.mem.read a :=
  State.read_storeBytes_of_not_ram (s := { s with xsp := s.xsp - BitVec.ofNat 32 sz.bytes }) hs v
    ((State.storable_congr s { s with xsp := s.xsp - BitVec.ofNat 32 sz.bytes } rfl sz _).trans hst) ha

theorem exec_read_of_not_ram {i : Instr} {s t : State} (hs : s.MemInv) (h : exec i s = .next t) {a : Addr}
    (ha : s.product.kindAt a ≠ some .ram) : t.mem.read a = s.mem.read a := by
  cases (exec_effect h).mem with
  | same hmem => rw [hmem]
  | store _ sz ea v hst hmem => rw [hmem]; exact State.read_storeBytes_of_not_ram hs v hst ha

theorem takeInterrupt_read_of_not_ram {r : Request} {s t : State} (hs : s.MemInv) (h : takeInterrupt r s = .next t)
    {a : Addr} (ha : s.product.kindAt a ≠ some .ram) : t.mem.read a = s.mem.read a := by
  obtain ⟨hpc, hsr, -, rfl⟩ := (takeInterrupt_eq_next r s t).mp h
  have hsecond : (s.pushed .l32 s.pc).storable .w16
      ((s.pushed .l32 s.pc).xsp - BitVec.ofNat 32 Size.w16.bytes) = true := by
    rw [State.pushed_storable, State.pushed_xsp, BitVec.sub_sub]
    exact hsr
  calc s.entered.mem.read a
      = (s.pushed .l32 s.pc).mem.read a := State.read_pushed_of_not_ram (hs.pushed .l32 s.pc) _ hsecond ha
    _ = s.mem.read a := State.read_pushed_of_not_ram hs _ hpc ha

/-- Settles O59: an instruction stores where memory can be stored to, an entry pushes there, a reset keeps memory. -/
theorem onlyRamChanges : Obligations.OnlyRamChanges := by
  intro s t a hs h ha
  have hdrop : s.dropEvent.MemInv := hs
  rcases (step_eq_next s t).mp h with ⟨_, _, hreset⟩ | ⟨_, _, r, _, _, hentry⟩ | ⟨_, hrun⟩
  · obtain ⟨-, rfl⟩ := (resetAction_eq_next _ t).mp hreset
    rfl
  · exact takeInterrupt_read_of_not_ram hdrop hentry ha
  · obtain ⟨i, _, hexec⟩ := (runInstr_eq_next _ t).mp hrun
    exact exec_read_of_not_ram hdrop hexec ha

end Sys2Proof.Machine
end

section
/-! Memory accesses: stores and loads, where they stop, vectors and effective addresses (20_memory.md R61 to R69,
30_encoding.md R85). -/

namespace Sys2Proof.Machine

/-- Settles O10: a store writes the bytes of its access alone, and a load of them gives the value. -/
theorem loadAfterStore : Obligations.LoadAfterStore := by
  intro s sz ea v hs hst
  have hread : (s.storeBytes sz.bytes ea v).readable sz ea = true :=
    (State.readable_congr s (s.storeBytes sz.bytes ea v) rfl sz ea).trans (State.readable_of_storable hst)
  refine ⟨_, memWrite_of_storable hst, ?_, KeepsMemoryExcept.storeBytes s hs sz ea v, s.storeBytes_getReg _ ea v,
    rfl, rfl, rfl, rfl, rfl, rfl⟩
  rw [memRead_of_readable hread, State.valueAt_storeBytes_self s hs]

/-! ## Where an access stops (R65, R66, 92 D4) -/

section
variable {s : State} {a : Addr}

theorem access_of_unmapped (k : Access) (h : s.product.kindAt a = none) : access k a s = .fault (.unmapped a) := by
  rw [access, h]

theorem access_of_io (k : Access) (h : s.product.kindAt a = some .io) : access k a s = .refused (.ioAccess a) := by
  rw [access, h]

theorem access_store_of_rom (h : s.product.kindAt a = some .rom) : access .store a s = .fault (.romStore a) := by
  rw [access, h]
  rfl

end

section
variable {s : State} {sz : Size} {ea : Word} {k : Nat}

/-- A read stops as the access to its first byte that can not be touched does. -/
theorem memRead_of_stop (hk : k < sz.bytes) (hm : s.mapped .read k ea = true)
    (hstop : access .read (s.addr (ea + BitVec.ofNat 32 k)) s ≠ .next ()) :
    memRead sz ea s = (access .read (s.addr (ea + BitVec.ofNat 32 k)) s).andThen fun _ => .next (s.valueAt sz ea) := by
  rw [memRead, accessRange_stop .read _ k hk ea s hm hstop]
  rfl

theorem memWrite_of_stop (hk : k < sz.bytes) (hm : s.mapped .store k ea = true) (v : Word)
    (hstop : access .store (s.addr (ea + BitVec.ofNat 32 k)) s ≠ .next ()) :
    memWrite sz ea v s =
      (access .store (s.addr (ea + BitVec.ofNat 32 k)) s).andThen fun _ => .next (s.storeBytes sz.bytes ea v) := by
  rw [memWrite, accessRange_stop .store _ k hk ea s hm hstop]

/-- A fetch that needs the first byte that can not be fetched stops as the access to that byte does (log 27). -/
theorem fetch_of_stop (hk : k < maxLength) (hm : s.mapped .fetch k s.pc = true)
    (hdec : decode (s.fetchBytes k s.pc) = .error .truncated)
    (hstop : access .fetch (s.addr (s.pc + BitVec.ofNat 32 k)) s ≠ .next ()) :
    fetch s = (access .fetch (s.addr (s.pc + BitVec.ofNat 32 k)) s).andThen fun _ =>
      .refused (.undecodable (s.addr s.pc) .truncated) := by
  obtain ⟨hbytes, hlen⟩ := s.fetchBytes_stop maxLength k hk s.pc hm hstop
  simp only [fetch, hbytes, hdec, hlen]

end

/-- With nothing from the environment a step runs the instruction at PC. -/
theorem step_of_no_event {s : State} (h : s.env = []) : step s = runInstr s := by
  rw [step, h]

/-- Settles O14: each access stops as the access to the byte that can not be touched does. -/
theorem accessStops : Obligations.AccessStops := by
  refine ⟨fun s sz ea k hk hm => ⟨fun hkind => ?_, fun hkind => ?_⟩,
    fun s sz ea v k hk hm => ⟨fun hkind => ?_, fun hkind => ?_, fun hkind => ?_⟩,
    fun s k henv hk hm hdec => ⟨fun hkind => ?_, fun hkind => ?_⟩⟩
  · have ha := access_of_unmapped .read hkind
    rw [memRead_of_stop hk hm (by rw [ha]; exact nofun), ha]
    rfl
  · have ha := access_of_io .read hkind
    rw [memRead_of_stop hk hm (by rw [ha]; exact nofun), ha]
    rfl
  · have ha := access_of_unmapped .store hkind
    rw [memWrite_of_stop hk hm v (by rw [ha]; exact nofun), ha]
    rfl
  · have ha := access_of_io .store hkind
    rw [memWrite_of_stop hk hm v (by rw [ha]; exact nofun), ha]
    rfl
  · have ha := access_store_of_rom hkind
    rw [memWrite_of_stop hk hm v (by rw [ha]; exact nofun), ha]
    rfl
  · have ha := access_of_unmapped .fetch hkind
    rw [step_of_no_event henv, runInstr, fetch_of_stop hk hm hdec (by rw [ha]; exact nofun), ha]
    rfl
  · have ha := access_of_io .fetch hkind
    rw [step_of_no_event henv, runInstr, fetch_of_stop hk hm hdec (by rw [ha]; exact nofun), ha]
    rfl

/-! ## Vectors and effective addresses -/

/-- Settles O13: a vector is a load of three bytes. -/
theorem vectorIsThreeBytes : Obligations.VectorIsThreeBytes := by
  intro m bits slot hbits
  have hload : BitVec.ofNat 24 (m.load bits 3 (slot + 0#32)) = m.read ((slot.toNat + 2) % 2 ^ bits) ++
      m.read ((slot.toNat + 1) % 2 ^ bits) ++ m.read ((slot.toNat + 0) % 2 ^ bits) := by
    rw [← Memory.ofNat_load_one m hbits, ← Memory.ofNat_load_succ m hbits 8, ← Memory.ofNat_load_succ m hbits 16]
  rw [BitVec.add_zero] at hload
  rw [Memory.vector, ← Memory.setWidth_ofNat_load m bits 3 24 slot (by decide), hload]
  rfl

/-- A sign-extended displacement added to an address, as signed numbers (R85). -/
theorem toInt_add_signExtend {w : Nat} (hw : w ≤ 32) (x : Word) (d : BitVec w) :
    (x + d.signExtend 32).toInt = (x.toInt + d.toInt).bmod (2 ^ 32) := by
  rw [BitVec.toInt_add, BitVec.toInt_signExtend_of_le hw]

/-- A 32-bit operand reads back as written. -/
theorem State.readPart_writePart_opPart_long (s : State) (r : RegOp) (v : Word) :
    (s.writePart (s.opPart .l32 r) v).readPart (s.opPart .l32 r) = v := by
  rw [State.readPart_writePart_self s _ v (s.opPart_inside .l32 r), State.opPart_size]
  exact Size.and_mask_of_lt .l32 v v.isLt

/-- Settles O12: each mode by its case of `MemMode.ea`; signed sums by `toInt_add_signExtend`. -/
theorem effectiveAddresses : Obligations.EffectiveAddresses := by
  refine ⟨fun _ _ _ => rfl, fun c k next s => ?_, fun R d next s => ?_,
    fun _ d _ _ => toInt_add_signExtend (by decide) _ d,
    fun _ _ _ _ => ⟨toInt_add_signExtend (by decide) _ _, toInt_add_signExtend (by decide) _ _⟩,
    fun n _ _ => BitVec.toNat_setWidth_of_le (by decide), fun n _ _ => BitVec.toNat_setWidth_of_le (by decide),
    fun n _ _ => BitVec.toNat_setWidth_of_le (by decide), fun d _ _ => toInt_add_signExtend (by decide) _ d,
    fun d _ _ => toInt_add_signExtend (by decide) _ d⟩
  · have hread := s.readPart_writePart_opPart_long (.long c)
    exact ⟨hread _, (hread _).symm, rfl, hread _⟩
  · rw [← State.readPart_long]
    exact toInt_add_signExtend (by decide) _ d

end Sys2Proof.Machine
end

section
/-! Bank switching, exchange, the mask, ADD, SUB, LD and LDC: each instruction by the shared operation it is
(40_bank_switch.md, 41_interrupt_control.md, 42_arithmetic.md, 43_load.md). -/

namespace Sys2Proof.Machine

/-- PC moved by the length of the instruction is PC past its bytes. -/
theorem PastInstr.of_pc {i : Instr} {s t : State} (h : t.pc = s.pc + BitVec.ofNat 32 i.length) : PastInstr i s t := by
  rw [PastInstr, (encode_length i).1, h]

/-! ## Writes of a field of SR -/

section
variable (s : State)

theorem OnlySrBits.setBank (b : BitVec 2) (n : Nat) : OnlySrBits 8 10 s ((s.setBank b).advance n) :=
  ⟨KeepsRegsExcept.of_getReg fun h => by simp, KeepsSrBut.setBank s b, fun _ => rfl, rfl, rfl, rfl, rfl⟩

theorem OnlySrBits.setIff (l : BitVec 3) (n : Nat) : OnlySrBits 12 14 s ((s.setIff l).advance n) :=
  ⟨KeepsRegsExcept.of_getReg fun h => by simp, KeepsSrBut.setIff s l, fun _ => rfl, rfl, rfl, rfl, rfl⟩

/-- A write of the bank is a write of RFP with RFP2 at 0 (10_state.md R38). -/
theorem State.setBank_rfp_toNat (b : BitVec 2) (n : Nat) : ((s.setBank b).advance n).rfp.toNat = b.toNat := by
  rw [show ((s.setBank b).advance n).rfp = (s.setBank b).rfp from rfl, State.setBank_rfp]
  exact BitVec.toNat_setWidth_of_le (by decide)

theorem State.setBank_advance_curBank (b : BitVec 2) (n : Nat) : ((s.setBank b).advance n).curBank = b :=
  s.setBank_curBank b

end

/-- Settles O15: two bits of n, of four values. -/
theorem ldfSelectsBank : Obligations.LdfSelectsBank := by
  intro n s
  refine ⟨_, rfl, ?_, OnlySrBits.setBank .., PastInstr.of_pc rfl⟩
  rw [State.setBank_rfp_toNat]
  exact BitVec.toNat_setWidth ..

/-- Settles O16: counting up and down in two bits. -/
theorem incfDecfRotate : Obligations.IncfDecfRotate := by
  refine ⟨fun s => ⟨_, rfl, ?_, ?_, OnlySrBits.setBank .., PastInstr.of_pc rfl⟩,
    fun s => ⟨_, rfl, ?_, ?_, OnlySrBits.setBank .., PastInstr.of_pc rfl⟩⟩
  · rw [State.setBank_rfp_toNat]
    exact BitVec.toNat_add ..
  · rw [State.prevBank, State.setBank_advance_curBank]
    exact BitVec.add_sub_cancel ..
  · rw [State.setBank_rfp_toNat]
    exact s.prevBank_toNat
  · exact State.setBank_advance_curBank ..

/-- Settles O19: EI is the write of IFF. -/
theorem eiSetsMask : Obligations.EiSetsMask := fun n s =>
  ⟨_, rfl, s.setIff_iff n, OnlySrBits.setIff .., PastInstr.of_pc rfl⟩

/-! ## Exchange -/

/-- Settles O17: EX F,F' is a write of F, and F' takes the F before it. -/
theorem exSwapsFlagRegisters : Obligations.ExSwapsFlagRegisters := fun s =>
  ⟨_, rfl, s.setF_f s.fAlt, rfl, KeepsSrBut.setF s s.fAlt, KeepsRegsExcept.of_getReg fun h => by cases h <;> rfl,
    fun _ => rfl, rfl, rfl, rfl, PastInstr.of_pc rfl⟩

/-- Parts of two registers, or of one register with no byte in common. -/
def Part.Disjoint (p q : Part) : Prop :=
  p.home ≠ q.home ∨ p.lane.toNat + p.size.bytes ≤ q.lane.toNat ∨ q.lane.toNat + q.size.bytes ≤ p.lane.toNat

/-- A write to a part leaves the value of a part disjoint from it (10_state.md R21). -/
theorem State.readPart_writePart_of_disjoint (s : State) {p q : Part} (v : Word) (h : p.Disjoint q) :
    (s.writePart q v).readPart p = s.readPart p := by
  by_cases hhome : p.home = q.home
  · have hlanes := h.resolve_left (not_not.mpr hhome)
    apply BitVec.eq_of_getLsbD_eq
    intro i hi
    rw [State.readPart_getLsbD, State.readPart_getLsbD, State.writePart, hhome, State.getReg_setReg_self,
      Part.put_getLsbD]
    by_cases hin : i < p.size.bits
    · have hp := Size.bits_eq p.size
      have hq := Size.bits_eq q.size
      rw [if_neg (by omega)]
    · simp [hin]
  · exact State.readPart_congr p (State.getReg_setReg_ne s _ hhome)

/-- The part starts at a multiple of its size. -/
def Part.Aligned (p : Part) : Prop := p.lane.toNat % p.size.bytes = 0

theorem State.codePart_aligned (s : State) (sz : Size) (R : RegCode) : (s.codePart sz R).Aligned := by
  cases sz with
  | b8 => exact Nat.mod_one _
  | w16 | l32 => rfl

theorem State.opPart_aligned (s : State) (sz : Size) (r : RegOp) : (s.opPart sz r).Aligned := by
  cases r with
  | short R => exact s.codePart_aligned sz R
  | long c =>
    have heven : ∀ l : BitVec 2, (l &&& 2#2).toNat % 2 = 0 := by decide
    cases sz with
    | b8 => exact Nat.mod_one _
    | w16 => exact heven c.lane
    | l32 => rfl

/-- Two aligned parts of one size are the same part or have no byte in common. -/
theorem Part.eq_or_disjoint {p q : Part} (hsize : p.size = q.size) (hp : p.Aligned) (hq : q.Aligned) :
    p = q ∨ p.Disjoint q := by
  obtain ⟨h, l, sz⟩ := p
  obtain ⟨h', l', sz'⟩ := q
  obtain rfl : sz = sz' := hsize
  by_cases hhome : h = h'
  · by_cases hlane : l = l'
    · exact .inl (by rw [hhome, hlane])
    · have hne : l.toNat ≠ l'.toNat := fun e => hlane (BitVec.eq_of_toNat_eq e)
      refine .inr (.inr ?_)
      simp only [Part.Aligned] at hp hq ⊢
      cases sz <;> simp only [Size.bytes] at hp hq ⊢ <;> omega
  · exact .inr (.inl hhome)

/-- Two parts of one size written one after the other, each with what the other held, are exchanged. -/
theorem State.readPart_exchange (s : State) {p q : Part} (hsize : p.size = q.size) (hp : p.Aligned) (hq : q.Aligned)
    (hpi : p.inside) (hqi : q.inside) :
    let t := (s.writePart p (s.readPart q)).writePart q (s.readPart p)
    t.readPart p = s.readPart q ∧ t.readPart q = s.readPart p := by
  intro t
  have hq' : t.readPart q = s.readPart p := by
    rw [State.readPart_writePart_self _ q _ hqi, ← hsize, State.readPart_and_mask]
  refine ⟨?_, hq'⟩
  obtain rfl | hdisjoint := Part.eq_or_disjoint hsize hp hq
  · exact hq'
  · rw [State.readPart_writePart_of_disjoint _ _ hdisjoint, State.readPart_writePart_self _ p _ hpi, hsize,
      State.readPart_and_mask]

theorem KeepsRegsExcept.writePart_writePart (s : State) (p q : Part) (v w : Word) :
    KeepsRegsExcept [p, q] s ((s.writePart p v).writePart q w) := by
  have hp : KeepsRegsExcept [p, q] s (s.writePart p v) := (KeepsRegsExcept.writePart s p v).mono (by simp)
  exact hp.trans ((KeepsRegsExcept.writePart (s.writePart p v) q w).mono (by simp))

/-- Settles O18: the two parts are one part or disjoint, so each holds what the other held. -/
theorem exSwapsRegisters : Obligations.ExSwapsRegisters := by
  intro sz R r s hsz
  obtain ⟨hp, hq⟩ := s.readPart_exchange ((s.codePart_size sz R).trans (s.opPart_size sz r).symm)
    (s.codePart_aligned sz R) (s.opPart_aligned sz r) (s.codePart_inside sz R) (s.opPart_inside sz r)
  refine ⟨_, if_neg hsz, hp, hq, ⟨?_, by simp, fun _ => by simp, by simp, by simp, by simp, by simp⟩,
    PastInstr.of_pc (by simp)⟩
  exact KeepsRegsExcept.trans (KeepsRegsExcept.writePart_writePart s _ _ _ _)
    (KeepsRegsExcept.of_getReg fun h => State.advance_getReg _ _ h)

/-! ## ADD and SUB -/

section
variable (s : State)

theorem State.readPart_codePart_lt (sz : Size) (R : RegCode) : (s.readPart (s.codePart sz R)).toNat < 2 ^ sz.bits := by
  have hlt := s.readPart_lt (s.codePart sz R)
  rwa [s.codePart_size] at hlt

theorem State.readPart_opPart_lt (sz : Size) (r : RegOp) : (s.readPart (s.opPart sz r)).toNat < 2 ^ sz.bits := by
  have hlt := s.readPart_lt (s.opPart sz r)
  rwa [s.opPart_size] at hlt

end

@[simp] theorem aluToPart_pc (op : AluOp) (p : Part) (b : Word) (s : State) : (aluToPart op p b s).pc = s.pc := by
  simp [aluToPart]

/-- Settles O26: `aluToPart` on each form's operands. -/
theorem addToRegister : Obligations.AddToRegister := by
  refine ⟨fun sz R r s => ⟨_, rfl, AddedTo.aluToPart s _ _ _ (s.codePart_inside sz R), PastInstr.of_pc (by simp)⟩,
    fun r n s => ⟨_, rfl, AddedTo.aluToPart s _ _ _ (s.opPart_inside _ r), PastInstr.of_pc (by simp)⟩,
    fun sz R a s hr => ?_⟩
  rw [← State.indirect_eq] at hr ⊢
  exact ⟨_, Res.andThen_eq_next.mpr ⟨_, memRead_of_readable hr, rfl⟩,
    AddedTo.aluToPart s _ _ _ (s.codePart_inside sz R), PastInstr.of_pc (by simp)⟩

/-- Settles O28: the same, and the subtrahend fits the size. -/
theorem subFromRegister : Obligations.SubFromRegister := by
  refine ⟨fun sz R r s => ⟨_, rfl, SubtractedFrom.aluToPart s _ _ _ (s.codePart_inside sz R) ?_,
      PastInstr.of_pc (by simp)⟩,
    fun r n s => ⟨_, rfl, SubtractedFrom.aluToPart s _ _ _ (s.opPart_inside _ r) ?_, PastInstr.of_pc (by simp)⟩,
    fun sz R a s hr => ?_⟩
  · rw [s.codePart_size]
    exact s.readPart_opPart_lt sz r
  · rw [State.opPart_size]
    exact Imm.value_lt n
  · rw [← State.indirect_eq] at hr ⊢
    refine ⟨_, Res.andThen_eq_next.mpr ⟨_, memRead_of_readable hr, rfl⟩,
      SubtractedFrom.aluToPart s _ _ _ (s.codePart_inside sz R) ?_, PastInstr.of_pc (by simp)⟩
    rw [State.codePart_size]
    exact s.valueAt_lt sz _

/-- ADD or SUB to memory completes where memory can be stored to; it writes the bytes there, F and PC (R123, R124). -/
theorem aluToMem_spec (op : AluOp) {s : State} (hs : s.MemInv) {sz : Size} {ea : Word} (hst : s.storable sz ea = true)
    (b : Word) (n : Nat) :
    let out := op.run sz (s.valueAt sz ea) b s.drawn.h
    ∃ t, ((aluToMem op sz ea b s).andThen fun s1 => .next (s1.advance n)) = .next t ∧
      t.valueAt sz ea = out.1 ∧ t.flags = out.2 ∧ OnlyFAndStore sz ea s t ∧ t.pc = s.pc + BitVec.ofNat 32 n := by
  intro out
  have hfits : out.1 &&& sz.mask = out.1 := Size.and_mask_of_lt sz _ (AluOp.run_lt ..)
  refine ⟨_, Res.andThen_eq_next.mpr ⟨_, (aluToMem_eq_next ..).mpr ⟨hst, rfl⟩, rfl⟩, ?_, State.setFlags_flags .., ?_,
    rfl⟩
  · exact (State.valueAt_storeBytes_self s hs sz ea out.1).trans hfits
  · exact ⟨KeepsRegsExcept.of_getReg fun h => by simp, KeepsSrBut.setFlags (s.storeBytes sz.bytes ea out.1) out.2,
      KeepsMemoryExcept.storeBytes s hs sz ea out.1, rfl, rfl, rfl, rfl⟩

/-- Settles O27: `aluToMem` on the register as addend. -/
theorem addToMemory : Obligations.AddToMemory := by
  intro sz a R s hs hst
  rw [← State.indirect_eq] at hst ⊢
  obtain ⟨t, ht, hval, hflags, hframe, hpc⟩ := aluToMem_spec .add hs hst (s.readPart (s.codePart sz R)) 2
  refine ⟨t, ht, ?_, ?_, hframe, PastInstr.of_pc hpc⟩
  · rw [hval, AluOp.run_add_toNat]
  · rw [hflags]
    exact addAlu_flags ..

/-- Settles O29: the register fits the size. -/
theorem subFromMemory : Obligations.SubFromMemory := by
  intro sz a R s hs hst
  have hfits := s.readPart_codePart_lt sz R
  rw [← State.indirect_eq] at hst ⊢
  obtain ⟨t, ht, hval, hflags, hframe, hpc⟩ := aluToMem_spec .sub hs hst (s.readPart (s.codePart sz R)) 2
  refine ⟨t, ht, ?_, ?_, hframe, PastInstr.of_pc hpc⟩
  · rw [hval, AluOp.run_sub_toNat]
    exact subAlu_result _ _ _ _ hfits
  · rw [hflags]
    exact subAlu_flags _ _ _ _ hfits

/-! ## LD -/

section
variable (s : State)

/-- A value that fits the size is loaded into a register part named by a 3-bit code or an operand. -/
theorem LoadedWith.codePart {sz : Size} {v : Word} (hv : v.toNat < 2 ^ sz.bits) (R : RegCode) (n : Nat) :
    LoadedWith (s.codePart sz R) v s ((s.writePart (s.codePart sz R) v).advance n) :=
  LoadedWith.writePart s _ v n (s.codePart_inside sz R) (by rw [s.codePart_size, Size.and_mask_of_lt sz v hv])

theorem LoadedWith.opPart {sz : Size} {v : Word} (hv : v.toNat < 2 ^ sz.bits) (r : RegOp) (n : Nat) :
    LoadedWith (s.opPart sz r) v s ((s.writePart (s.opPart sz r) v).advance n) :=
  LoadedWith.writePart s _ v n (s.opPart_inside sz r) (by rw [s.opPart_size, Size.and_mask_of_lt sz v hv])

end

/-- A narrow constant zero-extended fits every size as wide. -/
theorem setWidth_toNat_lt {w : Nat} (n : BitVec w) {sz : Size} (hw : w ≤ sz.bits) :
    (n.setWidth 32).toNat < 2 ^ sz.bits := by
  rw [BitVec.toNat_setWidth]
  exact Nat.lt_of_le_of_lt (Nat.mod_le ..) (Nat.lt_of_lt_of_le n.isLt (Nat.pow_le_pow_right (by decide) hw))

/-- Settles O33: the value of a part fits its size. -/
theorem ldCopiesRegister : Obligations.LdCopiesRegister :=
  ⟨fun sz R r s => ⟨_, rfl, LoadedWith.codePart s (s.readPart_opPart_lt sz r) R _, PastInstr.of_pc (by simp)⟩,
    fun sz r R s => ⟨_, rfl, LoadedWith.opPart s (s.readPart_codePart_lt sz R) r _, PastInstr.of_pc (by simp)⟩⟩

/-- Settles O34: each constant fits its size. -/
theorem ldLoadsConstant : Obligations.LdLoadsConstant :=
  ⟨fun R n s => ⟨_, rfl, LoadedWith.codePart s (setWidth_toNat_lt n (by decide)) R _, PastInstr.of_pc (by simp)⟩,
    fun R n s => ⟨_, rfl, LoadedWith.codePart s (setWidth_toNat_lt n (by decide)) R _, PastInstr.of_pc (by simp)⟩,
    fun R n s => ⟨_, rfl, LoadedWith.codePart s n.isLt R _, PastInstr.of_pc (by simp)⟩,
    fun r n s => ⟨_, rfl, LoadedWith.opPart s (Imm.value_lt n) r _, PastInstr.of_pc (by simp)⟩,
    fun sz r k s => ⟨_, rfl, LoadedWith.opPart s (setWidth_toNat_lt k (by cases sz <;> decide)) r _,
      PastInstr.of_pc (by simp)⟩⟩

/-- Settles O35: the value at the address fits the size; the address is read before R is written. -/
theorem ldReadsMemory : Obligations.LdReadsMemory := by
  intro sz R a s hr
  rw [← State.indirect_eq] at hr ⊢
  exact ⟨_, Res.andThen_eq_next.mpr ⟨_, memRead_of_readable hr, rfl⟩,
    LoadedWith.codePart s (s.valueAt_lt sz _) R _, PastInstr.of_pc (by simp)⟩

/-- Settles O36: LD (reg),R is a store of a value that fits its size. -/
theorem ldStoresMemory : Obligations.LdStoresMemory := by
  intro sz a R s hs hst
  rw [← State.indirect_eq] at hst ⊢
  refine ⟨_, Res.andThen_eq_next.mpr ⟨_, memWrite_of_storable hst, rfl⟩, ?_,
    ⟨KeepsRegsExcept.of_getReg fun h => by simp, rfl, KeepsMemoryExcept.storeBytes s hs sz _ _, rfl, rfl, rfl, rfl⟩,
    PastInstr.of_pc rfl⟩
  rw [State.valueAt_advance, State.valueAt_storeBytes_self s hs, Size.and_mask_of_lt sz _ (s.readPart_codePart_lt sz R)]

/-! ## LDC -/

/-- Settles O37: CR_MAP gives a register the product has, which holds what is written; the other way narrows. -/
theorem ldcMoves : Obligations.LdcMoves := by
  intro sz r n c s hs hc
  obtain ⟨-, hexists⟩ := Product.ctrlReg_eq_some hc
  have hfits := Size.and_mask_of_lt sz _ (s.readPart_opPart_lt sz r)
  refine ⟨⟨(s.setCr c (s.readPart (s.opPart sz r))).advance (Instr.ldcCrR sz r n).length, ?_, ?_, fun c' hne => ?_,
    KeepsRegsExcept.of_getReg fun h => by simp, by simp, fun _ => by simp, by simp, by simp, by simp,
    PastInstr.of_pc (by simp)⟩,
    ⟨(s.writePart (s.opPart sz r) (s.getCr c)).advance (Instr.ldcRCr sz r n).length, ?_, ?_,
      PastInstr.of_pc (by simp)⟩⟩
  · simp only [exec, execLdcCrR, hc]
  · exact s.getCr_setCr_self hs c sz _ hexists hfits
  · exact s.getCr_setCr_ne hs c c' sz _ hexists hne
  · simp only [exec, execLdcRCr, hc]
  · have hmask := s.writePart_and_mask (s.opPart sz r) (s.getCr c)
    rw [s.opPart_size] at hmask
    rw [← hmask]
    exact LoadedWith.opPart s (by rw [Size.toNat_and_mask]; exact Nat.mod_lt _ (Nat.two_pow_pos _)) r _

/-- The only row of its number is the row CR_MAP gives (R52, 92 D26). -/
theorem Product.ctrlReg_of_only_row (p : Product) (e : CrEntry) (hmem : e ∈ p.crMap)
    (honly : ∀ e' ∈ p.crMap, e'.number = e.number → e' = e) (hexists : e.reg.existsIn p e.size = true) :
    p.ctrlReg e.size e.number = some e.reg := by
  have hfind : p.crMap.find? (fun e' => e'.number = e.number) = some e := by
    cases hfound : p.crMap.find? (fun e' => e'.number = e.number) with
    | none => exact absurd (by simp) (List.find?_eq_none.mp hfound e hmem)
    | some e' =>
      have hnumber : e'.number = e.number := by simpa using List.find?_some hfound
      rw [honly e' (List.mem_of_find?_eq_some hfound) hnumber]
  simp [Product.ctrlReg, hfind, hexists]

/-- A micro DMA register the product has is one of its channels' (R10). -/
theorem CtrlReg.channel_lt {p : Product} {sz : Size} {c : CtrlReg} (h : c.existsIn p sz = true) {ch : Nat}
    (hc : c = .dmas ch ∨ c = .dmad ch ∨ c = .dmac ch ∨ c = .dmam ch) : ch < p.channels := by
  rcases hc with rfl | rfl | rfl | rfl <;> exact of_decide_eq_true h

/-- Settles O38: the default table is evaluated. -/
theorem controlRegisterNumbers : Obligations.ControlRegisterNumbers := by
  refine ⟨fun p sz n c hc => ?_, Product.ctrlReg_of_only_row, fun sz r n s hnone => ⟨?_, ?_⟩, by decide,
    rfl, rfl, rfl⟩
  · obtain ⟨hrow, hexists⟩ := Product.ctrlReg_eq_some hc
    exact ⟨hrow, fun ch => CtrlReg.channel_lt hexists⟩
  · simp only [exec, execLdcCrR, hnone]
  · simp only [exec, execLdcRCr, hnone]

end Sys2Proof.Machine
end

section
/-! The stack: PUSH, POP, CALL, RET and RETI (41_interrupt_control.md, 43_load.md R144 to R146). -/

namespace Sys2Proof.Machine

/-! ## Pushed and popped states -/

section
variable {s t : State} (hbanks : t.banks = s.banks) (hix : t.xix = s.xix) (hiy : t.xiy = s.xiy) (hiz : t.xiz = s.xiz)
include hbanks hix hiy hiz

/-- The registers other than XSP are as they were where the fields that hold them are. -/
theorem State.getReg_congr {g : Home} (hg : g ≠ .xsp) : t.getReg g = s.getReg g := by
  cases g with
  | banked b r => simp only [State.getReg, hbanks]
  | xix => exact hix
  | xiy => exact hiy
  | xiz => exact hiz
  | xsp => exact absurd rfl hg

theorem KeepsRegsExcept.of_not_xsp : KeepsRegsExcept [xspPart] s t := by
  intro g k hc
  have hg : g ≠ .xsp := by
    rintro rfl
    have hcovers : xspPart.covers .xsp k := ⟨rfl, Nat.zero_le _, k.isLt⟩
    exact hc xspPart (by simp) hcovers
  exact State.regByte_congr g (State.getReg_congr hbanks hix hiy hiz hg) k

end

/-- All 32 bits of a word fit a word. -/
theorem and_mask_long (v : Word) : v &&& Size.l32.mask = v := Size.and_mask_of_lt .l32 v v.isLt

section
variable {s : State} (hs : s.MemInv)
include hs

/-- A push stores the bytes below XSP alone (R146), whatever PC then is. -/
theorem OnlyRegsAndStore.pushed (sz : Size) (v pc : Word) :
    OnlyRegsAndStore [xspPart] sz (s.xsp - BitVec.ofNat 32 sz.bytes) s { s.pushed sz v with pc := pc } :=
  ⟨KeepsRegsExcept.of_not_xsp rfl rfl rfl rfl, rfl,
    KeepsMemoryExcept.storeBytes { s with xsp := s.xsp - BitVec.ofNat 32 sz.bytes } hs sz _ v, rfl, rfl, rfl, rfl⟩

/-- A value that fits the size stands on the stack after the push. -/
theorem PushedOnto.pushed {sz : Size} {v : Word} (hv : v.toNat < 2 ^ sz.bits) (pc : Word) :
    PushedOnto sz v s { s.pushed sz v with pc := pc } :=
  ⟨rfl, (State.valueAt_pushed s hs sz v).trans (Size.and_mask_of_lt sz v hv), OnlyRegsAndStore.pushed hs sz v pc⟩

/-- A push of an instruction: it completes where the bytes below XSP can be stored to. -/
theorem push_advance_spec {sz : Size} {v : Word} (hv : v.toNat < 2 ^ sz.bits)
    (hst : s.storable sz (s.xsp - BitVec.ofNat 32 sz.bytes) = true) (n : Nat) :
    ∃ t, ((push sz v s).andThen fun s1 => .next (s1.advance n)) = .next t ∧ PushedOnto sz v s t ∧
      t.pc = s.pc + BitVec.ofNat 32 n :=
  ⟨_, Res.andThen_eq_next.mpr ⟨_, push_of_storable hst, rfl⟩, PushedOnto.pushed hs hv _, rfl⟩

theorem callTo_spec (hst : s.storable .l32 (s.xsp - 4#32) = true) (target : Word) (len : Nat) :
    ∃ t, callTo target len s = .next t ∧ CalledTo target len s t := by
  obtain ⟨hxsp, hval, hframe⟩ := PushedOnto.pushed hs (sz := .l32) (v := (s.advance len).pc) (BitVec.isLt _) target
  exact ⟨_, Res.andThen_eq_next.mpr ⟨_, push_of_storable hst, rfl⟩, rfl, hxsp, hval, hframe⟩

end

/-- Settles O23: both forms push the address of the next instruction. -/
theorem callPushesReturnAddress : Obligations.CallPushesReturnAddress := fun _ hs hst =>
  ⟨fun n => callTo_spec hs hst (n.setWidth 32) 3, fun n => callTo_spec hs hst (n.setWidth 32) 4⟩

/-- Everything RET does (R113). -/
theorem execRet_eq_next (s t : State) :
    exec .ret s = .next t ↔
      s.readable .l32 s.xsp = true ∧ t = { s.popped .l32 with pc := s.valueAt .l32 s.xsp } := by
  simp only [exec, execRet, Res.andThen_eq_next, pop_eq_next, Host.Outcome.next.injEq]
  constructor
  · rintro ⟨out, ⟨hr, rfl⟩, rfl⟩
    exact ⟨hr, rfl⟩
  · rintro ⟨hr, rfl⟩
    exact ⟨_, ⟨hr, rfl⟩, rfl⟩

/-- Settles O24: RET is a pop to PC. -/
theorem retPopsPc : Obligations.RetPopsPc := fun s hr =>
  ⟨_, (execRet_eq_next s _).mpr ⟨hr, rfl⟩, rfl, rfl,
    KeepsRegsExcept.of_not_xsp rfl rfl rfl rfl, rfl, fun _ => rfl,
    rfl, rfl, rfl, rfl⟩

/-- The instruction of a CALL is the subroutine call of its length. -/
theorem exec_call {i : Instr} (hi : (∃ n, i = .call16 n) ∨ ∃ n, i = .call24 n) :
    ∃ target, ∀ s, exec i s = callTo target i.length s := by
  rcases hi with ⟨n, rfl⟩ | ⟨n, rfl⟩ <;> exact ⟨_, fun _ => rfl⟩

/-- Settles O25: RET reads what CALL pushed, and XSP goes down and up by four. -/
theorem callThenRetReturns : Obligations.CallThenRetReturns := by
  intro s i hi hs hst
  obtain ⟨target, hexec⟩ := exec_call hi
  have hval : (s.pushed .l32 (s.advance i.length).pc).valueAt .l32 (s.xsp - 4#32) = (s.advance i.length).pc :=
    (State.valueAt_pushed s hs .l32 _).trans (and_mask_long _)
  have hread : (s.pushed .l32 (s.advance i.length).pc).readable .l32 (s.xsp - 4#32) = true :=
    (s.pushed_readable ..).trans (State.readable_of_storable hst)
  obtain ⟨-, -, hmem, -⟩ := OnlyRegsAndStore.pushed hs .l32 (s.advance i.length).pc target
  refine ⟨{ s.pushed .l32 (s.advance i.length).pc with pc := target }, _, ?_,
    (execRet_eq_next _ _).mpr ⟨hread, rfl⟩, PastInstr.of_pc hval, fun g => ?_, rfl, hmem, rfl, rfl, rfl, rfl⟩
  · rw [hexec]
    exact Res.andThen_eq_next.mpr ⟨_, push_of_storable hst, rfl⟩
  · cases g with
    | xsp => exact BitVec.sub_add_cancel s.xsp _
    | _ => rfl

/-! ## PUSH -/

/-- PUSH r in the long encoding (R144). -/
theorem exec_pushReg_spec {s : State} (hs : s.MemInv) {sz : Size}
    (hst : s.storable sz (s.xsp - BitVec.ofNat 32 sz.bytes) = true) (r : RegOp) :
    ∃ t, exec (.pushReg sz r) s = .next t ∧ PushedOnto sz (s.readPart (s.opPart sz r)) s t ∧
      PastInstr (.pushReg sz r) s t := by
  obtain ⟨t, ht, hpushed, hpc⟩ := push_advance_spec hs (s.readPart_opPart_lt sz r) hst (Instr.pushReg sz r).length
  refine ⟨t, ?_, hpushed, PastInstr.of_pc hpc⟩
  rw [← ht, exec, execPushReg, pushPart, s.opPart_size]

/-- Settles O39: each form is the push of a register part. -/
theorem pushStoresRegister : Obligations.PushStoresRegister := by
  refine ⟨fun sz r s hs hst => exec_pushReg_spec hs hst r, fun sz R s hsz hs hst => ?_, fun s hs hst => ?_⟩
  · have hfits := s.readPart_codePart_lt sz R
    obtain ⟨t, ht, hpushed, hpc⟩ := push_advance_spec hs hfits hst (Instr.pushShort sz R).length
    refine ⟨t, ?_, hpushed, PastInstr.of_pc hpc⟩
    rw [← ht, exec, execPushShort, if_neg hsz, pushPart, s.codePart_size]
  · obtain ⟨t, ht, hpushed, hpc⟩ := push_advance_spec hs (s.readPart_codePart_lt .b8 1#3) hst 1
    exact ⟨t, ht, hpushed, PastInstr.of_pc hpc⟩

/-- SR as PUSH SR stores it: bit 15 is 1, the others SR's (10_state.md R35). -/
theorem State.srImage_eq_append (s : State) : s.srImage = 1#1 ++ s.sr.setWidth 15 := by
  apply BitVec.eq_of_getLsbD_eq
  intro i hi
  have hbit : (0x8000#16).getLsbD i = decide (i = 15) := by
    revert i
    decide
  rw [State.srImage, BitVec.getLsbD_or, BitVec.getLsbD_append, hbit, BitVec.getLsbD_setWidth]
  by_cases h : i < 15
  · simp [h, Nat.ne_of_lt h]
  · have hlast : i = 15 := by omega
    simp [hlast]

/-- Settles O40: each is the push of a value that fits its size. -/
theorem pushStoresStatus : Obligations.PushStoresStatus := by
  refine ⟨fun s hs hst => ?_, fun s hs hst => ?_⟩
  · have hfits := setWidth_toNat_lt s.f (sz := .b8) (by decide)
    obtain ⟨t, ht, hpushed, hpc⟩ := push_advance_spec hs hfits hst 1
    exact ⟨t, ht, hpushed, PastInstr.of_pc hpc⟩
  · have hfits := setWidth_toNat_lt s.srImage (sz := .w16) (by decide)
    obtain ⟨t, ht, hpushed, hpc⟩ := push_advance_spec hs hfits hst 1
    exact ⟨t, ht, s.srImage_eq_append ▸ hpushed, PastInstr.of_pc hpc⟩

/-! ## POP -/

/-- POP to a register part (R145): XSP first, then the part. -/
theorem popPart_spec {s : State} {p : Part} (hp : p.inside) (hr : s.readable p.size s.xsp = true) (n : Nat) :
    ∃ t, popPart p n s = .next t ∧ PoppedInto p s t ∧ t.pc = s.pc + BitVec.ofNat 32 n :=
  ⟨_, Res.andThen_eq_next.mpr ⟨_, pop_of_readable hr, rfl⟩,
    LoadedWith.writePart (s.popped p.size) p _ n hp (Size.and_mask_of_lt _ _ (s.valueAt_lt _ _)), by simp⟩

/-- POP r in the long encoding (R145). -/
theorem exec_popReg_spec {s : State} {sz : Size} (hr : s.readable sz s.xsp = true) (r : RegOp) :
    ∃ t, exec (.popReg sz r) s = .next t ∧ PoppedInto (s.opPart sz r) s t ∧ PastInstr (.popReg sz r) s t := by
  rw [← s.opPart_size sz r] at hr
  obtain ⟨t, ht, hpopped, hpc⟩ := popPart_spec (s.opPart_inside sz r) hr (Instr.popReg sz r).length
  exact ⟨t, ht, hpopped, PastInstr.of_pc hpc⟩

/-- Settles O41: each form is the pop of a register part. -/
theorem popLoadsRegister : Obligations.PopLoadsRegister := by
  refine ⟨fun sz r s hr => exec_popReg_spec hr r, fun sz R s hsz hr => ?_, fun s hr => ?_⟩
  · rw [← s.codePart_size sz R] at hr
    obtain ⟨t, ht, hpopped, hpc⟩ := popPart_spec (s.codePart_inside sz R) hr (Instr.popShort sz R).length
    exact ⟨t, (if_neg hsz).trans ht, hpopped, PastInstr.of_pc hpc⟩
  · obtain ⟨t, ht, hpopped, hpc⟩ := popPart_spec (s.codePart_inside .b8 1#3) hr 1
    exact ⟨t, ht, hpopped, PastInstr.of_pc hpc⟩

/-- The fields of an image loaded into SR whole (41_interrupt_control.md R111). -/
theorem SrFrom.of_srLoaded {image : Word} {t : State} (h : t.sr = srLoaded (image.setWidth 16)) : SrFrom image t := by
  refine ⟨?_, ?_, ?_, h ▸ srLoaded_legal _⟩
  · apply BitVec.eq_of_getLsbD_eq
    intro i hi
    have h16 : 12 + i < 16 := by omega
    rw [State.iff, h, BitVec.getLsbD_extractLsb', BitVec.getLsbD_extractLsb', srLoaded_getLsbD _ _ (by omega),
      BitVec.getLsbD_setWidth, if_neg (by omega), if_neg (by omega), decide_eq_true h16, Bool.true_and]
  · apply BitVec.eq_of_getLsbD_eq
    intro i hi
    rw [State.rfp, h, BitVec.getLsbD_setWidth, BitVec.getLsbD_extractLsb', BitVec.getLsbD_extractLsb',
      srLoaded_getLsbD _ _ (by omega), BitVec.getLsbD_setWidth, if_neg (by omega)]
    by_cases hlow : i < 2
    · have hne : 8 + i ≠ 10 := by omega
      have hlt : 8 + i < 16 := by omega
      simp [hi, hlow, hne, hlt]
    · have heq : i = 2 := by omega
      simp [heq]
  · apply BitVec.eq_of_getLsbD_eq
    intro i hi
    have h16 : i < 16 := by omega
    rw [State.f, h, BitVec.getLsbD_setWidth, BitVec.getLsbD_setWidth, srLoaded_getLsbD _ _ (by omega),
      BitVec.getLsbD_setWidth, if_neg (by omega), if_neg (by omega), decide_eq_true h16, Bool.true_and]

/-- Settles O42: a pop, then the write of F or the load of SR. -/
theorem popLoadsStatus : Obligations.PopLoadsStatus := by
  refine ⟨fun s hr => ?_, fun s hr hmax => ?_⟩
  · exact ⟨_, Res.andThen_eq_next.mpr ⟨_, pop_of_readable hr, rfl⟩, State.setF_f .., rfl,
      ⟨KeepsRegsExcept.of_not_xsp rfl rfl rfl rfl,
        KeepsSrBut.setF (s.popped .b8) _, fun _ => rfl, rfl, rfl, rfl, rfl⟩, PastInstr.of_pc rfl⟩
  · have hload := (loadSr_eq_next ((s.valueAt .w16 s.xsp).setWidth 16) (s.popped .w16) _).mpr
      ⟨by simpa using hmax, rfl⟩
    exact ⟨_, Res.andThen_eq_next.mpr ⟨_, pop_of_readable hr, Res.andThen_eq_next.mpr ⟨_, hload, rfl⟩⟩,
      SrFrom.of_srLoaded rfl, rfl,
      KeepsRegsExcept.of_not_xsp rfl rfl rfl rfl,
      fun _ => rfl, ⟨rfl, rfl, rfl, rfl⟩, PastInstr.of_pc rfl⟩

/-- Settles O21: by everything a return from interrupt does. -/
theorem retiReturns : Obligations.RetiReturns := fun s hsr hpc hmax =>
  ⟨_, (returnFromInterrupt_eq_next s _).mpr ⟨hsr, hpc, hmax, rfl⟩, SrFrom.of_srLoaded rfl, rfl, rfl, rfl,
    KeepsRegsExcept.of_not_xsp rfl rfl rfl rfl, fun _ => rfl,
    rfl, rfl, rfl⟩

/-- A load of an image with MAX = 0 faults (10_state.md R37; log 17). -/
theorem loadSr_of_max_zero {image : Half} (h : image.getLsbD 11 = false) (s : State) :
    loadSr image s = .fault .maxCleared := by
  rw [loadSr, h]
  rfl

/-- Settles O22: both load the word at XSP into SR whole. -/
theorem maxZeroFaults : Obligations.MaxZeroFaults := by
  intro s hsr hmax
  have hfault := loadSr_of_max_zero (image := (s.valueAt .w16 s.xsp).setWidth 16) (by simpa using hmax)
  refine ⟨?_, fun hpc => ?_⟩
  · simp only [exec, execPopSr, pop_of_readable hsr, Res.andThen_next, hfault, Res.andThen_fault]
  · simp only [exec, execReti, returnFromInterrupt, memRead_of_readable hsr, memRead_of_readable hpc, Res.andThen_next,
      hfault, Res.andThen_fault]

/-! ## PUSH then POP -/

/-- What an operand names depends on SR alone (R29). -/
theorem State.opPart_congr {s t : State} (h : t.sr = s.sr) (sz : Size) (r : RegOp) : t.opPart sz r = s.opPart sz r := by
  have hbank : t.curBank = s.curBank := by rw [State.curBank, State.curBank, h]
  cases r with
  | short R => cases sz <;> simp only [State.opPart, State.codePart, State.codeHome, hbank]
  | long c => simp only [State.opPart, State.longHome, State.prevBank, hbank]

/-- A register all of whose bytes are as they were is as it was. -/
theorem State.getReg_eq_of_bytes {s t : State} {h : Home} (hbytes : ∀ k, t.regByte h k = s.regByte h k) :
    t.getReg h = s.getReg h := by
  apply BitVec.eq_of_getLsbD_eq
  intro i hi
  have hbit := congrArg (fun b => b.getLsbD (i % 8)) (hbytes (BitVec.ofNat 2 (i / 8)))
  have hk : (BitVec.ofNat 2 (i / 8)).toNat = i / 8 := Nat.mod_eq_of_lt (by omega)
  have hlt : i % 8 < 8 := Nat.mod_lt _ (by decide)
  have hi8 : 8 * (i / 8) + i % 8 = i := Nat.div_add_mod ..
  simpa only [regByte_getLsbD, hk, hlt, hi8, decide_true, Bool.true_and] using hbit

/-- Settles O43: POP reads what PUSH stored, and XSP goes down and up by the size. -/
theorem pushThenPopMoves : Obligations.PushThenPopMoves := by
  intro sz r r' s hs hst hhome
  obtain ⟨t, ht, ⟨htxsp, htval, htregs, htsr, -, htspecial⟩, -⟩ := exec_pushReg_spec hs hst r
  obtain ⟨-, -, -, htproduct⟩ := htspecial
  have hpart : t.opPart sz r' = s.opPart sz r' := State.opPart_congr htsr sz r'
  have hread : t.readable sz t.xsp = true := by
    rw [State.readable_congr s t htproduct, htxsp]
    exact State.readable_of_storable hst
  obtain ⟨u, hu, ⟨huval, huregs, -⟩, -⟩ := exec_popReg_spec hread r'
  rw [hpart] at huval huregs
  rw [s.opPart_size] at huval huregs
  have hxsp : t.xsp + BitVec.ofNat 32 sz.bytes = s.xsp := by rw [htxsp, BitVec.sub_add_cancel]
  have hkeeps : KeepsRegsExcept [s.opPart sz r'] s u := by
    intro g k hc
    rw [huregs g k hc]
    have hother : g ≠ .xsp → t.regByte g k = s.regByte g k := fun hg =>
      htregs g k (by simp [Part.covers, xspPart, hg.symm])
    cases g with
    | xsp => exact congrArg (byteOf k.toNat) hxsp
    | _ => exact hother nofun
  have huxsp : ∀ k, u.regByte .xsp k = s.regByte .xsp k := fun k =>
    hkeeps .xsp k (by simp [Part.covers, hhome])
  exact ⟨t, u, ht, hu, huval.trans htval, State.getReg_eq_of_bytes huxsp, hkeeps⟩

end Sys2Proof.Machine
end

section
/-! Interrupt acceptance, entry and return (60_exceptions.md R164 to R169, 41_interrupt_control.md R111). -/

namespace Sys2Proof.Machine

/-! ## Acceptance -/

theorem State.letsIn_iff (s : State) (r : Request) :
    s.letsIn r = true ↔ s.iff.toNat ≤ r.level.number ∨ r.level.number = 7 := by
  have hseven : r.level = .l7 ↔ r.level.number = 7 := by cases r.level <;> decide
  rw [State.letsIn, Bool.or_eq_true, decide_eq_true_iff, decide_eq_true_iff, hseven]

theorem State.accepted_eq_none_iff (s : State) (rs : List Request) :
    s.accepted rs = none ↔ ∀ q ∈ rs, s.letsIn q = false := by
  induction rs with
  | nil => simp [State.accepted]
  | cons r rs ih =>
    rw [State.accepted, List.forall_mem_cons, ← ih]
    cases s.accepted rs with
    | none => cases s.letsIn r <;> simp
    | some best =>
      simp only [reduceCtorEq, and_false, iff_false]
      split <;> exact nofun

/-- The request taken is one of those presented, let in, and none let in has a higher level (R166). -/
theorem State.accepted_eq_some {s : State} {rs : List Request} : ∀ {r : Request}, s.accepted rs = some r →
    r ∈ rs ∧ s.letsIn r = true ∧ ∀ q ∈ rs, s.letsIn q = true → q.level.number ≤ r.level.number := by
  induction rs with
  | nil => exact nofun
  | cons r' rs ih =>
    intro r h
    rw [State.accepted] at h
    cases hrest : s.accepted rs with
    | none =>
      have hnone := (s.accepted_eq_none_iff rs).mp hrest
      simp only [hrest] at h
      split at h
      case isTrue hr' =>
        cases h
        exact ⟨List.mem_cons_self, hr', List.forall_mem_cons.mpr ⟨fun _ => Nat.le_refl _,
          fun q hq hlet => of_true_of_false hlet (hnone q hq)⟩⟩
      case isFalse => cases h
    | some best =>
      obtain ⟨hmem, hlet, hmax⟩ := ih hrest
      simp only [hrest] at h
      split at h
      case isTrue hr' =>
        rw [Bool.and_eq_true, decide_eq_true_iff] at hr'
        obtain ⟨hlet', hle⟩ := hr'
        cases h
        exact ⟨List.mem_cons_self, hlet', List.forall_mem_cons.mpr ⟨fun _ => Nat.le_refl _,
          fun q hq hq' => Nat.le_trans (hmax q hq hq') hle⟩⟩
      case isFalse hr' =>
        cases h
        refine ⟨List.mem_cons_of_mem _ hmem, hlet, List.forall_mem_cons.mpr ⟨fun hlet' => ?_, hmax⟩⟩
        rw [hlet', Bool.true_and, decide_eq_true_iff] at hr'
        omega

/-- Settles O46: by induction over the requests presented. -/
theorem highestRequestAccepted : Obligations.HighestRequestAccepted :=
  ⟨State.letsIn_iff, fun _ _ _ => State.accepted_eq_some, State.accepted_eq_none_iff⟩

/-! ## Entry -/

/-- The slot of a request is four times its number above the vector base (R67). -/
theorem State.vectorSlot_eq (s : State) (r : Request) :
    s.vectorSlot r = s.product.vectorBase + BitVec.ofNat 32 (4 * r.slot.toNat) := by
  have hslot : r.slot.setWidth 32 <<< 2 = BitVec.ofNat 32 (4 * r.slot.toNat) := by
    apply BitVec.eq_of_toNat_eq
    have hlt : r.slot.toNat < 64 := r.slot.isLt
    rw [BitVec.toNat_shiftLeft, BitVec.toNat_setWidth, BitVec.toNat_ofNat, Nat.shiftLeft_eq]
    omega
  rw [State.vectorSlot, hslot]

/-- The low 24 bits of the value in a slot are the address in its first three bytes (R67, R167). -/
theorem State.valueAt_and_eq_vector (s : State) (slot : Word) :
    s.valueAt .l32 slot &&& 0x00FFFFFF#32 = s.mem.vector s.product.addrBits slot := by
  have hthree := Memory.load_lt s.product.addrBits 3 s.mem slot
  apply BitVec.eq_of_toNat_eq
  rw [BitVec.toNat_and, State.valueAt_toNat, show (0x00FFFFFF#32).toNat = 2 ^ 24 - 1 from rfl,
    Nat.and_two_pow_sub_one_eq_mod, Memory.vector, BitVec.toNat_ofNat]
  simp only [Size.bytes, Memory.load] at hthree ⊢
  omega

section
variable {s : State} (hs : s.MemInv)
include hs

/-- The bytes of SR on the stack of an entry are none of the bytes of PC: an entry's six bytes have six addresses. -/
theorem State.not_inAccess_of_entry {a : Addr} (hpc : s.inAccess .l32 (s.xsp - 4#32) a) :
    ¬ s.inAccess .w16 (s.xsp - 6#32) a := by
  obtain ⟨k, hk, rfl⟩ := hpc
  rintro ⟨l, hl, heq⟩
  simp only [Size.bytes] at hk hl
  have hbase : s.xsp - 4#32 + BitVec.ofNat 32 k = s.xsp - 6#32 + BitVec.ofNat 32 (k + 2) := by
    have h6 : s.xsp - 4#32 = s.xsp - 6#32 + 2#32 := by bv_omega
    rw [h6, BitVec.add_assoc, Nat.add_comm k 2, BitVec.ofNat_add]
  rw [hbase] at heq
  have height := Product.eight_le hs.1
  exact cut_add_inj s.product.addrBits hs.1.2 (s.xsp - 6#32) l (k + 2) (by omega) (by omega) heq.symm

/-- What stands on the stack after an entry's two pushes (R167). -/
theorem State.entered_values : s.entered.valueAt .l32 (s.xsp - 4#32) = s.pc ∧
    s.entered.valueAt .w16 (s.xsp - 6#32) = s.srImage.setWidth 32 := by
  have hs1 : (s.pushed .l32 s.pc).MemInv := hs.pushed .l32 s.pc
  have hxsp : (s.pushed .l32 s.pc).xsp - BitVec.ofNat 32 Size.w16.bytes = s.xsp - 6#32 := BitVec.sub_sub ..
  refine ⟨?_, ?_⟩
  · calc s.entered.valueAt .l32 (s.xsp - 4#32)
        = (s.pushed .l32 s.pc).valueAt .l32 (s.xsp - 4#32) :=
          State.valueAt_pushed_outside _ hs1 .w16 .l32 _ _ fun a ha => by
            rw [hxsp]
            exact State.not_inAccess_of_entry hs ha
      _ = s.pc := (State.valueAt_pushed s hs .l32 s.pc).trans (and_mask_long _)
  · have hval := State.valueAt_pushed (s.pushed .l32 s.pc) hs1 .w16 (s.srImage.setWidth 32)
    rw [hxsp] at hval
    exact hval.trans (Size.and_mask_of_lt .w16 _ (setWidth_toNat_lt s.srImage (by decide)))

/-- An entry's pushes leave every byte but those six. -/
theorem State.read_entered {a : Addr} (hpc : ¬ s.inAccess .l32 (s.xsp - 4#32) a)
    (hsr : ¬ s.inAccess .w16 (s.xsp - 6#32) a) : s.entered.mem.read a = s.mem.read a := by
  obtain ⟨-, -, hfirst, -⟩ := OnlyRegsAndStore.pushed hs .l32 s.pc s.pc
  obtain ⟨-, -, hsecond, -⟩ := OnlyRegsAndStore.pushed (hs.pushed .l32 s.pc) .w16 (s.srImage.setWidth 32) s.pc
  have hxsp : (s.pushed .l32 s.pc).xsp - BitVec.ofNat 32 Size.w16.bytes = s.xsp - 6#32 := BitVec.sub_sub ..
  rw [hxsp] at hsecond
  exact (hsecond a hsr).trans (hfirst a hpc)

end

/-- An entry writes no register but XSP. -/
theorem takeInterrupt_registers {r : Request} {s t : State} (h : takeInterrupt r s = .next t) :
    t.banks = s.banks ∧ t.xix = s.xix ∧ t.xiy = s.xiy ∧ t.xiz = s.xiz := by
  obtain ⟨-, -, -, rfl⟩ := (takeInterrupt_eq_next r s t).mp h
  exact ⟨rfl, rfl, rfl, rfl⟩

/-- Settles O47: by everything an entry does. -/
theorem interruptEntry : Obligations.InterruptEntry := by
  intro r s hs hpc hsr hslot
  obtain ⟨hpcval, hsrval⟩ := State.entered_values hs
  rw [← State.vectorSlot_eq] at hslot
  have ht := (takeInterrupt_eq_next r s _).mpr ⟨hpc, hsr, hslot, rfl⟩
  obtain ⟨hbanks, hix, hiy, hiz⟩ := takeInterrupt_registers ht
  refine ⟨_, ht, BitVec.sub_sub .., hpcval, hsrval, ?_, KeepsSrBut.setIff s.entered _, rfl, ?_,
    KeepsRegsExcept.of_not_xsp hbanks hix hiy hiz, fun a => State.read_entered hs, rfl, rfl, rfl⟩
  · rw [takeInterrupt_iff ht, Level.maskAfter_toNat]
  · rw [← State.vectorSlot_eq]
    exact State.valueAt_and_eq_vector (s.masked r) (s.vectorSlot r)

/-- Settles O49: RETI reads the image of SR and PC that the entry pushed, and counts XSP and INTNEST back. -/
theorem entryThenRetiRestores : Obligations.EntryThenRetiRestores := by
  intro r s t hinv h
  obtain ⟨hlegal, hs, -, -⟩ := hinv
  obtain ⟨hpcval, hsrval⟩ := State.entered_values hs
  obtain ⟨hbanks, hix, hiy, hiz⟩ := takeInterrupt_registers h
  obtain ⟨hpc, hsr, -, ht⟩ := (takeInterrupt_eq_next r s t).mp h
  have hxsp : t.xsp = s.xsp - 6#32 := by
    rw [ht]
    exact BitVec.sub_sub ..
  have hxsp2 : t.xsp + 2#32 = s.xsp - 4#32 := by rw [hxsp]; bv_omega
  have hvalue : ∀ sz ea, t.valueAt sz ea = s.entered.valueAt sz ea := fun _ _ => by rw [ht]; rfl
  have himage : t.valueAt .w16 t.xsp = s.srImage.setWidth 32 := by rw [hxsp, hvalue, hsrval]
  have hpct : t.valueAt .l32 (t.xsp + 2#32) = s.pc := by rw [hxsp2, hvalue, hpcval]
  have hread : ∀ sz ea, t.readable sz ea = s.readable sz ea := State.readable_congr s t (by rw [ht]; rfl)
  have hmax : (t.valueAt .w16 t.xsp).getLsbD 11 = true := by
    rw [himage, BitVec.getLsbD_setWidth, State.srImage, BitVec.getLsbD_or, hlegal.2.1]
    rfl
  have hsrback : srLoaded ((t.valueAt .w16 t.xsp).setWidth 16) = s.sr := by
    rw [himage, BitVec.setWidth_setWidth_of_le _ (by decide), BitVec.setWidth_eq]
    exact srLoaded_of_legal s.sr hlegal
  refine ⟨_, (returnFromInterrupt_eq_next t _).mpr ⟨?_, ?_, hmax, rfl⟩, hsrback, hpct, fun g => ?_, ?_, ?_⟩
  · rw [hread, hxsp]
    exact State.readable_of_storable hsr
  · rw [hread, hxsp2]
    exact State.readable_of_storable hpc
  · cases g with
    | xsp =>
      show t.xsp + 6#32 = s.xsp
      rw [hxsp, BitVec.sub_add_cancel]
    | _ =>
      apply State.getReg_congr
      exacts [hbanks, hix, hiy, hiz, nofun]
  · have hcount : s.cr.intnest + 1#16 - 1#16 = s.cr.intnest := BitVec.add_sub_cancel ..
    rw [ht]
    show CtrlRegs.mk s.cr.dma (s.cr.intnest + 1#16 - 1#16) = s.cr
    rw [hcount]
  · rw [ht]
    rfl

end Sys2Proof.Machine
end

section
/-! The step: the instruction at PC, the events of the environment, the fetches that are refused (60_exceptions.md R165,
30_encoding.md R95, 20_memory.md R70). -/

namespace Sys2Proof.Machine

/-! ## Fetching -/

/-- Where all the bytes can be fetched, a fetch gives what memory holds there. -/
theorem State.fetchBytes_getElem? (s : State) (n : Nat) : ∀ {ea : Word}, s.mapped .fetch n ea = true →
    ∀ k < n, (s.fetchBytes n ea)[k]? = some (s.mem.read (s.addr (ea + BitVec.ofNat 32 k))) := by
  induction n with
  | zero => exact fun _ _ hk => absurd hk (Nat.not_lt_zero _)
  | succ n ih =>
    intro ea hm k hk
    have hs : s.mapped .fetch 1 ea = true ∧ s.mapped .fetch n (ea + 1#32) = true := by
      simpa only [State.mapped, Bool.and_eq_true, Bool.and_true] using hm
    obtain ⟨hfirst, hrest⟩ := hs
    have hcons : s.fetchBytes (n + 1) ea = s.mem.read (s.addr ea) :: s.fetchBytes n (ea + 1#32) := by
      rw [State.fetchBytes, (access_eq_next .fetch ea s).mpr hfirst]
    rw [hcons]
    cases k with
    | zero => rw [List.getElem?_cons_zero, BitVec.add_zero]
    | succ k =>
      rw [List.getElem?_cons_succ, ← add_one_ofNat ea k]
      exact ih hrest k (by omega)

theorem State.fetchBytes_length_le (s : State) (n : Nat) : ∀ ea, (s.fetchBytes n ea).length ≤ n := by
  induction n with
  | zero => exact fun _ => Nat.le_refl _
  | succ n ih =>
    intro ea
    rw [State.fetchBytes]
    split
    · exact Nat.succ_le_succ (ih _)
    · exact Nat.zero_le _

/-- A longer fetch begins with a shorter one. -/
theorem State.fetchBytes_prefix (s : State) {m n : Nat} (hle : m ≤ n) :
    ∀ ea, s.fetchBytes m ea <+: s.fetchBytes n ea := by
  induction m generalizing n with
  | zero => exact fun _ => List.nil_prefix
  | succ m ih =>
    intro ea
    cases n with
    | zero => exact absurd hle (Nat.not_succ_le_zero _)
    | succ n =>
      rw [State.fetchBytes, State.fetchBytes]
      split
      · exact (List.prefix_cons_inj _).mpr (ih (Nat.le_of_succ_le_succ hle) _)
      · exact List.nil_prefix

/-- A fetch of bytes that stand in memory and can be fetched begins with them. -/
theorem State.prefix_fetchBytes {s : State} {bs : List Byte} {ea : Word} {n : Nat} (hn : bs.length ≤ n)
    (hbytes : ∀ k < bs.length, bs[k]? = some (s.mem.read (s.addr (ea + BitVec.ofNat 32 k))))
    (hm : s.mapped .fetch bs.length ea = true) : bs <+: s.fetchBytes n ea := by
  have heq : bs = s.fetchBytes bs.length ea := by
    apply List.ext_getElem?
    intro k
    by_cases hk : k < bs.length
    · rw [hbytes k hk, s.fetchBytes_getElem? _ hm k hk]
    · have hlen := s.fetchBytes_length_le bs.length ea
      rw [List.getElem?_eq_none (by omega), List.getElem?_eq_none (by omega)]
  exact heq ▸ s.fetchBytes_prefix hn ea

/-- A boundary with requests none of which is let in runs the instruction at PC, the event used up. -/
theorem step_of_masked {s : State} {rs : List Request} {rest : List EnvEvent} (henv : s.env = .present rs :: rest)
    (hnone : s.accepted rs = none) : step s = runInstr { s with env := rest } := by
  simp only [step, henv, hnone, State.dropEvent, List.tail_cons]

/-- The instruction whose bytes stand at PC, never stored to, is the one that runs. -/
theorem runInstr_of_bytes {i : Instr} {s : State} (hwf : i.wellFormed = true)
    (hbytes : ∀ k < (encode i).length,
      (encode i)[k]? = some (s.mem.read (s.addr (s.pc + BitVec.ofNat 32 k))) ∧
        s.addr (s.pc + BitVec.ofNat 32 k) ∉ s.stored)
    (hm : s.mapped .fetch (encode i).length s.pc = true) : runInstr s = exec i s := by
  obtain ⟨hlen, -, hmax⟩ := encode_length i
  obtain ⟨rest, hfetch⟩ : encode i <+: s.fetchBytes maxLength s.pc :=
    State.prefix_fetchBytes (hlen ▸ hmax) (fun k hk => (hbytes k hk).1) hm
  have hdec : decode (s.fetchBytes maxLength s.pc) = .ok i := hfetch ▸ encodeThenDecode i rest hwf
  have hunstored : s.textUnstored i.length s.pc = .next () :=
    (s.textUnstored_eq_next _ _).mpr fun k hk => (hbytes k (hlen ▸ hk)).2
  rw [runInstr, (fetch_eq_next s i).mpr ⟨hdec, hunstored⟩, Res.andThen_next]

/-- Settles O44: the bytes at PC decode to the instruction they encode (O1). -/
theorem stepRunsTheInstructionAtPc : Obligations.StepRunsTheInstructionAtPc := by
  intro i s hwf hbytes hm
  refine ⟨fun henv => ?_, fun rs rest henv hnone => ?_⟩
  · rw [step_of_no_event henv, runInstr_of_bytes hwf hbytes hm]
  · have hm' : State.mapped { s with env := rest } .fetch (encode i).length s.pc = true :=
      (State.mapped_congr s { s with env := rest } rfl .fetch _ _).trans hm
    rw [step_of_masked henv hnone]
    exact runInstr_of_bytes hwf hbytes hm'

/-- Settles O45: at each boundary `step` looks at the environment before it fetches. -/
theorem stepTakesEvents : Obligations.StepTakesEvents := by
  refine ⟨fun s rs r rest henv hr => step_of_accepted henv hr, fun s rest henv => ?_⟩
  simp only [step, henv, State.dropEvent, List.tail_cons]

/-! ## Fetches that are refused -/

/-- Settles O51: the fetch refuses whatever the decoder rejects, a run of bytes that ends aside. -/
theorem undecodableRefused : Obligations.UndecodableRefused := by
  intro s e henv hdec hne
  have hfetch : fetch s = .refused (.undecodable (s.addr s.pc) e) := by
    cases e with
    | truncated => exact absurd rfl hne
    | _ => simp only [fetch, hdec]
  rw [step_of_no_event henv, runInstr, hfetch, Res.andThen_refused]

/-- Text one of whose bytes was stored is refused at an address (R70). -/
theorem State.textUnstored_of_stored {s : State} (n : Nat) : ∀ {ea : Word} {k : Nat}, k < n →
    s.addr (ea + BitVec.ofNat 32 k) ∈ s.stored → ∃ a, s.textUnstored n ea = .refused (.storedText a) := by
  induction n with
  | zero => exact fun hk _ => absurd hk (Nat.not_lt_zero _)
  | succ n ih =>
    intro ea k hk hmem
    rw [State.textUnstored]
    split
    case isTrue => exact ⟨_, rfl⟩
    case isFalse hfirst =>
      cases k with
      | zero =>
        rw [BitVec.add_zero] at hmem
        exact absurd hmem hfirst
      | succ k =>
        rw [← add_one_ofNat] at hmem
        exact ih (by omega) hmem

/-- Settles O52: a store adds each address of its access to the record, and the fetch looks through the record. -/
theorem storedTextRefused : Obligations.StoredTextRefused := by
  refine ⟨fun s t sz ea v a h hin => ?_, fun s i k henv hdec hk hmem => ?_⟩
  · obtain ⟨-, rfl⟩ := (memWrite_eq_next sz ea v s t).mp h
    exact (AddrSet.mem_insertRange ..).mpr (.inl hin)
  · obtain ⟨a, ha⟩ := State.textUnstored_of_stored i.length hk hmem
    have hfetch : fetch s = .refused (.storedText a) := by
      simp only [fetch, hdec, ha, Res.andThen_refused]
    exact ⟨a, by rw [step_of_no_event henv, runInstr, hfetch, Res.andThen_refused]⟩

end Sys2Proof.Machine
end


section
/-! DAA after ADD and SUB of packed BCD bytes (42_arithmetic.md R126, 92 D25): the candidate of G22 in numbers. -/

namespace Sys2Proof.Machine

/-- What the candidate adds or takes away: 6 for the low digit, 60H for the high. -/
def daaAdjust (x : DaaArgs) : Nat :=
  (if x.h = true ∨ 9 < x.a.toNat % 16 then 0x06 else 0) + if x.c = true ∨ 0x99 < x.a.toNat then 0x60 else 0

/-- The adjustment as the byte the candidate computes. -/
theorem daaCandidate_r_eq (x : DaaArgs) :
    ∃ adj : Byte, adj.toNat = daaAdjust x ∧ (daaCandidate x).r = if x.n then x.a - adj else x.a + adj := by
  refine ⟨_, ?_, rfl⟩
  simp only [daaAdjust, Bool.or_eq_true, decide_eq_true_iff, gt_iff_lt]
  split <;> split <;> rfl

theorem daaAdjust_le (x : DaaArgs) : daaAdjust x ≤ 0x66 := by
  unfold daaAdjust
  split <;> split <;> decide

/-- The candidate's result as a number. -/
theorem daaCandidate_r_toNat (x : DaaArgs) :
    (daaCandidate x).r.toNat =
      if x.n then (x.a.toNat + 256 - daaAdjust x) % 256 else (x.a.toNat + daaAdjust x) % 256 := by
  obtain ⟨adj, hadj, hr⟩ := daaCandidate_r_eq x
  have hle := daaAdjust_le x
  rw [hr]
  split
  · rw [BitVec.toNat_sub, hadj]
    omega
  · rw [BitVec.toNat_add, hadj]

/-- The packed BCD form of a number below 100. -/
def bcd (n : Nat) : Nat := n / 10 * 16 + n % 10

theorem bcd_le {n : Nat} (hn : n < 100) : bcd n ≤ 0x99 := by
  unfold bcd
  omega

theorem bcd_lt_bcd_iff (x y : Nat) : bcd x < bcd y ↔ x < y := by
  unfold bcd
  omega

/-! The two conditions of the correction, on packed BCD, are the decimal carries (borrows) of the digits. -/

theorem bcd_add_low_iff (x y : Nat) :
    (15 < bcd x % 16 + bcd y % 16 ∨ 9 < (bcd x + bcd y) % 256 % 16) ↔ 10 ≤ x % 10 + y % 10 := by
  unfold bcd
  omega

theorem bcd_sub_low_iff (x : Nat) {y : Nat} (hy : y < 100) :
    (bcd x % 16 < bcd y % 16 ∨ 9 < (bcd x + 256 - bcd y) % 256 % 16) ↔ x % 10 < y % 10 := by
  have hle := bcd_le hy
  unfold bcd at *
  omega

theorem bcd_add_high_iff (x y : Nat) : (256 ≤ bcd x + bcd y ∨ 0x99 < (bcd x + bcd y) % 256) ↔ 100 ≤ x + y := by
  by_cases hc : 256 ≤ bcd x + bcd y
  · refine iff_of_true (.inl hc) ?_
    unfold bcd at hc
    omega
  · rw [Nat.mod_eq_of_lt (by omega), or_iff_right hc]
    unfold bcd
    omega

section
variable {x y : Nat} (hx : x < 100)
include hx

theorem bcd_sub_high_iff : (bcd x < bcd y ∨ 0x99 < (bcd x + 256 - bcd y) % 256) ↔ x < y := by
  rw [bcd_lt_bcd_iff]
  by_cases h : x < y
  · exact iff_of_true (.inl h) h
  · have hge := (bcd_lt_bcd_iff x y).not.mpr h
    have hle := bcd_le hx
    omega

variable (hy : y < 100)
include hy

/-- The corrected sum: 6 carries a low digit past 9 into the high one, 60H drops a high digit past 9. -/
theorem bcd_add_adjust :
    ((bcd x + bcd y) % 256 + ((if 10 ≤ x % 10 + y % 10 then 0x06 else 0) + if 100 ≤ x + y then 0x60 else 0)) % 256 =
      bcd ((x + y) % 100) := by
  unfold bcd
  by_cases hlow : 10 ≤ x % 10 + y % 10 <;> by_cases hhigh : 100 ≤ x + y <;> simp only [hlow, hhigh, if_true, if_false]
  · have htens : (x + y) % 100 / 10 = x / 10 + y / 10 - 9 := by omega
    have hones : (x + y) % 100 % 10 = x % 10 + y % 10 - 10 := by omega
    rw [htens, hones]
    omega
  · have htens : (x + y) % 100 / 10 = x / 10 + y / 10 + 1 := by omega
    have hones : (x + y) % 100 % 10 = x % 10 + y % 10 - 10 := by omega
    rw [htens, hones]
    omega
  · have htens : (x + y) % 100 / 10 = x / 10 + y / 10 - 10 := by omega
    have hones : (x + y) % 100 % 10 = x % 10 + y % 10 := by omega
    rw [htens, hones]
    omega
  · have htens : (x + y) % 100 / 10 = x / 10 + y / 10 := by omega
    have hones : (x + y) % 100 % 10 = x % 10 + y % 10 := by omega
    rw [htens, hones]
    omega

/-- The corrected difference: 6 takes 16 - 10 from a low digit that borrowed, 60H the same from a high one. -/
theorem bcd_sub_adjust :
    ((bcd x + 256 - bcd y) % 256 + 256 - ((if x % 10 < y % 10 then 0x06 else 0) + if x < y then 0x60 else 0)) % 256 =
      bcd ((x + 100 - y) % 100) := by
  unfold bcd
  by_cases hlow : x % 10 < y % 10 <;> by_cases hhigh : x < y <;> simp only [hlow, hhigh, if_true, if_false]
  · have htens : (x + 100 - y) % 100 / 10 = x / 10 + 9 - y / 10 := by omega
    have hones : (x + 100 - y) % 100 % 10 = x % 10 + 10 - y % 10 := by omega
    rw [htens, hones]
    omega
  · have htens : (x + 100 - y) % 100 / 10 = x / 10 - y / 10 - 1 := by omega
    have hones : (x + 100 - y) % 100 % 10 = x % 10 + 10 - y % 10 := by omega
    rw [htens, hones]
    omega
  · have htens : (x + 100 - y) % 100 / 10 = x / 10 + 10 - y / 10 := by omega
    have hones : (x + 100 - y) % 100 % 10 = x % 10 - y % 10 := by omega
    rw [htens, hones]
    omega
  · have htens : (x + 100 - y) % 100 / 10 = x / 10 - y / 10 := by omega
    have hones : (x + 100 - y) % 100 % 10 = x % 10 - y % 10 := by omega
    rw [htens, hones]
    omega

end

/-! ## DAA after ADD and SUB -/

/-- The candidate's carry: the carry before, or a value above 99H. -/
theorem daaCandidate_c_iff (a : DaaArgs) : (daaCandidate a).c = true ↔ a.c = true ∨ 0x99 < a.a.toNat := by
  show (a.c || decide (a.a.toNat > 0x99)) = true ↔ _
  rw [Bool.or_eq_true, decide_eq_true_iff]

section
variable {a : DaaArgs} {x y : Nat} (hx : x < 100) (hy : y < 100)
include hx hy

theorem daaCandidate_add (hn : a.n = false) (ha : a.a.toNat = (bcd x + bcd y) % 256)
    (hh : a.h = true ↔ 15 < bcd x % 16 + bcd y % 16) (hc : a.c = true ↔ 256 ≤ bcd x + bcd y) :
    (daaCandidate a).r.toNat = bcd ((x + y) % 100) ∧ (daaCandidate a).c = decide (100 ≤ x + y) := by
  constructor
  · rw [daaCandidate_r_toNat, hn, if_neg Bool.false_ne_true, daaAdjust]
    simp only [hh, hc, ha, bcd_add_low_iff, bcd_add_high_iff]
    exact bcd_add_adjust hx hy
  · rw [Bool.eq_iff_iff, daaCandidate_c_iff, decide_eq_true_iff, hc, ha]
    exact bcd_add_high_iff x y

theorem daaCandidate_sub (hn : a.n = true) (ha : a.a.toNat = (bcd x + 256 - bcd y) % 256)
    (hh : a.h = true ↔ bcd x % 16 < bcd y % 16) (hc : a.c = true ↔ bcd x < bcd y) :
    (daaCandidate a).r.toNat = bcd ((x + 100 - y) % 100) ∧ (daaCandidate a).c = decide (x < y) := by
  constructor
  · rw [daaCandidate_r_toNat, hn, if_pos rfl, daaAdjust]
    simp only [hh, hc, ha, bcd_sub_low_iff x hy, bcd_sub_high_iff hx]
    exact bcd_sub_adjust hx hy
  · rw [Bool.eq_iff_iff, daaCandidate_c_iff, decide_eq_true_iff, hc, ha]
    exact bcd_sub_high_iff hx

end

/-- Settles O32: DAA_FN is the candidate, and the flags of the 8-bit sum and difference say what it corrects. -/
theorem daaCorrectsBcd : Obligations.DaaCorrectsBcd := by
  intro q hq x y hx hy u
  have hnat : ∀ n, (BitVec.ofNat 8 (n % 2 ^ 8)).toNat = n % 256 := fun n => by
    rw [BitVec.toNat_ofNat, Nat.mod_mod]; rfl
  obtain ⟨hsum, hcarry⟩ := daaCandidate_add hx hy
    (a := let o := addAlu .b8 (bcd x) (bcd y) u; ⟨BitVec.ofNat 8 o.1, o.2.n, o.2.h, o.2.c⟩)
    rfl (hnat _) decide_eq_true_iff decide_eq_true_iff
  obtain ⟨hdiff, hborrow⟩ := daaCandidate_sub hx hy
    (a := let o := subAlu .b8 (bcd x) (bcd y) u; ⟨BitVec.ofNat 8 o.1, o.2.n, o.2.h, o.2.c⟩)
    rfl (hnat _) decide_eq_true_iff decide_eq_true_iff
  simp only [daaFn, hq]
  exact ⟨hsum, hcarry, hdiff, hborrow⟩

end Sys2Proof.Machine
end
